-- ==== Sys2Proof/Word.lean ====
section
/-! DEFINITION. The word types of the koro LZ codec block: bytes, 10-bit window slots, 32-bit length words. -/

namespace Sys2Proof

/-- A byte, 8 bits, value 0..255 (R10). -/
abbrev Byte := BitVec 8

/-- A window index or cursor: 10 bits, 0..1023, arithmetic modulo 1024 (R22, R113). -/
abbrev Slot := BitVec 10

/-- A 32-bit unsigned length word: IN_LEN, ULEN, `ulen`, the header field (R37). -/
abbrev Word32 := BitVec 32

end Sys2Proof
end

