-- ==== Sys2Proof/Config.lean ====
section
/-! DEFINITION. What is fixed for the block: the format constants of R7 and the implementation parameters of R8 with the
defaults the spec chose. -/

namespace Sys2Proof

/-! ## Format constants (R7): fixed by the format, not by the implementation. -/

namespace Config

/-- WIN_SIZE (R7). -/
@[simp, reducible] def winSize : Nat := 1024
/-- CUR_INIT (R7): the write cursor at the start of every operation. -/
@[simp, reducible] def curInit : Nat := 958
/-- WIN_FILL (R7). -/
@[simp, reducible] def winFill : Byte := 0x00
/-- MIN_MATCH (R7). -/
@[simp, reducible] def minMatch : Nat := 3
/-- MAX_MATCH (R7). -/
@[simp, reducible] def maxMatch : Nat := 66
/-- OFF_MAX (R7). -/
@[simp, reducible] def offMax : Nat := 1023
/-- CHUNK_TOKENS (R7). -/
@[simp, reducible] def chunkTokens : Nat := 8
/-- HDR_LEN (R7). -/
@[simp, reducible] def hdrLen : Nat := 16
/-- MAGIC_A (R7). -/
@[simp, reducible] def magicA : Word32 := 0x00000001
/-- MAGIC_B (R7). -/
@[simp, reducible] def magicB : Word32 := 0x00000008
/-- MAGIC_C (R7). -/
@[simp, reducible] def magicC : Word32 := 0x00000001
/-- The size of the staging buffer `tokbuf`: 8 tokens of at most 2 bytes (R27). -/
@[simp, reducible] def tokbufSize : Nat := 16
/-- MARK_FROM (R7): the 24 bytes of the text `<EDITUSER> 3 </EDITUSER>`.
PRESUMED by the spec itself: that the text is ASCII (log entry 19). -/
def markFrom : List Byte :=
  [0x3C, 0x45, 0x44, 0x49, 0x54, 0x55, 0x53, 0x45, 0x52, 0x3E, 0x20, 0x33,
   0x20, 0x3C, 0x2F, 0x45, 0x44, 0x49, 0x54, 0x55, 0x53, 0x45, 0x52, 0x3E]
/-- MARK_TO (R7): differs from MARK_FROM only in byte 11. -/
def markTo : List Byte :=
  [0x3C, 0x45, 0x44, 0x49, 0x54, 0x55, 0x53, 0x45, 0x52, 0x3E, 0x20, 0x32,
   0x20, 0x3C, 0x2F, 0x45, 0x44, 0x49, 0x54, 0x55, 0x53, 0x45, 0x52, 0x3E]
/-- The length of both marker texts (R7, R9). -/
@[simp, reducible] def markLen : Nat := 24
/-- The one byte index in which the two markers differ (R7). -/
@[simp, reducible] def markAt : Nat := 11
/-- The byte MARK_TO holds there: `2` (R7, R181). -/
@[simp, reducible] def markByte : Byte := 0x32

end Config

/-- The implementation parameters (R8): configuration, not state (R36). -/
structure Params where
  /-- IN_CAP: capacity of buffer IN in bytes; `none` is unbounded (D13). -/
  inCap : Option Nat
  /-- OUT_CAP: capacity of buffer OUT in bytes; `none` is unbounded (D13). -/
  outCap : Option Nat
  /-- PAD_FLAG_BITS: the value of the flag bits above the last token of a short final chunk (D5). -/
  padFlagBits : Bool
  /-- SUBST_ON_TRUNC: whether Subst runs when DECOMPRESS ends TRUNCATED or ERR_EXHAUSTED (D8). -/
  substOnTrunc : Bool
  /-- CLIP_AT_ULEN: whether a Match copy is cut when `olen` reaches `ulen` (D9). -/
  clipAtUlen : Bool
  /-- STRICT_MAGIC: whether a magic mismatch is ERR_HEADER (D10). -/
  strictMagic : Bool
  deriving DecidableEq, Repr

/-- The defaults of R8: unbounded buffers, padding 0, no substitution on a truncated path, no clipping, strict magics.
`exec` and `step` are the block with these (log entry 10). -/
@[simp, reducible] def Params.default : Params :=
  { inCap := none, outCap := none, padFlagBits := false, substOnTrunc := false, clipAtUlen := false, strictMagic := true }

end Sys2Proof
end

