-- ==== Sys2Proof/Syntax.lean ====
section
/-! DEFINITION. The instructions of the block: one constructor per row of the opcode table (R93). -/

namespace Sys2Proof

/-- The rows of the opcode table (R93): the stored format's four objects and the three host commands. -/
inductive Instr where
  /-- HEADER (R81): the 16-byte container header; its only free field is `uncompressed_length`. -/
  | header (ulen : Word32)
  /-- FLAG (R83): the flag byte that opens a chunk; bit `t` is 1 for a Literal, 0 for a Match. -/
  | flag (f : Byte)
  /-- LIT (R84): the token `Literal(b)`. -/
  | lit (b : Byte)
  /-- MATCH (R85): the token `Match(off, len)`, `off` an absolute window slot; the ranges are `Instr.wf`'s. -/
  | matchTok (off len : Nat)
  /-- CMD.CLEAR (R92): the host wrote 0x00 to CMD. -/
  | cmdClear
  /-- CMD.COMPRESS (R92): the host wrote 0x01 to CMD. -/
  | cmdCompress
  /-- CMD.DECOMPRESS (R92): the host wrote 0x02 to CMD. -/
  | cmdDecompress
  deriving DecidableEq, Repr

end Sys2Proof
end

