-- ==== Sys2Proof/WellFormed.lean ====
section
/-! DEFINITION. Which instructions are well formed: the ranges R14 and R125 give a Match token; every other operand's
type is its range. -/

namespace Sys2Proof

/-- `offset` in 0..1023 (R14, R125). -/
def offsetOk (off : Nat) : Bool := decide (off ≤ Config.offMax)

/-- `length` in 3..66 (R14, R125). -/
def lengthOk (len : Nat) : Bool := decide (Config.minMatch ≤ len) && decide (len ≤ Config.maxMatch)

/-- An instruction every field of which lies in the range its encoding holds (R14, R89). -/
def Instr.wf : Instr → Bool
  | .header _ => true
  | .flag _ => true
  | .lit _ => true
  | .matchTok off len => offsetOk off && lengthOk len
  | .cmdClear => true
  | .cmdCompress => true
  | .cmdDecompress => true

end Sys2Proof
end

