-- ==== Sys2Proof/Decode.lean ====
section
/-! DEFINITION. The decoder, total on any bytes and rejecting by name, and after it the encoder: the formats of R81, R83,
R84, R85, R86 and R92. A byte carries no tag: which format applies is decided by its position alone (R87, R93). -/

namespace Sys2Proof

/-! ## Byte order (R11, R51) -/

/-- `be32` (R11): a 4-byte big-endian integer. -/
def be32 (b0 b1 b2 b3 : Byte) : Word32 :=
  BitVec.ofNat 32 (b0.toNat * 2 ^ 24 + b1.toNat * 2 ^ 16 + b2.toNat * 2 ^ 8 + b3.toNat)

/-- `BE32` (R11): the four bytes of a 32-bit value, most significant first. -/
def bytesBE32 (v : Word32) : List Byte :=
  [v.extractLsb' 24 8, v.extractLsb' 16 8, v.extractLsb' 8 8, v.extractLsb' 0 8]

/-- The big-endian field at bytes `4k .. 4k+3` of a header (R51 item 1, R81). -/
def headerField (bs : List Byte) (k : Nat) : Word32 :=
  be32 (bs.getD (4 * k) 0) (bs.getD (4 * k + 1) 0) (bs.getD (4 * k + 2) 0) (bs.getD (4 * k + 3) 0)

/-! ## Operand assembly of a MATCH (R86) -/

/-- `offset = b0 | ((b1 & 0xC0) << 2)` (R86). -/
def matchOffset (b0 b1 : Byte) : Nat := b0.toNat ||| ((b1.toNat &&& 0xC0) <<< 2)

/-- `length = (b1 & 0x3F) + 3` (R86). -/
def matchLength (b1 : Byte) : Nat := (b1.toNat &&& 0x3F) + 3

/-! ## The decoder -/

/-- Where the next bytes stand, which alone selects the format (R93). -/
inductive Position where
  /-- A value the host wrote to CMD (R92). -/
  | command
  /-- Container bytes 0..15 (R81). -/
  | header
  /-- The first byte of a chunk (R83). -/
  | flag
  /-- A token whose flag bit is 1 (R84). -/
  | literal
  /-- A token whose flag bit is 0 (R85). -/
  | matchTok
  deriving DecidableEq, Repr

/-- Why bytes are no instruction at their position. -/
inductive DecodeError where
  /-- No CMD value to read. -/
  | noCommand
  /-- A CMD value 0x03..0xFF: ignored (R92). -/
  | ignoredCommand (v : Byte)
  /-- Fewer than 16 bytes (R88). -/
  | shortHeader
  /-- `magic_a` is not 1 (R88). -/
  | badMagicA
  /-- `magic_b` is not 8 (R88). -/
  | badMagicB
  /-- `magic_c` is not 1 (R88). -/
  | badMagicC
  /-- The payload has ended where a flag byte is needed (R178). -/
  | noFlagByte
  /-- The payload has ended where a Literal byte is needed (R178). -/
  | noLiteralByte
  /-- Fewer than 2 bytes remain for a Match (R123). -/
  | shortMatch
  deriving DecidableEq, Repr

/-- A CMD value (R92). -/
def decodeCommand : List Byte → Except DecodeError (Instr × List Byte)
  | [] => .error .noCommand
  | v :: rest =>
    if v = 0x00 then .ok (.cmdClear, rest)
    else if v = 0x01 then .ok (.cmdCompress, rest)
    else if v = 0x02 then .ok (.cmdDecompress, rest)
    else .error (.ignoredCommand v)

/-- A header (R81), in the order R171 tests it: the length, then the three magics (only with STRICT_MAGIC, R202). -/
def decodeHeader (p : Params) (bs : List Byte) : Except DecodeError (Instr × List Byte) :=
  if bs.length < Config.hdrLen then .error .shortHeader
  else if p.strictMagic && headerField bs 0 != Config.magicA then .error .badMagicA
  else if p.strictMagic && headerField bs 1 != Config.magicB then .error .badMagicB
  else if p.strictMagic && headerField bs 3 != Config.magicC then .error .badMagicC
  else .ok (.header (headerField bs 2), bs.drop Config.hdrLen)

/-- A flag byte: any value (R89). -/
def decodeFlag : List Byte → Except DecodeError (Instr × List Byte)
  | [] => .error .noFlagByte
  | f :: rest => .ok (.flag f, rest)

/-- DecToken, Literal arm (R122). -/
def decodeLiteral : List Byte → Except DecodeError (Instr × List Byte)
  | [] => .error .noLiteralByte
  | b :: rest => .ok (.lit b, rest)

/-- DecToken, Match arm (R123): any two bytes (R89), or the truncated-input condition. -/
def decodeMatch : List Byte → Except DecodeError (Instr × List Byte)
  | b0 :: b1 :: rest => .ok (.matchTok (matchOffset b0 b1) (matchLength b1), rest)
  | _ => .error .shortMatch

/-- The decoder: the instruction at a position and the bytes after it. -/
def decode (p : Params) (pos : Position) (bs : List Byte) : Except DecodeError (Instr × List Byte) :=
  match pos with
  | .command => decodeCommand bs
  | .header => decodeHeader p bs
  | .flag => decodeFlag bs
  | .literal => decodeLiteral bs
  | .matchTok => decodeMatch bs

/-! ## The opcode table's words

The table numbers an instruction's bits as one word whose most significant byte is the first byte in the stream
(HEADER: "byte 0 most significant"; MATCH: "byte0 first in the stream, shown as the high byte"). -/

/-- The bytes, first in the stream first, of the table's word of `nbits` bits (log entry 2). -/
def tableBytes (nbits w : Nat) : List Byte :=
  (List.range (nbits / 8)).map fun k => BitVec.ofNat 8 (w >>> (nbits - 8 * (k + 1)))

/-- The position a table word is read at. DESIGN CHOICE (log entry 2): the table tells CMD, FLAG and LIT apart by position
only, so a byte that is a CMD value of R92 is read as that command and any other byte as a FLAG, never as a LIT. -/
def tablePosition (nbits w : Nat) : Option Position :=
  if nbits = 128 then some .header
  else if nbits = 16 then some .matchTok
  else if nbits = 8 then (if w % 256 < 3 then some .command else some .flag)
  else none

/-- The instruction the decoder reads from a table word, with R8's default parameters. -/
def decodeTableWord (nbits w : Nat) : Option Instr :=
  match tablePosition nbits w with
  | none => none
  | some pos =>
    match decode Params.default pos (tableBytes nbits w) with
    | .ok (i, []) => some i
    | _ => none

/-! ## The encoder -/

/-- The flag bit and the one byte of `Literal(b)`: EncLit (R120). -/
def encLit (b : Byte) : Bool × List Byte := (true, [b])

/-- `byte0 = off & 0xFF`, `byte1 = ((off >> 2) & 0xC0) | (len - 3)` (R85). -/
def matchBytes (off len : Nat) : List Byte :=
  [BitVec.ofNat 8 (off &&& 0xFF), BitVec.ofNat 8 (((off >>> 2) &&& 0xC0) ||| (len - 3))]

/-- EncMatch (R121): the flag bit and two bytes of `Match(off, len)`; `none` is `raise ERR_ASSERT` (R125). -/
def encMatch (off len : Nat) : Option (Bool × List Byte) :=
  if offsetOk off && lengthOk len then some (false, matchBytes off len) else none

/-- The 16 bytes of a header (R81, R141). -/
def headerBytes (ulen : Word32) : List Byte :=
  bytesBE32 Config.magicA ++ bytesBE32 Config.magicB ++ bytesBE32 ulen ++ bytesBE32 Config.magicC

/-- The bytes of a well-formed instruction (R81, R83, R84, R85, R92). -/
def encode : Instr → List Byte
  | .header ulen => headerBytes ulen
  | .flag f => [f]
  | .lit b => (encLit b).2
  | .matchTok off len => matchBytes off len
  | .cmdClear => [0x00]
  | .cmdCompress => [0x01]
  | .cmdDecompress => [0x02]

/-- The position an instruction stands at (R93). -/
def Instr.position : Instr → Position
  | .header _ => .header
  | .flag _ => .flag
  | .lit _ => .literal
  | .matchTok _ _ => .matchTok
  | .cmdClear => .command
  | .cmdCompress => .command
  | .cmdDecompress => .command

end Sys2Proof
end

