-- ==== Sys2Proof/Machine/State.lean ====
section
/-! DEFINITION. The state of one block instance (R20), as plain data, its reset value (R35, R230), and the reasons a
step can stop. -/

namespace Sys2Proof.Machine

/-- A byte-addressed space (R50): the bytes that differ from 0x00, addresses strictly rising (`Memory.wf`). What an
address not listed reads as is `Memory.blank`. -/
abbrev Memory := List Host.Cell

/-- STATUS.PHASE (R32); its value 3 is never produced. -/
inductive Phase where
  /-- No operation since reset or since CMD 0x00. -/
  | idle
  /-- An operation is running. -/
  | busy
  /-- The last operation ended. -/
  | finished
  deriving DecidableEq, Repr

/-- STATUS.OP (R32): the current or last operation. -/
inductive Op where
  | compress
  | decompress
  deriving DecidableEq, Repr

/-- STATUS.CODE (R32, R200); its values 6 to 15 are never produced. -/
inductive Code where
  | ok
  | truncated
  | errHeader
  | errExhausted
  | errAssert
  | refused
  deriving DecidableEq, Repr

/-- The place of the sequencer in the pseudocode of COMPRESS (R140, R142) and DECOMPRESS (R170). The MODEL's own field:
the spec implies it by its program order (log entry 14). -/
inductive Stage where
  /-- Before HeaderEmit or HeaderParse. -/
  | header
  /-- At the test of the chunk loop, between chunks. -/
  | chunk
  /-- Inside a chunk, before its next token (or, for COMPRESS, before ChunkFlush). -/
  | token
  deriving DecidableEq, Repr

/-- The scratch of one match search (R28): it exists only while a search runs. -/
structure Search where
  /-- `H`: the hypothetical window. -/
  hyp : Memory
  /-- `C`: the candidate slots, in scan order. -/
  cands : List Nat
  /-- `L`: the match length confirmed so far. -/
  len : Nat
  deriving DecidableEq, Repr

/-- What the world outside the block can do to it (R230, R232), one entry a move. -/
inductive HostEvent where
  /-- The host writes `v` to register CMD (R31). -/
  | writeCmd (v : Byte)
  /-- The host writes one byte of buffer IN (R50). -/
  | writeIn (a : Nat) (v : Byte)
  /-- The host writes register IN_LEN (R31). -/
  | writeInLen (n : Word32)
  /-- The environment asserts the hardware reset (R230). -/
  | reset
  /-- The host makes no move during one step of the block. -/
  | pause
  /-- The host waits, reading STATUS again, until PHASE is not BUSY (R232 steps 1 and 4). -/
  | await
  deriving DecidableEq, Repr

/-- The state of one block instance (R20). -/
structure State where
  /-- `W[0..1023]`, the sliding window (R21). -/
  win : Memory
  /-- `cur`, the write cursor (R22). -/
  cur : Slot
  /-- `IN`, the input buffer (R24). -/
  inp : Memory
  /-- `IN_LEN` (R24, R31). -/
  inLen : Word32
  /-- `OUT`, the output buffer (R25). -/
  out : Memory
  /-- `OUT_LEN`; 33 bits, "a model should use a natural number" (R25). -/
  outLen : Nat
  /-- `di`, the encoder's input pointer (R26). -/
  di : Nat
  /-- `flags`, the flag byte being built or executed (R27, R29). -/
  flags : Byte
  /-- `tcnt`, the tokens already in the chunk being built (R27). -/
  tcnt : Nat
  /-- `tokbuf`, the staged token bytes (R27). -/
  tokbuf : Memory
  /-- `tblen`, the number of valid bytes in `tokbuf` (R27). -/
  tblen : Nat
  /-- `H`, `C`, `L`: the match-search scratch; `none` outside a search (R28, R35). -/
  search : Option Search
  /-- `pp`, the payload pointer (R29). -/
  pp : Nat
  /-- `ulen`, the header's `uncompressed_length` (R29). -/
  ulen : Word32
  /-- `olen`, the bytes appended by DECOMPRESS so far (R29). -/
  olen : Nat
  /-- `t`, the next flag bit to examine (R29). -/
  t : Nat
  /-- `off`, the current Match's offset (R29). -/
  off : Slot
  /-- `mlen`, the current Match's length (R29). -/
  mlen : Nat
  /-- `i`, the current Match's copy index (R29). -/
  i : Nat
  /-- CMD as the block reads it (R31): a value the host has written and the sequencer has not yet taken. -/
  cmd : Option Byte
  /-- STATUS.PHASE (R32). -/
  phase : Phase
  /-- STATUS.OP (R32). -/
  op : Op
  /-- STATUS.CODE (R32). -/
  code : Code
  /-- `ULEN`, the host register (R31). -/
  ulenReg : Word32
  /-- The sequencer's place in the operation (log entry 14; the MODEL's own field). -/
  stage : Stage
  /-- The moves the outside world has yet to make, first first (log entry 4; the MODEL's own field). -/
  host : List HostEvent
  deriving DecidableEq, Repr

/-- Why the machine stops without a next state. No instruction of a running operation reaches one of these. -/
inductive Fault where
  /-- The host wrote IN or IN_LEN while BUSY: unspecified (R241, U9). Raised by `hostMove`. Safe. -/
  | hostWriteWhileBusy
  /-- The host wrote an IN address that no IN_LEN can cover, or beyond IN_CAP. Raised by `hostMove`. Safe. -/
  | noSuchInAddress
  /-- A token to commit reaches past IN_LEN, against the preconditions of R150 and R151. Raised by the encoder arms of
  `execLit` and `execMatch`; the sequencer never chooses such a token. Safe. -/
  | inReadBeyondLength
  /-- A ninth token, or more than 16 staged bytes, in one chunk (R27, R152). Raised by the encoder arms of `execLit`,
  `execMatch` and `execFlag`; the sequencer flushes a full chunk first. Safe. -/
  | chunkStagingFull
  deriving DecidableEq, Repr

/-- Why the machine gives no meaning. -/
inductive Refusal where
  /-- An instruction that has no meaning yet: raised by `exec` only. Safe. -/
  | notModelled (mnemonic : String)
  /-- "an IN_LEN above IN_CAP cannot be loaded at all" (R205). Raised by `hostMove`, only with a finite IN_CAP. Safe. -/
  | inLenAboveInCap
  deriving DecidableEq, Repr

/-- The state right after hardware reset (R35, R230): PHASE = IDLE, OP = 0, CODE = 0, OUT empty, OUT_LEN = 0, ULEN = 0,
CMD reads 0. DESIGN CHOICE (log entry 5): every register R35 calls unspecified holds zero. -/
def State.reset : State :=
  { win := [], cur := 0, inp := [], inLen := 0, out := [], outLen := 0,
    di := 0, flags := 0, tcnt := 0, tokbuf := [], tblen := 0, search := none,
    pp := 0, ulen := 0, olen := 0, t := 0, off := 0, mlen := 0, i := 0,
    cmd := none, phase := .idle, op := .compress, code := .ok, ulenReg := 0,
    stage := .header, host := [] }

end Sys2Proof.Machine
end

