-- ==== Sys2Proof/Machine/Ops.lean ====
section
/-! DEFINITION. The named operations over the three memory spaces and the registers: byte access (R12, R53), the window
(R110 to R112), appending to OUT (R12), the start of an operation (R231), its end (R13, R209: the block's "trap entry"),
CLEAR (R31), the hardware reset (R230) and the marker substitution (R181). -/

namespace Sys2Proof.Machine

/-! ## Byte-addressed spaces -/

/-- What an address that holds no listed byte reads as. WIN: 0x00 by R21. IN and `tokbuf`: DESIGN CHOICE (log entry 6).
OUT: never read there. -/
@[reducible] def Memory.blank : Byte := 0x00

/-- `MemRead(space, a, 1)` (R12). -/
def Memory.read : Memory → Nat → Byte
  | [], _ => Memory.blank
  | c :: m, a => if a = c.1 then c.2 else Memory.read m a

/-- A listed byte at the front, or nothing when it is the blank one: keeps the canonical form. -/
def Memory.cell (a : Nat) (v : Byte) (m : Memory) : Memory :=
  if v = Memory.blank then m else (a, v) :: m

/-- `MemWrite(space, a, 1, v)` (R12). -/
def Memory.write : Memory → Nat → Byte → Memory
  | [], a, v => Memory.cell a v []
  | c :: m, a, v =>
    if a < c.1 then Memory.cell a v (c :: m)
    else if a = c.1 then Memory.cell a v m
    else c :: Memory.write m a v

/-- The canonical form: addresses strictly rising, no entry equal to what an unlisted address reads as. -/
abbrev Memory.wf (m : Memory) : Prop :=
  m.Pairwise (fun x y => x.1 < y.1) ∧ ∀ c ∈ m, c.2 ≠ Memory.blank

/-- Successive bytes written at rising addresses (R53). -/
def Memory.writeSeq (m : Memory) (a : Nat) : List Byte → Memory
  | [] => m
  | b :: bs => Memory.writeSeq (m.write a b) (a + 1) bs

/-- The `k` bytes from address `a` on. -/
def Memory.slice (m : Memory) (a k : Nat) : List Byte :=
  (List.range k).map fun j => m.read (a + j)

/-! ## The sliding window -/

/-- WinInit (R110). -/
def winInit (s : State) : State :=
  { s with win := [], cur := BitVec.ofNat 10 Config.curInit }

/-- WinWrite(b) (R111): the cursor before the write, and the state after it. -/
def winWrite (b : Byte) (s : State) : Slot × State :=
  (s.cur, { s with win := s.win.write s.cur.toNat b, cur := s.cur + 1 })

/-- WinWrite for its effect alone: no rule uses the returned index (R111). -/
def putWin (b : Byte) (s : State) : State := (winWrite b s).2

/-- A run of WinWrite calls (R114). -/
def putWinSeq : List Byte → State → State
  | [], s => s
  | b :: bs, s => putWinSeq bs (putWin b s)

/-- WinRead(a) (R112): any integer index, reduced modulo 1024. -/
def winRead (a : Int) (s : State) : Byte :=
  s.win.read (a % (Config.winSize : Int)).toNat

/-! ## IN and OUT -/

/-- `IN_LEN` as a number (`len` in the encoder's rules, `n` in the decoder's). -/
def State.inCount (s : State) : Nat := s.inLen.toNat

/-- `IN[a]` (R12). -/
def State.inAt (s : State) (a : Nat) : Byte := s.inp.read a

/-- `emit(v)` (R12): append one byte to OUT. -/
def emit (v : Byte) (s : State) : State :=
  { s with out := s.out.write s.outLen v, outLen := s.outLen + 1 }

/-- `emit(S)` (R12): the bytes of a sequence in order. -/
def emitSeq : List Byte → State → State
  | [], s => s
  | b :: bs, s => emitSeq bs (emit b s)

/-! ## Starting and ending an operation -/

/-- Start-of-operation initialisation, one indivisible step (R231). DESIGN CHOICE (log entry 23): the registers R35 leaves
unspecified at START (`tokbuf`, `pp`, `ulen`, `t`, `off`, `mlen`, `i`) keep what they held. -/
def startOp (o : Op) (s : State) : State :=
  { winInit s with
    phase := .busy, op := o, code := .ok,
    out := [], outLen := 0, olen := 0, ulenReg := 0,
    di := 0, flags := 0, tcnt := 0, tblen := 0,
    search := none, stage := .header }

/-- `finish(CODE)` (R13, R209): CODE and PHASE are written, and nothing else changes. -/
def finish (c : Code) (s : State) : State :=
  { s with phase := .finished, code := c }

/-- Whether `OUT[p .. p+24)` is MARK_FROM (R181). -/
def markerAt (m : Memory) (p : Nat) : Bool :=
  m.slice p Config.markLen == Config.markFrom

/-- The scan of Subst: `k` positions from `p` on, ascending (R181). -/
def substScan : Nat → Nat → Memory → Memory
  | 0, _, m => m
  | k + 1, p, m =>
    substScan k (p + 1) (if markerAt m p then m.write (p + Config.markAt) Config.markByte else m)

/-- Subst (R181): positions `0 .. olen - 24`, none when `olen < 24`. It touches OUT alone (R182). -/
def subst (s : State) : State :=
  { s with out := substScan (s.olen + 1 - Config.markLen) 0 s.out }

/-- The normal end of DECOMPRESS (R170). -/
def complete (s : State) : State := finish .ok (subst s)

/-- An operation ended by a condition of its payload, TRUNCATED (R177) or ERR_EXHAUSTED (R178): Subst runs only with
SUBST_ON_TRUNC (R8, D8). -/
def endEarly (p : Params) (c : Code) (s : State) : State :=
  finish c (if p.substOnTrunc then subst s else s)

/-- The code DECOMPRESS ends with when the bytes at hand are no instruction: ERR_HEADER (R171), ERR_EXHAUSTED (R178) or
TRUNCATED (R177). A CMD value that is no command raises nothing (R92). -/
def stopCode : DecodeError → Option Code
  | .shortHeader => some .errHeader
  | .badMagicA => some .errHeader
  | .badMagicB => some .errHeader
  | .badMagicC => some .errHeader
  | .noFlagByte => some .errExhausted
  | .noLiteralByte => some .errExhausted
  | .shortMatch => some .truncated
  | .noCommand => none
  | .ignoredCommand _ => none

/-- The end of an operation whose bytes are no instruction: ERR_HEADER leaves OUT as it is (R171), the two conditions of
the payload go through `endEarly`. -/
def stopOn (p : Params) (e : DecodeError) (s : State) : State :=
  match stopCode e with
  | none => s
  | some .errHeader => finish .errHeader s
  | some c => endEarly p c s

/-- CLEAR (R31): back to IDLE, "it clears STATUS.CODE, OUT_LEN and ULEN to 0, which makes OUT empty, and changes nothing
else". -/
def clear (s : State) : State :=
  { s with phase := .idle, code := .ok, out := [], outLen := 0, ulenReg := 0 }

/-- The hardware reset (R230), in any phase; the moves the outside world has yet to make stay. The values of the state
R230 calls unspecified are those of `State.reset` (log entry 7). -/
def hardReset (s : State) : State := { State.reset with host := s.host }

/-! ## Capacity (R205) -/

/-- Whether `need` bytes may exceed a finite capacity. -/
def exceeds (cap : Option Nat) (need : Nat) : Bool :=
  match cap with
  | none => false
  | some c => decide (c < need)

/-- The worst-case container size of COMPRESS: `16 + IN_LEN + ceil(IN_LEN / 8)` (R155 item 5, R205). -/
def compressBound (n : Nat) : Nat := Config.hdrLen + n + (n + 7) / 8

/-- The greatest possible output of DECOMPRESS: `ulen + 65` (R179, R205). -/
def decompressBound (ulen : Nat) : Nat := ulen + 65

end Sys2Proof.Machine
end

