-- ==== Sys2Proof/Machine/Operands.lean ====
section
/-! DEFINITION. The operand forms: the bytes an instruction is fetched from (R29, R122, R123), the staged bytes of a chunk
(R27), the decoder's byte-serial copy (R175), and what the host reads (R31, R50, R241). -/

namespace Sys2Proof.Machine

/-! ## Fetching -/

/-- Up to `k` bytes of IN from index `a` on; an index at or beyond IN_LEN is never read (R55). -/
def inBytes (s : State) (a k : Nat) : List Byte :=
  s.inp.slice a (min k (s.inCount - a))

/-- The most bytes an instruction has at a position (R81, R87). -/
def Position.maxBytes : Position → Nat
  | .command => 1
  | .header => 16
  | .flag => 1
  | .literal => 1
  | .matchTok => 2

/-- The container bytes the decoder reads at a position: from byte 0 for the header, from `pp` for the payload. -/
def fetchBytes (pos : Position) (s : State) : List Byte :=
  match pos with
  | .header => inBytes s 0 (Position.maxBytes .header)
  | q => inBytes s s.pp (Position.maxBytes q)

/-- The instruction at a position of the container, or why there is none. -/
def fetch (p : Params) (pos : Position) (s : State) : Except DecodeError Instr :=
  match decode p pos (fetchBytes pos s) with
  | .ok (i, _) => .ok i
  | .error e => .error e

/-- The position of the token whose flag bit is `bit` (R83, R87). -/
def tokenPosition (bit : Bool) : Position := if bit then .literal else .matchTok

/-- DecToken(flag_bit, pp) (R122, R123): the token and the bytes consumed. -/
def decToken (bit : Bool) (s : State) : Except DecodeError (Instr × Nat) :=
  match fetch Params.default (tokenPosition bit) s with
  | .ok i => .ok (i, if bit then 1 else 2)
  | .error e => .error e

/-- Whether fewer than `k` payload bytes remain at `pp` (R123, R172, R174). -/
def payloadShort (k : Nat) (s : State) : Bool := decide (s.inCount - s.pp < k)

/-! ## The byte-serial copy of a Match (R175, R176, R233) -/

/-- One step `i` of the copy: read, append, write, in that order. -/
def copyStep (s : State) : State :=
  let b := winRead ((s.off.toNat : Int) + (s.i : Int)) s
  let s1 := emit b s
  putWin b { s1 with olen := s1.olen + 1, i := s1.i + 1 }

/-- The copy loop: `n` more steps; with CLIP_AT_ULEN it also stops when `olen` has reached `ulen` (R8, D9). -/
def copyLoop (p : Params) : Nat → State → State
  | 0, s => s
  | n + 1, s =>
    if p.clipAtUlen && decide (s.ulen.toNat ≤ s.olen) then s else copyLoop p n (copyStep s)

/-- The next bit of the flag byte (R170, R173): `t` counts on, and after bit 7 the chunk is over. -/
def nextBit (s : State) : State :=
  { s with t := s.t + 1, stage := if s.t + 1 < Config.chunkTokens then .token else .chunk }

/-! ## Chunk staging (R27, R142) -/

/-- Whether one more token of `k` bytes has a place in the chunk being built. -/
def stagingRoom (k : Nat) (s : State) : Bool :=
  decide (s.tcnt < Config.chunkTokens) && decide (s.tblen + k ≤ Config.tokbufSize)

/-- Whether a token of `k` input bytes lies inside the input (R150, R151). -/
def inputRoom (k : Nat) (s : State) : Bool := decide (s.di + k ≤ s.inCount)

/-- Put one encoded token into the chunk being built (R142): its flag bit, its bytes, the counters. -/
def stageToken (bit : Bool) (bs : List Byte) (s : State) : State :=
  { s with
    flags := if bit then s.flags ||| (1#8 <<< s.tcnt) else s.flags,
    tokbuf := s.tokbuf.writeSeq s.tblen bs,
    tblen := s.tblen + bs.length,
    tcnt := s.tcnt + 1 }

/-- CommitLit(b) (R150). -/
def commitLit (b : Byte) (s : State) : State :=
  let s1 := putWin b s
  { s1 with di := s1.di + 1 }

/-- CommitMatch(L) (R151): the next `L` input bytes go into the window. -/
def commitMatch (len : Nat) (s : State) : State :=
  let s1 := putWinSeq (s.inp.slice s.di len) s
  { s1 with di := s1.di + len }

/-! ## What the host reads (R31, R50, R241) -/

/-- The host registers (R31). -/
inductive HostReg where
  | cmd
  | status
  | inLen
  | outLen
  | ulen
  deriving DecidableEq, Repr

/-- The register numbers of R31 (labels, not bus addresses). -/
def HostReg.number : HostReg → Nat
  | .cmd => 0
  | .status => 1
  | .inLen => 2
  | .outLen => 3
  | .ulen => 4

/-- A byte of OUT as the host reads it: only while FINISHED, only below OUT_LEN (R25, R50). -/
def hostReadOut (a : Nat) (s : State) : Option Byte :=
  if s.phase = .finished ∧ a < s.outLen then some (s.out.read a) else none

end Sys2Proof.Machine
end

