-- ==== Sys2Proof/Machine/Flags.lean ====
section
/-! DEFINITION. The flag computations: the packing of STATUS (R32), the block's only flag register, the bits of a chunk's
flag byte (R83) and the host's reads of the registers (R31). -/

namespace Sys2Proof.Machine

/-! ## STATUS (R32) -/

/-- STATUS bits 1:0. -/
def Phase.bits : Phase → BitVec 2
  | .idle => 0
  | .busy => 1
  | .finished => 2

/-- STATUS bit 2. -/
def Op.bit : Op → BitVec 1
  | .compress => 0
  | .decompress => 1

/-- STATUS bits 7:4 (R200). -/
def Code.bits : Code → BitVec 4
  | .ok => 0
  | .truncated => 1
  | .errHeader => 2
  | .errExhausted => 3
  | .errAssert => 4
  | .refused => 5

/-- The register STATUS: CODE in 7:4, 0 in 3, OP in 2, PHASE in 1:0 (R32). -/
def statusByte (s : State) : Byte := s.code.bits ++ 0#1 ++ s.op.bit ++ s.phase.bits

/-- A read of a host register (R31); `none` where the spec gives the read no value: IN_LEN, OUT_LEN and ULEN while BUSY
(R31, R241). -/
def hostReadReg (r : HostReg) (s : State) : Option Nat :=
  match r with
  | .cmd => some 0
  | .status => some (statusByte s).toNat
  | .inLen => if s.phase = .busy then none else some s.inLen.toNat
  | .outLen => if s.phase = .busy then none else some s.outLen
  | .ulen => if s.phase = .busy then none else some s.ulenReg.toNat

/-! ## The flag byte of a chunk (R83) -/

/-- `flags[t]`: true is a Literal, false a Match. -/
def flagBit (f : Byte) (t : Nat) : Bool := f.getLsbD t

/-- The mask of the bits `m..7` that describe no token of a chunk of `m` tokens (R83). -/
def padMask (m : Nat) : Byte := 0xFF#8 <<< m

/-- The flag byte as ChunkFlush stores it: each unused bit takes PAD_FLAG_BITS (R8, R83, D5). -/
def paddedFlags (p : Params) (f : Byte) (m : Nat) : Byte :=
  if p.padFlagBits then f ||| padMask m else f

end Sys2Proof.Machine
end

