-- ==== Sys2Proof/Machine/Header.lean ====
section
/-! DEFINITION. The meaning of HEADER: HeaderParse while DECOMPRESS runs (R171), HeaderEmit while COMPRESS runs (R141);
and the choice between the two sides every stored object has. -/

namespace Sys2Proof.Machine

/-- A stored object is parsed by DECOMPRESS and emitted by COMPRESS. Outside a running operation the sequencer does
nothing (R13, R212; log entry 13). -/
def running (s : State) (onCompress onDecompress : Host.Outcome State Fault Refusal) :
    Host.Outcome State Fault Refusal :=
  match s.phase with
  | .busy =>
    match s.op with
    | .compress => onCompress
    | .decompress => onDecompress
  | _ => .next s

/-- HeaderParse once the magics are accepted (R171): `ulen` and ULEN take the field, `pp` becomes 16; then the capacity
test of R205. A container shorter than 16 bytes raises ERR_HEADER. -/
def headerParse (p : Params) (n : Word32) (s : State) : Host.Outcome State Fault Refusal :=
  if s.inCount < Config.hdrLen then .next (stopOn p .shortHeader s)
  else
    let s1 := { s with ulen := n, ulenReg := n, pp := Config.hdrLen, stage := .chunk }
    if exceeds p.outCap (decompressBound n.toNat) then .next (finish .refused s1) else .next s1

/-- HeaderEmit (R141), with COMPRESS's `ULEN <- len` before it (R140). DESIGN CHOICE (log entry 24): `n` need not be
IN_LEN. -/
def headerEmit (n : Word32) (s : State) : Host.Outcome State Fault Refusal :=
  .next { emitSeq (headerBytes n) s with ulenReg := n, stage := .chunk }

/-- HEADER under any parameters. -/
def meaningHeader (p : Params) (n : Word32) (s : State) : Host.Outcome State Fault Refusal :=
  running s (headerEmit n s) (headerParse p n s)

/-- HEADER (R171, R141). -/
def execHeader (n : Word32) (s : State) : Host.Outcome State Fault Refusal :=
  meaningHeader Params.default n s

end Sys2Proof.Machine
end

