-- ==== Sys2Proof/Machine/Chunk.lean ====
section
/-! DEFINITION. The meaning of FLAG: FlagFetch while DECOMPRESS runs (R172), ChunkFlush while COMPRESS runs (R152); and
the opening of a chunk by COMPRESS (R142). -/

namespace Sys2Proof.Machine

/-- FlagFetch (R172): `flags` takes the byte at `pp`, and the bit loop begins at bit 0 (R170); ERR_EXHAUSTED when the
payload has ended (R178). DESIGN CHOICE (log entry 24): R172's precondition `olen < ulen` is not tested here. -/
def flagFetch (p : Params) (f : Byte) (s : State) : Host.Outcome State Fault Refusal :=
  if payloadShort 1 s then .next (stopOn p .noFlagByte s)
  else .next { s with flags := f, pp := s.pp + 1, t := 0, stage := .token }

/-- ChunkFlush (R152): the flag byte, then the staged token bytes. DESIGN CHOICE (log entry 24): `tcnt` is not tested, so
against R152's precondition `1 <= tcnt <= 8` a chunk of no token emits a lone flag byte; and `f` need not be `flags`. -/
def chunkFlush (f : Byte) (s : State) : Host.Outcome State Fault Refusal :=
  if s.tblen ≤ Config.tokbufSize then
    .next { emitSeq (s.tokbuf.slice 0 s.tblen) (emit f s) with stage := .chunk }
  else .fault .chunkStagingFull

/-- The first line of ChunkBuild (R142): `flags`, `tcnt` and `tblen` are cleared. R27 counts `tokbuf` among the cleared
registers too; DESIGN CHOICE (log entry 22): its bytes, which no rule reads at or above `tblen` (U13), are kept. -/
def chunkBegin (s : State) : State :=
  { s with flags := 0, tcnt := 0, tblen := 0, stage := .token }

/-- FLAG under any parameters. -/
def meaningFlag (p : Params) (f : Byte) (s : State) : Host.Outcome State Fault Refusal :=
  running s (chunkFlush f s) (flagFetch p f s)

/-- FLAG (R172, R152). -/
def execFlag (f : Byte) (s : State) : Host.Outcome State Fault Refusal :=
  meaningFlag Params.default f s

end Sys2Proof.Machine
end

