-- ==== Sys2Proof/Machine/Literal.lean ====
section
/-! DEFINITION. The meaning of LIT: ExecLit while DECOMPRESS runs (R174), EncLit and CommitLit while COMPRESS runs (R120,
R142, R150). -/

namespace Sys2Proof.Machine

/-- ExecLit (R174): consume the byte, append it to OUT, write it into the window; ERR_EXHAUSTED when no byte remains. -/
def litDecode (p : Params) (b : Byte) (s : State) : Host.Outcome State Fault Refusal :=
  if payloadShort 1 s then .next (stopOn p .noLiteralByte s)
  else
    let s1 := emit b { s with pp := s.pp + 1 }
    .next (nextBit (putWin b { s1 with olen := s1.olen + 1 }))

/-- The Literal arm of ChunkBuild (R142): stage EncLit's bit and byte (R120), then CommitLit (R150). DESIGN CHOICE (log
entry 24): R150's precondition `b = IN[di]` is not tested, and any `b` is staged and committed. -/
def litEncode (b : Byte) (s : State) : Host.Outcome State Fault Refusal :=
  if !stagingRoom 1 s then .fault .chunkStagingFull
  else if !inputRoom 1 s then .fault .inReadBeyondLength
  else .next (commitLit b (stageToken (encLit b).1 (encLit b).2 s))

/-- LIT under any parameters. -/
def meaningLit (p : Params) (b : Byte) (s : State) : Host.Outcome State Fault Refusal :=
  running s (litEncode b s) (litDecode p b s)

/-- LIT (R174, R142, R150). -/
def execLit (b : Byte) (s : State) : Host.Outcome State Fault Refusal :=
  meaningLit Params.default b s

end Sys2Proof.Machine
end

