-- ==== Sys2Proof/Machine/MatchToken.lean ====
section
/-! DEFINITION. The meaning of MATCH: ExecMatch while DECOMPRESS runs (R175 to R177), EncMatch and CommitMatch while
COMPRESS runs (R121, R142, R151). -/

namespace Sys2Proof.Machine

/-- The registers of a Match as ExecMatch begins to copy (R175): both bytes consumed, `i` at 0. -/
def matchBegin (off len : Nat) (s : State) : State :=
  { s with pp := s.pp + 2, off := BitVec.ofNat 10 off, mlen := len, i := 0 }

/-- ExecMatch (R175): consume two bytes, then the byte-serial copy of `len` bytes; TRUNCATED when fewer than two remain
(R177), the dangling byte not consumed. -/
def matchDecode (p : Params) (off len : Nat) (s : State) : Host.Outcome State Fault Refusal :=
  if payloadShort 2 s then .next (stopOn p .shortMatch s)
  else .next (nextBit (copyLoop p len (matchBegin off len s)))

/-- The Match arm of ChunkBuild (R142): stage EncMatch's bytes (R121), then CommitMatch (R151). An operand out of range
raises ERR_ASSERT (R121, R125). -/
def matchEncode (off len : Nat) (s : State) : Host.Outcome State Fault Refusal :=
  match encMatch off len with
  | none => .next (finish .errAssert s)
  | some (bit, bs) =>
    if !stagingRoom 2 s then .fault .chunkStagingFull
    else if !inputRoom len s then .fault .inReadBeyondLength
    else .next (commitMatch len (stageToken bit bs s))

/-- MATCH under any parameters. -/
def meaningMatch (p : Params) (off len : Nat) (s : State) : Host.Outcome State Fault Refusal :=
  running s (matchEncode off len s) (matchDecode p off len s)

/-- MATCH (R175, R142, R151). -/
def execMatch (off len : Nat) (s : State) : Host.Outcome State Fault Refusal :=
  meaningMatch Params.default off len s

end Sys2Proof.Machine
end

