-- ==== Sys2Proof/Machine/Command.lean ====
section
/-! DEFINITION. The meanings of the host commands CLEAR, COMPRESS and DECOMPRESS (R31, R92): when each is accepted, and
what an accepted one does at once. The operation a START begins runs in the steps that follow (R232 step 3). -/

namespace Sys2Proof.Machine

/-- CMD.CLEAR (R31): accepted while FINISHED; otherwise ignored. -/
def meaningClear (s : State) : Host.Outcome State Fault Refusal :=
  match s.phase with
  | .finished => .next (clear s)
  | _ => .next s

/-- START COMPRESS (R31, R140): accepted while IDLE or FINISHED; the initialisation of R231, then the capacity test of
R205 "at START, before any byte is emitted". Ignored while BUSY. -/
def meaningCompress (p : Params) (s : State) : Host.Outcome State Fault Refusal :=
  match s.phase with
  | .busy => .next s
  | _ =>
    if exceeds p.outCap (compressBound s.inCount) then .next (finish .refused (startOp .compress s))
    else .next (startOp .compress s)

/-- START DECOMPRESS (R31, R170): accepted while IDLE or FINISHED; the initialisation of R231. Ignored while BUSY. -/
def meaningDecompress (s : State) : Host.Outcome State Fault Refusal :=
  match s.phase with
  | .busy => .next s
  | _ => .next (startOp .decompress s)

/-- CMD.CLEAR (R31). -/
def execClear (s : State) : Host.Outcome State Fault Refusal := meaningClear s

/-- CMD.COMPRESS (R140, R31, R231). -/
def execCompress (s : State) : Host.Outcome State Fault Refusal := meaningCompress Params.default s

/-- CMD.DECOMPRESS (R170, R31, R231). -/
def execDecompress (s : State) : Host.Outcome State Fault Refusal := meaningDecompress s

end Sys2Proof.Machine
end

