-- ==== Sys2Proof/Machine/Dispatch.lean ====
section
/-! DEFINITION. The dispatch: one arm per row of the opcode table. -/

namespace Sys2Proof.Machine

def exec (i : Instr) (s : State) : Host.Outcome State Fault Refusal :=
  match i with
  | .header n => Sys2Proof.Machine.execHeader n s
  | .flag f => Sys2Proof.Machine.execFlag f s
  | .lit b => Sys2Proof.Machine.execLit b s
  | .matchTok off len => Sys2Proof.Machine.execMatch off len s
  | .cmdClear => Sys2Proof.Machine.execClear s
  | .cmdCompress => Sys2Proof.Machine.execCompress s
  | .cmdDecompress => Sys2Proof.Machine.execDecompress s

end Sys2Proof.Machine
end

