-- ==== Sys2Proof/Machine/Variants.lean ====
section
/-! DEFINITION. The same instructions under any implementation parameters (R8). -/

namespace Sys2Proof.Machine

/-- `exec` with the parameters as an argument; `exec` is this at R8's defaults. -/
def execWith (p : Params) (i : Instr) (s : State) : Host.Outcome State Fault Refusal :=
  match i with
  | .header n => meaningHeader p n s
  | .flag f => meaningFlag p f s
  | .lit b => meaningLit p b s
  | .matchTok off len => meaningMatch p off len s
  | .cmdClear => meaningClear s
  | .cmdCompress => meaningCompress p s
  | .cmdDecompress => meaningDecompress s

end Sys2Proof.Machine
end

