-- ==== Sys2Proof/Machine/Search.lean ====
section
/-! DEFINITION. The encoder's match search: step by step with the hypothetical window (R144 to R147), and in closed form
(R148, R149); and TokenChoose (R143). None of it changes the window or the cursor (R234). -/

namespace Sys2Proof.Machine

/-- `len - di`: the input bytes not yet encoded. -/
def remaining (s : State) : Nat := s.inCount - s.di

/-- `maxL = min(66, len - di)` (R146). -/
def maxLen (s : State) : Nat := min Config.maxMatch (remaining s)

/-- Look-ahead byte `k`: `IN[di + k]` (R16). -/
def lookAhead (s : State) (k : Nat) : Byte := s.inAt (s.di + k)

/-- The slot at distance `d` from the cursor (R16). -/
def slotAt (s : State) (d : Nat) : Nat := (s.cur.toNat + d) % Config.winSize

/-- The distance of a slot from the cursor: `(c - cur) mod 1024` (R16). -/
def distance (s : State) (c : Nat) : Nat := (c + (Config.winSize - s.cur.toNat)) % Config.winSize

/-- The 1024 slots in scan order, oldest first (R16, R144). -/
def scanOrder (s : State) : List Nat := (List.range Config.winSize).map (slotAt s)

/-! ## Step by step -/

/-- The initial candidates `C0` (R144): the slots that hold the next input byte, in scan order. -/
def initialCands (s : State) : List Nat :=
  (scanOrder s).filter fun c => winRead (c : Int) s == lookAhead s 0

/-- The scratch as a search begins (R28, R149): `H` a copy of `W`, `C = C0`, nothing confirmed. -/
def searchBegin (s : State) : Search := { hyp := s.win, cands := initialCands s, len := 0 }

/-- `H` as look-ahead byte `L` is compared: bytes `0 .. L-1` hypothetically written (R145, R146, D6). The bytes before the
last are already there. -/
def hypWrite (s : State) (q : Search) : Memory :=
  match q.len with
  | 0 => q.hyp
  | k + 1 => q.hyp.write (slotAt s k) (lookAhead s k)

/-- The candidates still consistent with look-ahead byte `L`, order kept (R145, R146). -/
def narrow (s : State) (q : Search) : List Nat :=
  q.cands.filter fun c => (hypWrite s q).read ((c + q.len) % Config.winSize) == lookAhead s q.len

/-- One trial of the search (R149): the narrowed scratch, or `none` when `L = maxL` or no candidate survives. -/
def searchExtend (s : State) (q : Search) : Option Search :=
  if q.len < maxLen s then
    match narrow s q with
    | [] => none
    | c :: cs => some { hyp := hypWrite s q, cands := c :: cs, len := q.len + 1 }
  else none

/-- The token a finished search gives: the first surviving candidate and `L` (R147), or the Literal when `L < 3` (R143). -/
def searchToken (s : State) (q : Search) : Instr :=
  match q.cands with
  | [] => .lit (lookAhead s 0)
  | c :: _ => if q.len < Config.minMatch then .lit (lookAhead s 0) else .matchTok c q.len

/-! ## Closed form -/

/-- HRead(c, k) (R148): the value the decoder will find at the `k`-th source slot of candidate `c`. -/
def hRead (s : State) (c k : Nat) : Byte :=
  let j := distance s (c + k)
  if j < k then lookAhead s j else winRead ((c + k : Nat) : Int) s

/-- How many of the look-ahead bytes `k .. k+fuel-1` candidate `c` matches before its first mismatch. -/
def matchRun (s : State) (c : Nat) : Nat → Nat → Nat
  | 0, _ => 0
  | fuel + 1, k => if hRead s c k = lookAhead s k then matchRun s c fuel (k + 1) + 1 else 0

/-- `mlen(c)` (R149): the greatest `m <= maxL` with `HRead(c, k) = IN[di + k]` for all `k < m`. -/
def matchLen (s : State) (c : Nat) : Nat := matchRun s c (maxLen s) 0

/-- The first slot of a list with the greatest `mlen`, and that length. -/
def bestOf (s : State) : List Nat → Nat × Nat
  | [] => (0, 0)
  | c :: cs =>
    let r := bestOf s cs
    if r.2 ≤ matchLen s c then (c, matchLen s c) else r

/-- MatchSearch's closed-form result (R149): the greatest length, then the oldest slot; NONE below 3. -/
def matchSearch (s : State) : Option (Nat × Nat) :=
  let r := bestOf s (scanOrder s)
  if r.2 < Config.minMatch then none else some r

/-- TokenChoose (R143). -/
def tokenChoose (s : State) : Instr :=
  if remaining s ≤ 2 then .lit (lookAhead s 0)
  else
    match matchSearch s with
    | none => .lit (lookAhead s 0)
    | some (off, len) => .matchTok off len

end Sys2Proof.Machine
end

