-- ==== Sys2Proof/Machine/Sequencer.lean ====
section
/-! DEFINITION. The sequencer: which instruction runs next. DECOMPRESS fetches it from IN (R170, R173), COMPRESS chooses
it (R140, R142, R143), a command comes from CMD (R31, R92). `ex` is the instructions' meaning (`exec`, or `execWith p`). -/

namespace Sys2Proof.Machine

/-- Fetch at a position and run the instruction, or end on bytes that are none (R171, R177, R178). -/
def fetchRun (p : Params) (ex : Instr → State → Host.Outcome State Fault Refusal) (pos : Position) (s : State) :
    Host.Outcome State Fault Refusal :=
  match fetch p pos s with
  | .ok i => ex i s
  | .error e => .next (stopOn p e s)

/-- Whether the output is complete: `olen >= ulen`, which has priority over every payload condition (R173, R208). -/
def outputDone (s : State) : Bool := decide (s.ulen.toNat ≤ s.olen)

/-- One step of DECOMPRESS (R170). -/
def decompressStep (p : Params) (ex : Instr → State → Host.Outcome State Fault Refusal) (s : State) :
    Host.Outcome State Fault Refusal :=
  match s.stage with
  | .header => fetchRun p ex .header s
  | .chunk => if outputDone s then .next (complete s) else fetchRun p ex .flag s
  | .token => if outputDone s then .next (complete s) else fetchRun p ex (tokenPosition (flagBit s.flags s.t)) s

/-- Whether the chunk being built is over: eight tokens, or the input exhausted (R142 step 1). -/
def chunkOver (s : State) : Bool := decide (s.inCount ≤ s.di) || decide (Config.chunkTokens ≤ s.tcnt)

/-- One step inside a chunk being built (R142, R143): flush it, take a tail byte as a Literal, begin a search, try one
more length, or run the token the search found. -/
def chunkStep (p : Params) (ex : Instr → State → Host.Outcome State Fault Refusal) (s : State) :
    Host.Outcome State Fault Refusal :=
  if chunkOver s then ex (.flag (paddedFlags p s.flags s.tcnt)) s
  else
    match s.search with
    | none =>
      if remaining s ≤ 2 then ex (.lit (lookAhead s 0)) s
      else .next { s with search := some (searchBegin s) }
    | some q =>
      match searchExtend s q with
      | some q' => .next { s with search := some q' }
      | none => ex (searchToken s q) { s with search := none }

/-- One step of COMPRESS (R140). -/
def compressStep (p : Params) (ex : Instr → State → Host.Outcome State Fault Refusal) (s : State) :
    Host.Outcome State Fault Refusal :=
  match s.stage with
  | .header => ex (.header s.inLen) s
  | .chunk => if s.inCount ≤ s.di then .next (finish .ok s) else .next (chunkBegin s)
  | .token => chunkStep p ex s

/-- One step of the sequencer alone: nothing outside a running operation (R212). -/
def sequencerStep (p : Params) (ex : Instr → State → Host.Outcome State Fault Refusal) (s : State) :
    Host.Outcome State Fault Refusal :=
  match s.phase with
  | .busy =>
    match s.op with
    | .compress => compressStep p ex s
    | .decompress => decompressStep p ex s
  | _ => .next s

/-- The sequencer takes the value of CMD (R31, R92): a command runs, any other value is ignored. -/
def commandStep (p : Params) (ex : Instr → State → Host.Outcome State Fault Refusal) (v : Byte) (s : State) :
    Host.Outcome State Fault Refusal :=
  match decode p .command [v] with
  | .ok (i, _) => ex i s
  | .error _ => .next s

end Sys2Proof.Machine
end

