-- ==== Sys2Proof/Machine/HostPort.lean ====
section
/-! DEFINITION. The world outside the block (R230, R232, R241): what each of its moves does, and the interleaving of its
moves with the sequencer. -/

namespace Sys2Proof.Machine

/-- The addresses of IN a byte can be written to: those some IN_LEN covers (R24), within IN_CAP (R8, R205). -/
def inAddressOk (p : Params) (a : Nat) : Bool :=
  decide (a < 2 ^ 32 - 1) && !exceeds p.inCap (a + 1)

/-- One move of the outside world, already taken off the list. A CMD write while BUSY is ignored and changes no state
(R31); a write of IN or IN_LEN while BUSY is a fault of the host (R241, U9). -/
def hostMove (p : Params) (e : HostEvent) (s : State) : Host.Outcome State Fault Refusal :=
  match e with
  | .writeCmd v => if s.phase = .busy then .next s else .next { s with cmd := some v }
  | .writeIn a v =>
    if s.phase = .busy then .fault .hostWriteWhileBusy
    else if inAddressOk p a then .next { s with inp := s.inp.write a v }
    else .fault .noSuchInAddress
  | .writeInLen n =>
    if s.phase = .busy then .fault .hostWriteWhileBusy
    else if exceeds p.inCap n.toNat then .refused .inLenAboveInCap
    else .next { s with inLen := n }
  | .reset => .next (hardReset s)
  | .pause => .next s
  | .await => .next s

/-- Take the first move off the list. -/
def popHost (s : State) : State := { s with host := s.host.tail }

/-- One step with a move `e` at the head of the list: a pause lets the block step, a wait lets it step while BUSY and
stays at the head, any other move is made between two steps of the block. -/
def hostStep (p : Params) (ex : Instr → State → Host.Outcome State Fault Refusal) (e : HostEvent) (s : State) :
    Host.Outcome State Fault Refusal :=
  match e with
  | .pause => sequencerStep p ex (popHost s)
  | .await => if s.phase = .busy then sequencerStep p ex s else .next (popHost s)
  | e => hostMove p e (popHost s)

/-- One step of the whole: a value in CMD is taken first; then the next move of the outside world; with none left, the
sequencer steps alone (log entry 4). -/
def stepBy (p : Params) (ex : Instr → State → Host.Outcome State Fault Refusal) (s : State) :
    Host.Outcome State Fault Refusal :=
  match s.cmd with
  | some v => commandStep p ex v { s with cmd := none }
  | none =>
    match s.host with
    | [] => sequencerStep p ex s
    | e :: _ => hostStep p ex e s

/-- One step under any implementation parameters (R8). -/
def stepWith (p : Params) (s : State) : Host.Outcome State Fault Refusal := stepBy p (execWith p) s

/-- The moves by which a host loads an input (R232 step 2). -/
def loadMoves (bs : List Byte) : List HostEvent :=
  bs.mapIdx (fun k b => HostEvent.writeIn k b) ++ [.writeInLen (BitVec.ofNat 32 bs.length)]

/-! ## Placing one instruction where the next step fetches -/

/-- IN with `bs` at index `a`, IN_LEN at least up to their end. -/
def placeIn (a : Nat) (bs : List Byte) (s : State) : State :=
  { s with
    inp := s.inp.writeSeq a bs
    inLen := if s.inCount < a + bs.length then BitVec.ofNat 32 (a + bs.length) else s.inLen }

/-- DECOMPRESS running at a stage, with no move of the host and no command before its next step. -/
def runningAt (st : Stage) (s : State) : State :=
  { s with phase := .busy, op := .decompress, code := .ok, stage := st, cmd := none, host := [] }

/-- DECOMPRESS inside the payload, at its first byte (R29), with output still wanted. -/
def payloadAt (st : Stage) (s : State) : State :=
  let s1 := { runningAt st s with pp := Config.hdrLen }
  if s1.olen < s1.ulen.toNat then s1 else { s1 with olen := 0, ulen := 1 }

/-- The state whose next step fetches `bs` at a position (log entry 3): a command stands in CMD, container bytes stand in
IN, and the flag bit that selects a Match is 0. -/
def placeInstr (pos : Position) (bs : List Byte) (s : State) : State :=
  match pos with
  | .command => { s with cmd := bs.head? }
  | .header => placeIn 0 bs (runningAt .header s)
  | .flag => placeIn Config.hdrLen bs (payloadAt .chunk s)
  | .literal => let s1 := placeIn Config.hdrLen bs (payloadAt .token s); { s1 with flags := 0x01, t := 0 }
  | .matchTok => let s1 := placeIn Config.hdrLen bs (payloadAt .token s); { s1 with flags := 0x00, t := 0 }

end Sys2Proof.Machine
end

