-- ==== Sys2Proof/Machine/Step.lean ====
section
/-! DEFINITION. One step of the machine, with the default parameters of R8, and the placing of one instruction where the
next step fetches it. -/

namespace Sys2Proof.Machine

/-- One step (R57, R239). -/
def step (s : State) : Host.Outcome State Fault Refusal := stepBy Params.default exec s

/-- `s` with the table's word stored where the next step fetches (log entries 2 and 3); a word of a width the table does
not have changes nothing. -/
def State.withFetchWord (s : State) (nbits w : Nat) : State :=
  match tablePosition nbits w with
  | none => s
  | some pos => placeInstr pos (tableBytes nbits w) s

end Sys2Proof.Machine
end

