-- ==== Sys2Proof/Safety.lean ====
section
/-! DEFINITION. What counts as a good end of an operation (R200, R213), what a run is, and the invariant of the block. -/

namespace Sys2Proof.Machine

/-- How R213 classes the ways an operation can end. -/
inductive CodeClass where
  /-- A final state with a defined result: OK, TRUNCATED. -/
  | result
  /-- The spec's "fault": the operation failed, and STATUS says so. -/
  | fault
  /-- The spec's "refusal": the operation was not begun for want of capacity. -/
  | refusal
  deriving DecidableEq, Repr

/-- The class of each code (R200, R213). TRUNCATED is no fault (R201). -/
def Code.cls : Code → CodeClass
  | .ok => .result
  | .truncated => .result
  | .errHeader => .fault
  | .errExhausted => .fault
  | .errAssert => .fault
  | .refused => .refusal

/-- The block has ended an operation in one of the spec's faults. -/
def State.failed (s : State) : Bool := s.phase = .finished && s.code.cls = .fault

/-- The sequencer runs alone: no command waits in CMD and the outside world has no move to make. -/
def State.alone (s : State) : Bool := s.cmd.isNone && s.host.isEmpty

/-- `k` steps from `s` answer `s'`, without a fault or a refusal on the way. -/
def Reaches (k : Nat) (s s' : State) : Prop := Host.Core.run Sys2Proof.core k s = .next s'

/-- DECOMPRESS is running. -/
def State.decoding (s : State) : Prop := s.phase = .busy ∧ s.op = .decompress

/-- COMPRESS is running. -/
def State.encoding (s : State) : Prop := s.phase = .busy ∧ s.op = .compress

/-! ## The invariant -/

/-- Every space is in canonical form and lists only addresses the spec gives it (R50): WIN and the hypothetical window
below 1024, IN below every possible IN_LEN, OUT below OUT_LEN, `tokbuf` below 16. -/
def State.spacesOk (s : State) : Prop :=
  (s.win.wf ∧ ∀ c ∈ s.win, c.1 < Config.winSize) ∧
  (s.inp.wf ∧ ∀ c ∈ s.inp, c.1 < 2 ^ 32 - 1) ∧
  (s.out.wf ∧ ∀ c ∈ s.out, c.1 < s.outLen) ∧
  (s.tokbuf.wf ∧ ∀ c ∈ s.tokbuf, c.1 < Config.tokbufSize) ∧
  (∀ q, s.search = some q → q.hyp.wf ∧ ∀ c ∈ q.hyp, c.1 < Config.winSize)

/-- The counters stay in the ranges R37 gives them; the flag bits above the tokens already chosen are 0 while a chunk is
built (R142). -/
def State.countersOk (s : State) : Prop :=
  s.tcnt ≤ Config.chunkTokens ∧ s.tblen ≤ 2 * s.tcnt ∧ s.t ≤ Config.chunkTokens ∧
  s.mlen ≤ Config.maxMatch ∧ s.i ≤ s.mlen ∧
  (s.encoding → ∀ j, s.tcnt ≤ j → s.flags.getLsbD j = false)

/-- The window holds the last `min(k, 1024)` of the first `k` bytes of `src`, each in its slot, and every other slot is
still zero (R23). -/
def holdsLast (w src : Memory) (k : Nat) : Prop :=
  (∀ j, j < k → k ≤ j + Config.winSize → w.read ((Config.curInit + j) % Config.winSize) = src.read j) ∧
  (∀ j, k ≤ j → j < Config.winSize → w.read ((Config.curInit + j) % Config.winSize) = 0)

/-- While COMPRESS runs (R26, R155): the cursor and the window follow `di`; after HeaderEmit OUT begins with the header of
IN_LEN and ULEN is IN_LEN. A search has candidates in scan order and a length within its bound (R28, R146). -/
def State.encoderOk (s : State) : Prop :=
  (s.encoding →
    s.di ≤ s.inCount ∧ s.cur.toNat = (Config.curInit + s.di) % Config.winSize ∧ holdsLast s.win s.inp s.di ∧
    (s.stage = .header → s.di = 0 ∧ s.outLen = 0 ∧ s.tcnt = 0) ∧
    (s.stage ≠ .header →
      s.ulenReg = s.inLen ∧ Config.hdrLen ≤ s.outLen ∧ s.out.slice 0 Config.hdrLen = headerBytes s.inLen)) ∧
  (∀ q, s.search = some q →
    s.encoding ∧ s.stage = .token ∧ chunkOver s = false ∧ Config.minMatch ≤ remaining s ∧
    q.cands.Sublist (scanOrder s) ∧ q.len ≤ maxLen s)

/-- While DECOMPRESS runs (R25, R29, R184, R209): OUT_LEN is `olen`, the cursor and the window follow it, `pp` stays
inside the payload, and the output passes `ulen` by at most 65. -/
def State.decoderOk (s : State) : Prop :=
  s.decoding →
    s.outLen = s.olen ∧ s.cur.toNat = (Config.curInit + s.olen) % Config.winSize ∧ holdsLast s.win s.out s.olen ∧
    (s.stage = .header → s.olen = 0 ∧ s.ulenReg = 0) ∧
    (s.stage ≠ .header →
      Config.hdrLen ≤ s.pp ∧ s.pp ≤ s.inCount ∧ s.ulenReg = s.ulen ∧ s.olen ≤ s.ulen.toNat + 65) ∧
    (s.stage = .token → s.t < Config.chunkTokens)

/-- STATUS, OUT_LEN and ULEN agree outside and at the end of an operation (R31, R200): what IDLE reads; CODE 0 while BUSY;
what each code records. No operation ends ERR_ASSERT (R204). -/
def State.statusOk (s : State) : Prop :=
  (s.phase ≠ .finished → s.code = .ok) ∧
  (s.phase = .idle → s.outLen = 0 ∧ s.ulenReg = 0) ∧
  (s.phase = .busy → s.cmd = none) ∧
  s.code ≠ .errAssert ∧
  (s.phase = .finished → s.op = .compress →
    (s.code = .ok ∧ Config.hdrLen ≤ s.outLen ∧ s.out.slice 0 Config.hdrLen = headerBytes s.ulenReg) ∨
    (s.code = .refused ∧ s.outLen = 0)) ∧
  (s.phase = .finished → s.op = .decompress →
    (s.code = .ok ∧ s.ulenReg.toNat ≤ s.outLen ∧ s.outLen ≤ s.ulenReg.toNat + 65) ∨
    (s.code = .truncated ∧ s.outLen < s.ulenReg.toNat) ∨
    (s.code = .errExhausted ∧ s.outLen < s.ulenReg.toNat) ∨
    (s.code = .errHeader ∧ s.outLen = 0 ∧ s.ulenReg = 0) ∨
    (s.code = .refused ∧ s.outLen = 0))

/-- The invariant of the block. -/
def State.Inv (s : State) : Prop :=
  s.spacesOk ∧ s.countersOk ∧ s.encoderOk ∧ s.decoderOk ∧ s.statusOk

end Sys2Proof.Machine
end

