-- ==== Sys2Proof/Certificates/Slice0/Obligations.lean ====
section
/-! DEFINITION. The statements for the provers: what the numbered rules of the spec say the block does. -/

open Sys2Proof Sys2Proof.Machine

/-! ## Encodings -/

/-- Decoding the encoding of a well-formed instruction at its position gives it back, with whatever follows left over, under
any parameters (R81, R83, R84, R85, R86, R92). -/
def Obligations.EncodedInstructionDecodesToItself : Prop :=
  ∀ (p : Params) (i : Instr) (rest : List Byte), i.wf = true →
    decode p i.position (encode i ++ rest) = .ok (i, rest)

/-- Bytes that decode at a position are the encoding of a well-formed instruction of that position, and the rest (R87: the
length of an encoding is fixed by its position). Rests on the strict header check (spec decision D10, the default). -/
def Obligations.DecodedBytesEncodeBack : Prop :=
  ∀ (pos : Position) (bs : List Byte) (i : Instr) (rest : List Byte),
    decode Params.default pos bs = .ok (i, rest) →
      i.wf = true ∧ i.position = pos ∧ encode i ++ rest = bs

/-- R124 (the spec marks it as its own derivation): EncMatch and DecToken's Match arm are inverse bijections, and so are
EncLit and the Literal arm. -/
def Obligations.TokenCodecIsABijection : Prop :=
  (∀ off len : Nat, off ≤ 1023 → 3 ≤ len → len ≤ 66 →
    ∃ b0 b1 : Byte, encMatch off len = some (false, [b0, b1]) ∧
      decode Params.default .matchTok [b0, b1] = .ok (.matchTok off len, [])) ∧
  (∀ b0 b1 : Byte,
    decode Params.default .matchTok [b0, b1] = .ok (.matchTok (matchOffset b0 b1) (matchLength b1), []) ∧
    encMatch (matchOffset b0 b1) (matchLength b1) = some (false, [b0, b1])) ∧
  (∀ b : Byte, encLit b = (true, [b]) ∧ decode Params.default .literal [b] = .ok (.lit b, []))

/-- R84 and R85: a Literal is exactly its byte, with flag bit 1; a Match, with flag bit 0, is `off & 0xFF`, then
`((off >> 2) & 0xC0) | (len - 3)`, that is the offset's two high bits in bits 7:6 and `len - 3` in bits 5:0. -/
def Obligations.TokenBytesHoldTheirFields : Prop :=
  (∀ b : Byte, encode (.lit b) = [b] ∧ encLit b = (true, [b])) ∧
  (∀ off len : Nat, (Instr.matchTok off len).wf = true →
    ∃ b0 b1 : Byte, encode (.matchTok off len) = [b0, b1] ∧ encMatch off len = some (false, [b0, b1]) ∧
      b0.toNat = off % 256 ∧ b1.toNat / 64 = off / 256 ∧ b1.toNat % 64 = len - 3)

/-- EncMatch raises ERR_ASSERT exactly on an operand out of range (R121, R125). What the raise leaves of the state besides
STATUS is the model's choice (log entry 9), so nothing is said of it here. -/
def Obligations.OutOfRangeTokenRaisesAssert : Prop :=
  (∀ off len : Nat, encMatch off len = none ↔ ¬ (off ≤ 1023 ∧ 3 ≤ len ∧ len ≤ 66)) ∧
  (∀ (s : State) (off len : Nat), s.encoding → ¬ (off ≤ 1023 ∧ 3 ≤ len ∧ len ≤ 66) →
    ∃ t, exec (.matchTok off len) s = .next t ∧ t.code = .errAssert ∧ t.phase = .finished)

/-- Bytes decode as a header exactly when there are 16 and the three magics are 1, 8, 1; the field is bytes 8..11, big-endian
(R81, R88). -/
def Obligations.HeaderDecodesExactlyWithItsMagics : Prop :=
  ∀ (bs : List Byte) (n : Word32) (rest : List Byte),
    decode Params.default .header bs = .ok (.header n, rest) ↔
      16 ≤ bs.length ∧ rest = bs.drop 16 ∧ bs.take 4 = [0x00, 0x00, 0x00, 0x01] ∧
        (bs.drop 4).take 4 = [0x00, 0x00, 0x00, 0x08] ∧ (bs.drop 12).take 4 = [0x00, 0x00, 0x00, 0x01] ∧
        (bs.drop 8).take 4 = bytesBE32 n

/-- R89 (the spec's own derivation): every flag byte, every Literal byte and every pair of Match bytes is legal, and a decoded
Match is in range. -/
def Obligations.EveryTokenEncodingIsLegal : Prop :=
  ∀ (p : Params) (b b0 b1 : Byte) (rest : List Byte),
    decode p .flag (b :: rest) = .ok (.flag b, rest) ∧
    decode p .literal (b :: rest) = .ok (.lit b, rest) ∧
    ∃ off len, decode p .matchTok (b0 :: b1 :: rest) = .ok (.matchTok off len, rest) ∧
      off ≤ 1023 ∧ 3 ≤ len ∧ len ≤ 66

/-- Words written out from the spec's encodings decode to the instructions they stand for (R81, R83, R84, R85, R92). -/
def Obligations.WrittenOutWordsDecode : Prop :=
  decode Params.default .header
    [0x00, 0x00, 0x00, 0x01, 0x00, 0x00, 0x00, 0x08, 0x00, 0x00, 0x00, 0xC8, 0x00, 0x00, 0x00, 0x01] =
      .ok (.header 200, []) ∧
  decode Params.default .flag [0x07] = .ok (.flag 0x07, []) ∧
  decode Params.default .literal [0x41] = .ok (.lit 0x41, []) ∧
  decode Params.default .matchTok [0xBE, 0xC3] = .ok (.matchTok 958 6, []) ∧
  decode Params.default .matchTok [0x34, 0x92] = .ok (.matchTok 564 21, []) ∧
  decode Params.default .command [0x00] = .ok (.cmdClear, []) ∧
  decode Params.default .command [0x01] = .ok (.cmdCompress, []) ∧
  decode Params.default .command [0x02] = .ok (.cmdDecompress, [])

/-! ## One step runs one instruction -/

/-- A step of a running DECOMPRESS is `exec` of the instruction fetched at its place: HEADER at byte 0; while the output is
not complete, FLAG between chunks, and inside a chunk LIT or MATCH as bit `t` of the flag byte says (R83, R170, R173). A step
with a value in CMD is `exec` of the command it decodes to (R31, R92). -/
def Obligations.StepRunsTheDecodedInstruction : Prop :=
  (∀ (s : State) (i : Instr), s.alone = true → s.decoding → s.stage = .header →
    fetch Params.default .header s = .ok i → step s = exec i s) ∧
  (∀ (s : State) (i : Instr), s.alone = true → s.decoding → s.stage = .chunk → s.olen < s.ulen.toNat →
    fetch Params.default .flag s = .ok i → step s = exec i s) ∧
  (∀ (s : State) (i : Instr), s.alone = true → s.decoding → s.stage = .token → s.olen < s.ulen.toNat →
    fetch Params.default (if s.flags.getLsbD s.t then .literal else .matchTok) s = .ok i → step s = exec i s) ∧
  (∀ (s : State) (v : Byte) (i : Instr), s.cmd = some v → decode Params.default .command [v] = .ok (i, []) →
    step s = exec i { s with cmd := none })

/-- A step of a running COMPRESS is `exec` of the object it emits next: the header of IN_LEN first; inside a chunk the flag
byte once the chunk has eight tokens or the input is exhausted; before that a Literal when at most two bytes remain, and
otherwise the token a finished search gives (R140, R142, R143). Between chunks the operation ends or a chunk is opened; that
`tokbuf` keeps its bytes there is the model's choice (log entry 22). -/
def Obligations.StepRunsTheChosenInstruction : Prop :=
  ∀ s : State, s.alone = true → s.encoding →
    (s.stage = .header → step s = exec (.header s.inLen) s) ∧
    (s.stage = .chunk → s.inCount ≤ s.di → step s = .next (finish .ok s)) ∧
    (s.stage = .chunk → s.di < s.inCount →
      step s = .next { s with flags := 0, tcnt := 0, tblen := 0, stage := .token }) ∧
    (s.stage = .token → (s.inCount ≤ s.di ∨ 8 ≤ s.tcnt) → step s = exec (.flag s.flags) s) ∧
    (s.stage = .token → s.di < s.inCount → s.tcnt < 8 → s.search = none → s.inCount - s.di ≤ 2 →
      step s = exec (.lit (s.inAt s.di)) s) ∧
    (∀ q, s.stage = .token → s.di < s.inCount → s.tcnt < 8 → s.search = some q → searchExtend s q = none →
      step s = exec (searchToken s q) { s with search := none })

/-- An opcode-table word that decodes is fetched and run by the very next step after `withFetchWord` (log entries 2 and 3: the
placing is the model's). -/
def Obligations.PlacedTableWordIsRun : Prop :=
  ∀ (s : State) (nbits w : Nat) (i : Instr), s.inp.wf → decodeTableWord nbits w = some i →
    step (s.withFetchWord nbits w) = exec i { s.withFetchWord nbits w with cmd := none }

/-! ## The sliding window -/

/-- WinInit (R110): every slot reads 0x00, the cursor is 958, and nothing else changes. -/
def Obligations.WinInitZeroesTheWindow : Prop :=
  ∀ s : State,
    (∀ a : Int, winRead a (winInit s) = 0x00) ∧ (winInit s).cur = 958 ∧
    winInit s = { s with win := (winInit s).win, cur := (winInit s).cur }

/-- WinWrite (R111): it returns the cursor, stores the byte there, advances the cursor by 1 modulo 1024, and changes no other
slot and nothing else. -/
def Obligations.WinWriteStoresAtTheCursor : Prop :=
  ∀ (s : State) (b : Byte), s.win.wf →
    (winWrite b s).1 = s.cur ∧
    winRead s.cur.toNat (winWrite b s).2 = b ∧
    (winWrite b s).2.cur.toNat = (s.cur.toNat + 1) % 1024 ∧
    (∀ a : Int, a % 1024 ≠ (s.cur.toNat : Int) → winRead a (winWrite b s).2 = winRead a s) ∧
    (winWrite b s).2 = { s with win := (winWrite b s).2.win, cur := (winWrite b s).2.cur }

/-- WinRead (R112): any integer index is reduced modulo 1024; inside 0..1023 it is the stored byte; a slot not written since
WinInit reads 0x00. -/
def Obligations.WinReadReducesItsIndex : Prop :=
  ∀ s : State,
    (∀ a : Nat, a < 1024 → winRead a s = s.win.read a) ∧
    (∀ a k : Int, winRead (a + 1024 * k) s = winRead a s) ∧
    (∀ a : Int, winRead a (winInit s) = 0x00)

/-- A run of WinWrite calls (R114, the spec's own derivation from R111): byte `j` lies at slot `(c0 + j) mod 1024` unless a
later one of the run replaced it, the cursor ends at `(c0 + n) mod 1024`, and the slots the run does not reach are kept. -/
def Obligations.WriteRunFillsSlotsInOrder : Prop :=
  ∀ (s : State) (bs : List Byte), s.win.wf →
    (putWinSeq bs s).cur.toNat = (s.cur.toNat + bs.length) % 1024 ∧
    (∀ j, j < bs.length → bs.length ≤ j + 1024 →
      winRead ((s.cur.toNat + j : Nat) : Int) (putWinSeq bs s) = bs.getD j 0) ∧
    (∀ j, bs.length ≤ j → j < 1024 →
      winRead ((s.cur.toNat + j : Nat) : Int) (putWinSeq bs s) = winRead ((s.cur.toNat + j : Nat) : Int) s)

/-! ## Host commands, registers and reset -/

/-- CMD.CLEAR (R31, spec decision D3): from FINISHED it returns to IDLE, clears CODE, OUT_LEN and ULEN, empties OUT and
changes nothing else; in any other phase it is ignored. -/
def Obligations.ClearReturnsToIdle : Prop :=
  ∀ s : State,
    (s.phase = .finished →
      exec .cmdClear s =
        .next { s with phase := .idle, code := .ok, outLen := 0, ulenReg := 0, out := [] }) ∧
    (s.phase ≠ .finished → exec .cmdClear s = .next s)

/-- START COMPRESS and START DECOMPRESS (R31, R231, spec decisions D3 and D15): from IDLE or FINISHED the operation begins:
BUSY, OP, CODE 0, OUT empty, OUT_LEN, `olen` and ULEN 0, the window zeroed with the cursor at 958, `di`, `flags`, `tcnt` and
`tblen` 0; IN and IN_LEN are kept. That `tokbuf`, `pp`, `ulen`, `t`, `off`, `mlen` and `i` are kept, which R35 leaves
unspecified at START, is the model's choice (log entry 23), as are CMD and the host's moves (log entry 4). -/
def Obligations.StartInitialisesTheOperation : Prop :=
  ∀ (s : State) (o : Op), s.phase ≠ .busy →
    ∃ t, exec (match o with | .compress => .cmdCompress | .decompress => .cmdDecompress) s = .next t ∧
      t.phase = .busy ∧ t.op = o ∧ t.code = .ok ∧ t.out = [] ∧ t.outLen = 0 ∧ t.olen = 0 ∧ t.ulenReg = 0 ∧
      (∀ a : Int, winRead a t = 0x00) ∧ t.cur = 958 ∧ t.di = 0 ∧ t.flags = 0 ∧ t.tcnt = 0 ∧ t.tblen = 0 ∧
      t.inp = s.inp ∧ t.inLen = s.inLen ∧ t.tokbuf = s.tokbuf ∧ t.pp = s.pp ∧ t.ulen = s.ulen ∧ t.t = s.t ∧
      t.off = s.off ∧ t.mlen = s.mlen ∧ t.i = s.i ∧ t.cmd = s.cmd ∧ t.host = s.host

/-- What R31 says is ignored (spec decisions D3, D20): a command executed while BUSY, a CMD write while BUSY, and any CMD value
but 0x00, 0x01, 0x02 change no state. -/
def Obligations.IgnoredCommandsChangeNothing : Prop :=
  (∀ s : State, s.phase = .busy →
    exec .cmdClear s = .next s ∧ exec .cmdCompress s = .next s ∧ exec .cmdDecompress s = .next s) ∧
  (∀ (s : State) (v : Byte) (es : List HostEvent), s.phase = .busy → s.cmd = none → s.host = .writeCmd v :: es →
    step s = .next { s with host := es }) ∧
  (∀ (s : State) (v : Byte), s.cmd = some v → 3 ≤ v.toNat → step s = .next { s with cmd := none })

/-- The hardware reset (R230, spec decision D15), in any phase: IDLE, OP 0, CODE 0, OUT empty, OUT_LEN 0, ULEN 0, no value in
CMD, STATUS and CMD read 0. That the host's moves still to come stay is the model's choice (log entry 7). -/
def Obligations.HardwareResetFromAnyPhase : Prop :=
  ∀ (s : State) (es : List HostEvent), s.cmd = none → s.host = .reset :: es →
    ∃ t, step s = .next t ∧ t.phase = .idle ∧ t.op = .compress ∧ t.code = .ok ∧ t.out = [] ∧ t.outLen = 0 ∧
      t.ulenReg = 0 ∧ t.cmd = none ∧ hostReadReg .status t = some 0 ∧ hostReadReg .cmd t = some 0 ∧ t.host = es

/-- The host loads IN and IN_LEN outside an operation (R24, R232); doing so while BUSY is the host's fault (R241, U9; the
fault is the model's, log entry 12). A write of CMD outside an operation puts its value into CMD, whatever it is (R31, R232
step 3), where the next step takes it (log entry 4). -/
def Obligations.HostLoadsInputOnlyOutsideAnOperation : Prop :=
  ∀ (s : State) (es : List HostEvent) (a : Nat) (v : Byte) (n : Word32), s.cmd = none →
    (s.host = .writeIn a v :: es →
      (s.phase ≠ .busy → a < 2 ^ 32 - 1 → step s = .next { s with inp := s.inp.write a v, host := es }) ∧
      (s.phase = .busy → step s = .fault .hostWriteWhileBusy)) ∧
    (s.host = .writeInLen n :: es →
      (s.phase ≠ .busy → step s = .next { s with inLen := n, host := es }) ∧
      (s.phase = .busy → step s = .fault .hostWriteWhileBusy)) ∧
    (s.host = .writeCmd v :: es → s.phase ≠ .busy → step s = .next { s with cmd := some v, host := es })

/-- STATUS (R32, spec decision D4): CODE in bits 7:4, 0 in bit 3, OP in bit 2, PHASE in bits 1:0, with the values of the
table. What the host reads (R25, R31, R50, R241; decisions D2, D22): STATUS at any time, CMD as 0, IN_LEN, OUT_LEN and ULEN
while not BUSY, a byte of OUT while FINISHED and below OUT_LEN, and nothing else (that the other reads have no value is the
model's, log entry 20). In IDLE, OUT_LEN and ULEN read 0; in FINISHED the results stay until a command or the reset ends it. -/
def Obligations.StatusRegisterFields : Prop :=
  (∀ (s : State) (a : Nat),
    hostReadReg .status s = some (statusByte s).toNat ∧ hostReadReg .cmd s = some 0 ∧
    (s.phase ≠ .busy → hostReadReg .inLen s = some s.inLen.toNat ∧ hostReadReg .outLen s = some s.outLen ∧
      hostReadReg .ulen s = some s.ulenReg.toNat) ∧
    (s.phase = .busy → hostReadReg .inLen s = none ∧ hostReadReg .outLen s = none ∧ hostReadReg .ulen s = none) ∧
    (s.phase = .finished → a < s.outLen → hostReadOut a s = some (s.out.read a)) ∧
    (s.phase ≠ .finished ∨ s.outLen ≤ a → hostReadOut a s = none) ∧
    (s.Inv → s.phase = .idle → hostReadReg .outLen s = some 0 ∧ hostReadReg .ulen s = some 0)) ∧
  (∀ (s t : State) (a : Nat), s.phase = .finished → step s = .next t → t.phase = .finished →
    hostReadReg .status t = hostReadReg .status s ∧ hostReadReg .outLen t = hostReadReg .outLen s ∧
    hostReadReg .ulen t = hostReadReg .ulen s ∧ hostReadOut a t = hostReadOut a s) ∧
  ∀ s : State,
    (statusByte s).toNat % 4 = (match s.phase with | .idle => 0 | .busy => 1 | .finished => 2) ∧
    (statusByte s).getLsbD 2 = decide (s.op = .decompress) ∧
    (statusByte s).getLsbD 3 = false ∧
    (statusByte s).toNat / 16 =
      (match s.code with
        | .ok => 0 | .truncated => 1 | .errHeader => 2 | .errExhausted => 3 | .errAssert => 4 | .refused => 5)

/-- With a finite OUT_CAP (R205, spec decision D13): a COMPRESS whose worst-case container does not fit is REFUSED at START
with OUT empty, any other starts; every DECOMPRESS starts, and one whose greatest output does not fit is REFUSED when its
header is accepted, with no output appended, while any other header is taken. With R8's default, an unbounded OUT_CAP, no
COMPRESS and no DECOMPRESS is refused. With a finite IN_CAP an IN_LEN above it is not loaded and any other is, and a byte of
IN is written only below it (that these stops are a refusal and a fault is the model's, log entry 16). -/
def Obligations.CapacityRefusesBeforeAnyOutput : Prop :=
  ∀ (p : Params) (s : State) (c : Nat) (n : Word32) (a : Nat) (v : Byte) (es : List HostEvent),
    (p.outCap = some c → s.phase ≠ .busy → c < 16 + s.inCount + (s.inCount + 7) / 8 →
      ∃ t, execWith p .cmdCompress s = .next t ∧ t.phase = .finished ∧ t.code = .refused ∧ t.out = [] ∧
        t.outLen = 0) ∧
    (p.outCap = some c → s.phase ≠ .busy → 16 + s.inCount + (s.inCount + 7) / 8 ≤ c →
      execWith p .cmdCompress s = .next (startOp .compress s)) ∧
    (p.outCap = some c → s.decoding → 16 ≤ s.inCount → c < n.toNat + 65 →
      ∃ t, execWith p (.header n) s = .next t ∧ t.phase = .finished ∧ t.code = .refused ∧ t.out = s.out ∧
        t.outLen = s.outLen) ∧
    (p.outCap = some c → s.decoding → 16 ≤ s.inCount → n.toNat + 65 ≤ c →
      execWith p (.header n) s = .next { s with ulen := n, ulenReg := n, pp := 16, stage := .chunk }) ∧
    (p.outCap = none → s.phase ≠ .busy → execWith p .cmdCompress s = .next (startOp .compress s)) ∧
    (p.outCap = none → s.decoding → 16 ≤ s.inCount →
      execWith p (.header n) s = .next { s with ulen := n, ulenReg := n, pp := 16, stage := .chunk }) ∧
    (s.phase ≠ .busy → execWith p .cmdDecompress s = .next (startOp .decompress s)) ∧
    (s.phase ≠ .busy → s.cmd = none → s.host = .writeInLen n :: es →
      (p.inCap = some c → c < n.toNat → stepWith p s = .refused .inLenAboveInCap) ∧
      (p.inCap = some c → n.toNat ≤ c → stepWith p s = .next { s with inLen := n, host := es }) ∧
      (p.inCap = none → stepWith p s = .next { s with inLen := n, host := es })) ∧
    (s.phase ≠ .busy → s.cmd = none → s.host = .writeIn a v :: es → a < 2 ^ 32 - 1 →
      (p.inCap = some c → c ≤ a → stepWith p s = .fault .noSuchInAddress) ∧
      (p.inCap = some c → a < c → stepWith p s = .next { s with inp := s.inp.write a v, host := es }) ∧
      (p.inCap = none → stepWith p s = .next { s with inp := s.inp.write a v, host := es }))

/-- The state after reset (R35, R230): IDLE, OP 0, CODE 0, OUT empty, OUT_LEN, `olen` and ULEN 0, no command, no search. -/
def Obligations.ResetStateIsIdleAndEmpty : Prop :=
  State.reset.phase = .idle ∧ State.reset.op = .compress ∧ State.reset.code = .ok ∧ State.reset.out = [] ∧
  State.reset.outLen = 0 ∧ State.reset.olen = 0 ∧ State.reset.ulenReg = 0 ∧ State.reset.cmd = none ∧
  State.reset.search = none

/-! ## DECOMPRESS -/

/-- HEADER while DECOMPRESS runs (R171): with at least 16 container bytes `ulen` and ULEN take the field, `pp` is 16, and
nothing else of the data path changes (`stage` is the model's place, log entry 14). -/
def Obligations.HeaderFieldIsTaken : Prop :=
  ∀ (s : State) (n : Word32), s.decoding → 16 ≤ s.inCount →
    exec (.header n) s = .next { s with ulen := n, ulenReg := n, pp := 16, stage := .chunk }

/-- HeaderParse (R171): a container shorter than 16 bytes, or with a magic that is not 1, 8, 1, ends ERR_HEADER with OUT,
OUT_LEN, ULEN and `pp` as START left them; any other header is accepted, and `ulen` and ULEN are its bytes 8..11, `pp` 16. -/
def Obligations.HeaderParseAcceptsOrRaises : Prop :=
  ∀ s : State, s.alone = true → s.decoding → s.stage = .header →
    ((s.inCount < 16 ∨ be32 (s.inAt 0) (s.inAt 1) (s.inAt 2) (s.inAt 3) ≠ 1 ∨
        be32 (s.inAt 4) (s.inAt 5) (s.inAt 6) (s.inAt 7) ≠ 8 ∨
        be32 (s.inAt 12) (s.inAt 13) (s.inAt 14) (s.inAt 15) ≠ 1) →
      step s = .next { s with phase := .finished, code := .errHeader }) ∧
    (16 ≤ s.inCount → be32 (s.inAt 0) (s.inAt 1) (s.inAt 2) (s.inAt 3) = 1 →
      be32 (s.inAt 4) (s.inAt 5) (s.inAt 6) (s.inAt 7) = 8 →
      be32 (s.inAt 12) (s.inAt 13) (s.inAt 14) (s.inAt 15) = 1 →
      step s = .next { s with
        ulen := be32 (s.inAt 8) (s.inAt 9) (s.inAt 10) (s.inAt 11)
        ulenReg := be32 (s.inAt 8) (s.inAt 9) (s.inAt 10) (s.inAt 11)
        pp := 16
        stage := .chunk })

/-- FLAG while DECOMPRESS runs (R172): `flags` takes the byte and `pp` moves past it; the bit loop begins at bit 0 (R170).
With no byte left the operation ends ERR_EXHAUSTED and nothing else changes (R178, spec decision D7). That it does the same when
`olen < ulen`, R172's precondition, does not hold is the model's choice (log entry 24). -/
def Obligations.FlagFetchTakesTheByte : Prop :=
  ∀ (s : State) (f : Byte), s.decoding →
    (s.pp < s.inCount → exec (.flag f) s = .next { s with flags := f, pp := s.pp + 1, t := 0, stage := .token }) ∧
    (s.inCount ≤ s.pp → exec (.flag f) s = .next { s with phase := .finished, code := .errExhausted })

/-- LIT while DECOMPRESS runs (R174): the byte is consumed, appended to OUT and written into the window at the cursor; every
other byte of OUT and of the window, IN, `tokbuf` and every other register are kept (`t` counts the bit loop of R170). -/
def Obligations.LiteralIsAppendedAndWritten : Prop :=
  ∀ (s : State) (b : Byte), s.decoding → s.win.wf → s.out.wf → s.pp < s.inCount →
    ∃ t, exec (.lit b) s = .next t ∧
      t.pp = s.pp + 1 ∧ t.olen = s.olen + 1 ∧ t.outLen = s.outLen + 1 ∧ t.out.read s.outLen = b ∧
      t.win.read s.cur.toNat = b ∧ t.cur.toNat = (s.cur.toNat + 1) % 1024 ∧ t.t = s.t + 1 ∧
      (∀ a, a ≠ s.outLen → t.out.read a = s.out.read a) ∧
      (∀ a, a ≠ s.cur.toNat → t.win.read a = s.win.read a) ∧
      t = { s with pp := t.pp, olen := t.olen, outLen := t.outLen, out := t.out, win := t.win, cur := t.cur,
                   t := t.t, stage := t.stage }

/-- With no byte left for a Literal, ERR_EXHAUSTED: nothing but STATUS changes (R178, spec decision D7). -/
def Obligations.ExhaustedPayloadRaises : Prop :=
  ∀ s : State, s.alone = true → s.decoding → s.olen < s.ulen.toNat → s.inCount ≤ s.pp →
    (s.stage = .chunk ∨ (s.stage = .token ∧ s.flags.getLsbD s.t = true)) →
    step s = .next { s with phase := .finished, code := .errExhausted } ∧
    (∀ b, exec (.lit b) s = .next { s with phase := .finished, code := .errExhausted })

/-- MATCH while DECOMPRESS runs (R175): both bytes are consumed and exactly `len` bytes are copied, byte `k` being what slot
`(off + k) mod 1024` holds once the bytes before it have been written; each is appended to OUT and written at the cursor. Every
byte of OUT outside `OUT_LEN .. OUT_LEN + len - 1`, every slot at distance `len` or more from the cursor, IN, `tokbuf` and
every other register are kept. -/
def Obligations.MatchCopiesByteSerially : Prop :=
  ∀ (s : State) (off len : Nat), s.decoding → s.win.wf → s.out.wf → (Instr.matchTok off len).wf = true →
    s.pp + 2 ≤ s.inCount →
    ∃ (t : State) (bs : List Byte), exec (.matchTok off len) s = .next t ∧ bs.length = len ∧
      (∀ k, k < len → bs.getD k 0 = winRead ((off + k : Nat) : Int) (putWinSeq (bs.take k) s)) ∧
      t.pp = s.pp + 2 ∧ t.off.toNat = off ∧ t.mlen = len ∧ t.olen = s.olen + len ∧ t.outLen = s.outLen + len ∧
      t.cur.toNat = (s.cur.toNat + len) % 1024 ∧
      (∀ k, k < len → t.out.read (s.outLen + k) = bs.getD k 0) ∧
      (∀ k, k < len → t.win.read ((s.cur.toNat + k) % 1024) = bs.getD k 0) ∧
      (∀ a, a < s.outLen ∨ s.outLen + len ≤ a → t.out.read a = s.out.read a) ∧
      (∀ k, len ≤ k → k < 1024 →
        t.win.read ((s.cur.toNat + k) % 1024) = s.win.read ((s.cur.toNat + k) % 1024)) ∧
      t = { s with pp := t.pp, off := t.off, mlen := t.mlen, i := t.i, olen := t.olen, outLen := t.outLen,
                   out := t.out, win := t.win, cur := t.cur, t := t.t, stage := t.stage }

/-- The cases of R176 (the spec's own derivation from R175), with `e = (cur - off) mod 1024`: for `1 <= e < len` the output
repeats the `e` bytes from `off` on with period `e`; otherwise it is the old content of the source range; for `e = 0` the window
content does not change. -/
def Obligations.OverlappingMatchRepeats : Prop :=
  ∀ (s t : State) (off len e : Nat), s.decoding → s.win.wf → s.out.wf → (Instr.matchTok off len).wf = true →
    s.pp + 2 ≤ s.inCount → e < 1024 → (off + e) % 1024 = s.cur.toNat → exec (.matchTok off len) s = .next t →
    (1 ≤ e → e < len → ∀ k, k < len → t.out.read (s.outLen + k) = winRead ((off + k % e : Nat) : Int) s) ∧
    (e = 0 ∨ len ≤ e → ∀ k, k < len → t.out.read (s.outLen + k) = winRead ((off + k : Nat) : Int) s) ∧
    (e = 0 → ∀ a : Int, winRead a t = winRead a s)

/-- A Match announced with fewer than two bytes left (R177): the operation ends TRUNCATED at once, OUT and OUT_LEN hold the
bytes decoded so far (fewer than ULEN), no dangling byte is consumed, and nothing but STATUS changes. That Subst does not run is
spec decision D8. -/
def Obligations.TruncatedMatchKeepsPartialOutput : Prop :=
  ∀ s : State, s.alone = true → s.decoding → s.stage = .token → s.olen < s.ulen.toNat →
    s.flags.getLsbD s.t = false → s.inCount < s.pp + 2 →
    step s = .next { s with phase := .finished, code := .truncated } ∧
    (∀ off len, exec (.matchTok off len) s = .next { s with phase := .finished, code := .truncated })

/-- The stop condition (R173, R208): once `olen >= ulen`, between chunks or between tokens, the operation ends OK with the
substituted output whatever the payload holds; neither `pp` nor the window moves. -/
def Obligations.CompleteOutputEndsTheOperation : Prop :=
  ∀ s : State, s.alone = true → s.decoding → s.stage ≠ .header → s.ulen.toNat ≤ s.olen →
    step s = .next { s with phase := .finished, code := .ok, out := (subst s).out }

/-- The bit loop (R173): bit 0 is examined first, each token moves on by one bit, and after bit 7 the next byte is a flag
byte. -/
def Obligations.FlagBitsAreTakenInOrder : Prop :=
  ∀ (s t : State) (i : Instr), s.decoding → t.phase = .busy → exec i s = .next t →
    (∀ f, i = .flag f → t.t = 0 ∧ t.stage = .token) ∧
    ((∃ b, i = .lit b) ∨ (∃ off len, i = .matchTok off len) →
      t.t = s.t + 1 ∧ (s.t + 1 < 8 → t.stage = .token) ∧ (8 ≤ s.t + 1 → t.stage = .chunk))

/-- Subst (R181): byte 11 of every occurrence of MARK_FROM becomes 0x32; every other byte of OUT, and all else, is kept. -/
def Obligations.SubstReplacesEveryMarker : Prop :=
  ∀ s : State, s.out.wf →
    subst s = { s with out := (subst s).out } ∧
    (∀ a p, p + 24 ≤ s.olen → a = p + 11 → s.out.slice p 24 = Config.markFrom → (subst s).out.read a = 0x32) ∧
    (∀ a, (∀ p, p + 24 ≤ s.olen → a = p + 11 → s.out.slice p 24 ≠ Config.markFrom) →
      (subst s).out.read a = s.out.read a)

/-- The payload pointer of a running DECOMPRESS, once its header has been parsed, never moves backwards (R29): no step but the
hardware reset takes it back, and none moves it by more than 2, a step that ends the operation or makes a move of the host
included. It moves by 1 for a flag byte, 1 for a Literal, 2 for a Match. -/
def Obligations.PayloadPointerOnlyAdvances : Prop :=
  (∀ s t : State, s.decoding → s.stage ≠ .header → (∀ es, s.host ≠ .reset :: es) → step s = .next t →
    s.pp ≤ t.pp ∧ t.pp ≤ s.pp + 2) ∧
  ∀ (s t : State) (i : Instr), s.decoding → exec i s = .next t → t.phase = .busy →
    (∀ f, i = .flag f → t.pp = s.pp + 1) ∧ (∀ b, i = .lit b → t.pp = s.pp + 1) ∧
    (∀ off len, i = .matchTok off len → t.pp = s.pp + 2)

/-- Every DECOMPRESS ends (R184, R243, the spec's own derivations): the run from START reaches FINISHED, with one of the codes
OK, TRUNCATED, ERR_HEADER, ERR_EXHAUSTED, and OUT_LEN at most ULEN + 65. -/
def Obligations.DecompressAlwaysFinishes : Prop :=
  ∀ s : State, s.alone = true →
    ∃ k t, Reaches k (startOp .decompress s) t ∧ t.phase = .finished ∧ t.op = .decompress ∧
      (t.code = .ok ∨ t.code = .truncated ∨ t.code = .errHeader ∨ t.code = .errExhausted) ∧
      t.outLen ≤ t.ulenReg.toNat + 65

/-- With CLIP_AT_ULEN a Match never passes `ulen`; without it the copy is never cut (R8, R179, spec decision D9). -/
def Obligations.ClippingStopsAtTheLength : Prop :=
  ∀ (p : Params) (s t : State) (off len : Nat), s.decoding → s.pp + 2 ≤ s.inCount → s.olen ≤ s.ulen.toNat →
    execWith p (.matchTok off len) s = .next t →
    (p.clipAtUlen = true → t.olen = min (s.olen + len) s.ulen.toNat) ∧
    (p.clipAtUlen = false → t.olen = s.olen + len)

/-- The other parameters, as a step of the block under any of them (R8, R83, R171, R202; spec decisions D5, D7, D8, D10).
PAD_FLAG_BITS fills the unused bits of the emitted flag byte and no other (that a chunk whose `tcnt` is outside R152's `1..8`
is flushed alike is the model's choice, log entry 24). A header shorter than 16 bytes is ERR_HEADER;
a magic mismatch is ERR_HEADER exactly with STRICT_MAGIC, and otherwise, with an unbounded OUT_CAP, the header
is taken. A DECOMPRESS that ends TRUNCATED or ERR_EXHAUSTED runs Subst exactly with SUBST_ON_TRUNC; one that ends ERR_HEADER never does, and one that ends OK always does. -/
def Obligations.ParametersActWhereTheyAreNamed : Prop :=
  ∀ (p : Params) (s : State), s.alone = true →
    (s.encoding → s.stage = .token → s.inCount ≤ s.di ∨ 8 ≤ s.tcnt → s.tblen ≤ 16 → s.out.wf →
      ∃ t, stepWith p s = .next t ∧ t.outLen = s.outLen + (1 + s.tblen) ∧
        (∀ j, j < 8 → (t.out.read s.outLen).getLsbD j = (s.flags.getLsbD j || (p.padFlagBits && decide (s.tcnt ≤ j)))) ∧
        (∀ j, j < s.tblen → t.out.read (s.outLen + 1 + j) = s.tokbuf.read j) ∧
        t = { s with out := t.out, outLen := t.outLen, stage := .chunk }) ∧
    (s.decoding → s.stage = .header →
      (s.inCount < 16 → stepWith p s = .next { s with phase := .finished, code := .errHeader }) ∧
      (p.strictMagic = true →
        be32 (s.inAt 0) (s.inAt 1) (s.inAt 2) (s.inAt 3) ≠ 1 ∨ be32 (s.inAt 4) (s.inAt 5) (s.inAt 6) (s.inAt 7) ≠ 8 ∨
          be32 (s.inAt 12) (s.inAt 13) (s.inAt 14) (s.inAt 15) ≠ 1 →
        stepWith p s = .next { s with phase := .finished, code := .errHeader }) ∧
      (p.outCap = none → 16 ≤ s.inCount →
        p.strictMagic = false ∨
          (be32 (s.inAt 0) (s.inAt 1) (s.inAt 2) (s.inAt 3) = 1 ∧ be32 (s.inAt 4) (s.inAt 5) (s.inAt 6) (s.inAt 7) = 8 ∧
            be32 (s.inAt 12) (s.inAt 13) (s.inAt 14) (s.inAt 15) = 1) →
        stepWith p s = .next { s with
          ulen := be32 (s.inAt 8) (s.inAt 9) (s.inAt 10) (s.inAt 11)
          ulenReg := be32 (s.inAt 8) (s.inAt 9) (s.inAt 10) (s.inAt 11)
          pp := 16
          stage := .chunk })) ∧
    (s.decoding → s.olen < s.ulen.toNat →
      (s.stage = .token → s.flags.getLsbD s.t = false → s.inCount < s.pp + 2 →
        stepWith p s = .next { s with
          phase := .finished
          code := .truncated
          out := if p.substOnTrunc then (subst s).out else s.out }) ∧
      (s.stage = .chunk ∨ (s.stage = .token ∧ s.flags.getLsbD s.t = true) → s.inCount ≤ s.pp →
        stepWith p s = .next { s with
          phase := .finished
          code := .errExhausted
          out := if p.substOnTrunc then (subst s).out else s.out })) ∧
    (s.decoding → s.stage ≠ .header → s.ulen.toNat ≤ s.olen →
      stepWith p s = .next { s with phase := .finished, code := .ok, out := (subst s).out })

/-! ## COMPRESS -/

/-- HEADER while COMPRESS runs (R141): the 16 bytes 00000001, 00000008, the length big-endian, 00000001 are appended to OUT;
ULEN takes the length (R140); every other byte and register is kept. That a length other than IN_LEN is emitted alike is the
model's choice (log entry 24). -/
def Obligations.HeaderEmitAppendsSixteenBytes : Prop :=
  ∀ (s : State) (n : Word32), s.encoding → s.out.wf →
    ∃ t, exec (.header n) s = .next t ∧ t.outLen = s.outLen + 16 ∧ t.ulenReg = n ∧
      t.out.slice s.outLen 16 =
        [0x00, 0x00, 0x00, 0x01, 0x00, 0x00, 0x00, 0x08, n.extractLsb' 24 8, n.extractLsb' 16 8, n.extractLsb' 8 8,
          n.extractLsb' 0 8, 0x00, 0x00, 0x00, 0x01] ∧
      (∀ a, a < s.outLen ∨ s.outLen + 16 ≤ a → t.out.read a = s.out.read a) ∧
      t = { s with out := t.out, outLen := t.outLen, ulenReg := t.ulenReg, stage := t.stage }

/-- LIT while COMPRESS runs (R120, R142, R150): its flag bit is set, its byte is staged, and it is committed to the window; OUT,
IN and every other register are kept. That a byte other than IN[di], against R150's precondition, is staged and committed alike
is the model's choice (log entry 24). -/
def Obligations.LiteralIsStagedAndCommitted : Prop :=
  ∀ (s : State) (b : Byte), s.encoding → s.win.wf → s.tokbuf.wf → s.tcnt < 8 → s.tblen + 1 ≤ 16 →
    s.di < s.inCount →
    ∃ t, exec (.lit b) s = .next t ∧
      (∀ j, t.flags.getLsbD j = (s.flags.getLsbD j || decide (j = s.tcnt))) ∧
      t.tokbuf.read s.tblen = b ∧ t.tblen = s.tblen + 1 ∧ t.tcnt = s.tcnt + 1 ∧ t.di = s.di + 1 ∧
      t.win.read s.cur.toNat = b ∧ t.cur.toNat = (s.cur.toNat + 1) % 1024 ∧
      (∀ a, a ≠ s.tblen → t.tokbuf.read a = s.tokbuf.read a) ∧
      (∀ a, a ≠ s.cur.toNat → t.win.read a = s.win.read a) ∧
      t = { s with flags := t.flags, tokbuf := t.tokbuf, tblen := t.tblen, tcnt := t.tcnt, di := t.di, win := t.win,
                   cur := t.cur }

/-- MATCH while COMPRESS runs (R121, R142, R151): its two bytes are staged with flag bit 0, the next `len` input bytes are
written into the window from the cursor on, and `di` moves by `len`; OUT, IN and every other register are kept. -/
def Obligations.MatchIsStagedAndCommitted : Prop :=
  ∀ (s : State) (off len : Nat), s.encoding → s.win.wf → s.tokbuf.wf → (Instr.matchTok off len).wf = true →
    s.tcnt < 8 → s.tblen + 2 ≤ 16 → s.di + len ≤ s.inCount →
    ∃ (t : State) (b0 b1 : Byte), exec (.matchTok off len) s = .next t ∧ encMatch off len = some (false, [b0, b1]) ∧
      t.tokbuf.read s.tblen = b0 ∧ t.tokbuf.read (s.tblen + 1) = b1 ∧ t.tblen = s.tblen + 2 ∧
      t.tcnt = s.tcnt + 1 ∧ t.di = s.di + len ∧ t.cur.toNat = (s.cur.toNat + len) % 1024 ∧
      (∀ k, k < len → t.win.read ((s.cur.toNat + k) % 1024) = s.inAt (s.di + k)) ∧
      (∀ k, len ≤ k → k < 1024 →
        t.win.read ((s.cur.toNat + k) % 1024) = s.win.read ((s.cur.toNat + k) % 1024)) ∧
      (∀ a, a < s.tblen ∨ s.tblen + 2 ≤ a → t.tokbuf.read a = s.tokbuf.read a) ∧
      t = { s with tokbuf := t.tokbuf, tblen := t.tblen, tcnt := t.tcnt, di := t.di, win := t.win, cur := t.cur }

/-- FLAG while COMPRESS runs (R152): the flag byte and then the staged token bytes are appended to OUT; every other byte of OUT,
the window, IN, `tokbuf` and every other register are kept. That a flag byte other than `flags` is emitted alike, and that the
same happens with `tcnt` outside R152's precondition `1 <= tcnt <= 8`, is the model's choice (log entry 24). -/
def Obligations.ChunkFlushEmitsFlagThenTokens : Prop :=
  ∀ (s : State) (f : Byte), s.encoding → s.out.wf → s.tblen ≤ 16 →
    ∃ t, exec (.flag f) s = .next t ∧ t.outLen = s.outLen + (1 + s.tblen) ∧ t.out.read s.outLen = f ∧
      (∀ j, j < s.tblen → t.out.read (s.outLen + 1 + j) = s.tokbuf.read j) ∧
      (∀ a, a < s.outLen ∨ s.outLen + 1 + s.tblen ≤ a → t.out.read a = s.out.read a) ∧
      t = { s with out := t.out, outLen := t.outLen, stage := t.stage }

/-- A step of a search changes the scratch alone (R28, R234): the window, the cursor and all else stay until a token is
committed. -/
def Obligations.SearchLeavesTheWindowAlone : Prop :=
  ∀ s : State, s.alone = true → s.encoding → s.stage = .token → s.di + 2 < s.inCount → s.tcnt < 8 →
    (s.search = none → step s = .next { s with search := some (searchBegin s) }) ∧
    (∀ q q', s.search = some q → searchExtend s q = some q' → step s = .next { s with search := some q' })

/-- The initial candidates (R144): a slot is one exactly when it holds the next input byte; all 1024 slots are scanned, and the
order is the scan order, oldest first; with none of them the search answers NONE. -/
def Obligations.InitialCandidatesInScanOrder : Prop :=
  ∀ s : State,
    (∀ c, c ∈ initialCands s ↔ c < 1024 ∧ s.win.read c = s.inAt s.di) ∧
    (initialCands s).Pairwise (fun c d => distance s c < distance s d) ∧
    (initialCands s = [] → matchSearch s = none)

/-- R148 (the spec's own derivation): after look-ahead bytes `0 .. k-1` have been hypothetically written at and after the
cursor, the hypothetical window holds HRead(c, k) at slot `(c + k) mod 1024`. -/
def Obligations.HypotheticalWindowHoldsHRead : Prop :=
  ∀ (s : State) (c k : Nat), s.win.wf → c < 1024 → k ≤ 66 →
    ((List.range k).foldl (fun m j => m.write ((s.cur.toNat + j) % 1024) (s.inAt (s.di + j))) s.win).read
      ((c + k) % 1024) = hRead s c k

/-- R147, R149: MatchSearch answers the greatest length not above `min(66, len - di)` that some slot matches, and among the slots
that match it the one with the smallest distance from the cursor; NONE exactly when no slot matches three bytes. -/
def Obligations.MatchSearchIsLongestThenOldest : Prop :=
  ∀ s : State,
    (∀ off len, matchSearch s = some (off, len) →
      off < 1024 ∧ 3 ≤ len ∧ len ≤ 66 ∧ len ≤ s.inCount - s.di ∧
      (∀ k, k < len → hRead s off k = s.inAt (s.di + k)) ∧
      (∀ c m, c < 1024 → m ≤ 66 → m ≤ s.inCount - s.di → (∀ k, k < m → hRead s c k = s.inAt (s.di + k)) →
        m ≤ len ∧ (m = len → distance s off ≤ distance s c))) ∧
    (matchSearch s = none →
      ∀ c, c < 1024 → 3 ≤ s.inCount - s.di → ∃ k, k < 3 ∧ hRead s c k ≠ s.inAt (s.di + k))

/-- The step-by-step search (R144 to R147) and the closed form (R148, R149) agree: from a token's beginning, at most 67 steps
that change the scratch alone lead to the step that runs the token TokenChoose gives. -/
def Obligations.StepwiseSearchEqualsClosedForm : Prop :=
  ∀ s : State, s.alone = true → s.encoding → s.stage = .token → s.search = none → s.win.wf →
    s.di + 2 < s.inCount → s.tcnt < 8 →
    ∃ k q, k ≤ 67 ∧ Reaches k s { s with search := some q } ∧
      step { s with search := some q } = exec (tokenChoose s) s

/-- Every token the encoder chooses is in range and inside the input (R125, R155 item 3: "Match bounds"). -/
def Obligations.ChosenTokenIsInRange : Prop :=
  ∀ s : State, s.di < s.inCount →
    (tokenChoose s).wf = true ∧
    (∀ off len, tokenChoose s = .matchTok off len → s.di + len ≤ s.inCount) ∧
    (∀ b, tokenChoose s = .lit b → b = s.inAt s.di)

/-- COMPRESS is total (R140, R153): the run from START ends OK, with `OUT_LEN` at least 16, the header of IN_LEN in OUT[0..15]
and (R155 item 5) at most `16 + len + ceil(len / 8)` bytes. -/
def Obligations.CompressAlwaysFinishesOk : Prop :=
  ∀ s : State, s.alone = true →
    ∃ k t, Reaches k (startOp .compress s) t ∧ t.phase = .finished ∧ t.op = .compress ∧ t.code = .ok ∧
      t.di = s.inCount ∧ 16 ≤ t.outLen ∧ t.outLen ≤ 16 + s.inCount + (s.inCount + 7) / 8 ∧
      t.out.slice 0 16 = headerBytes s.inLen ∧ t.ulenReg = s.inLen

/-- The empty input (R153): the container is exactly the header with length 0. -/
def Obligations.EmptyInputGivesHeaderOnly : Prop :=
  ∀ s : State, s.alone = true → s.inLen = 0 →
    ∃ k t, Reaches k (startOp .compress s) t ∧ t.phase = .finished ∧ t.code = .ok ∧ t.outLen = 16 ∧
      t.out.slice 0 16 =
        [0x00, 0x00, 0x00, 0x01, 0x00, 0x00, 0x00, 0x08, 0x00, 0x00, 0x00, 0x00, 0x00, 0x00, 0x00, 0x01]

/-- Inputs of one and two bytes become Literals only (R154); that the unused flag bits are 0 is spec decision D5. -/
def Obligations.ShortInputsBecomeLiterals : Prop :=
  ∀ s : State, s.alone = true → s.tokbuf.wf →
    (s.inLen = 1 → ∃ k t, Reaches k (startOp .compress s) t ∧ t.phase = .finished ∧ t.code = .ok ∧
      t.outLen = 18 ∧ t.out.slice 16 2 = [0x01, s.inAt 0]) ∧
    (s.inLen = 2 → ∃ k t, Reaches k (startOp .compress s) t ∧ t.phase = .finished ∧ t.code = .ok ∧
      t.outLen = 19 ∧ t.out.slice 16 3 = [0x03, s.inAt 0, s.inAt 1])

/-! ## The whole machine -/

/-- The invariant holds at reset. -/
def Obligations.ResetMeetsTheInvariant : Prop := State.reset.Inv

/-- Every step from a state that meets the invariant gives a state that meets it: canonical spaces and their address ranges,
counter ranges (R37), the window and the cursor in step with the bytes processed (R23, R155, R209), OUT_LEN within its bounds
(R179, R184), and what each code and phase promises of the host registers (R31, R200). -/
def Obligations.StepKeepsTheInvariant : Prop :=
  ∀ s t : State, s.Inv → step s = .next t → t.Inv

/-- Nothing but a bad write of the host stops the machine (R206, R213, R243): from a state that meets the invariant a step
answers a next state unless the host's next move is a write of IN or IN_LEN, and then it is never a refusal. -/
def Obligations.OnlyBadHostWritesStop : Prop :=
  ∀ s : State, s.Inv →
    ((∀ a v es, s.host ≠ .writeIn a v :: es) → (∀ n es, s.host ≠ .writeInLen n :: es) → ∃ t, step s = .next t) ∧
    (∀ r, step s ≠ .refused r)

/-- Outside an operation the block does nothing (R210, R212, R241): with no command and no move of the host every register is
stable. Token instructions have no effect there either (log entry 13). -/
def Obligations.NothingRunsOutsideAnOperation : Prop :=
  ∀ s : State, s.phase ≠ .busy →
    (s.alone = true → step s = .next s) ∧
    (∀ i : Instr, i.position ≠ .command → exec i s = .next s)

/-- Only an accepted command or the hardware reset leaves IDLE or FINISHED (R31, R210, R230). -/
def Obligations.PhaseChangesOnlyByCommandOrReset : Prop :=
  ∀ s t : State, s.phase ≠ .busy → step s = .next t → t.phase ≠ s.phase →
    (∃ v, s.cmd = some v ∧ v.toNat ≤ 2) ∨ (∃ es, s.host = .reset :: es)

/-- While an operation runs, only its own end or the hardware reset leaves BUSY, and the operation never changes (R207, R209,
R36): while BUSY a step with a value in CMD, or with a CMD write as the host's next move, leaves PHASE BUSY and CODE, OUT,
OUT_LEN, the window and every pointer of the operation as they are (spec decision D20). -/
def Obligations.BusyEndsOnlyByFinishOrReset : Prop :=
  ∀ s t : State, s.phase = .busy → step s = .next t →
    ((∀ es, s.host ≠ .reset :: es) →
      t.op = s.op ∧ (t.phase = .busy ∨ t.phase = .finished) ∧ (t.phase = .busy → t.code = s.code)) ∧
    (s.cmd ≠ none ∨ (∃ v es, s.host = .writeCmd v :: es) →
      t.phase = .busy ∧ t = { s with cmd := t.cmd, host := t.host })

/-- The block never writes IN or IN_LEN (R24, R50, R59): no instruction does, and a step changes them only when the host's next
move writes them or resets. -/
def Obligations.BlockNeverWritesItsInput : Prop :=
  (∀ (i : Instr) (s t : State), exec i s = .next t → t.inp = s.inp ∧ t.inLen = s.inLen) ∧
  (∀ s t : State, step s = .next t → (∀ a v es, s.host ≠ .writeIn a v :: es) →
    (∀ n es, s.host ≠ .writeInLen n :: es) → (∀ es, s.host ≠ .reset :: es) → t.inp = s.inp ∧ t.inLen = s.inLen)

/-- No state crosses calls (R34): the run of an operation is a function of IN[0..IN_LEN-1] alone. Two instances that agree on
those bytes, whatever else they hold, show the same PHASE, CODE, OUT_LEN, ULEN and OUT after every number of steps. -/
def Obligations.ResultDependsOnInputAlone : Prop :=
  ∀ (o : Op) (s1 s2 t1 : State) (k : Nat), s1.alone = true → s2.alone = true → s1.tokbuf.wf →
    s2.tokbuf.wf → s1.inLen = s2.inLen → (∀ a, a < s1.inCount → s1.inAt a = s2.inAt a) → Reaches k (startOp o s1) t1 →
    ∃ t2, Reaches k (startOp o s2) t2 ∧ t1.phase = t2.phase ∧ t1.code = t2.code ∧ t1.outLen = t2.outLen ∧
      t1.ulenReg = t2.ulenReg ∧ (∀ a, a < t1.outLen → t1.out.read a = t2.out.read a)

/-- The round trip (R183): COMPRESS of an input ends OK; DECOMPRESS of its container, on any instance, ends OK with as many
bytes, equal to the input but for byte 11 of each marker in it, which is 0x32. -/
def Obligations.DecompressUndoesCompress : Prop :=
  ∀ s : State, s.alone = true → s.tokbuf.wf →
    ∃ k t, Reaches k (startOp .compress s) t ∧ t.phase = .finished ∧ t.code = .ok ∧
      (∀ s2 : State, s2.alone = true → s2.inCount = t.outLen →
        (∀ a, a < t.outLen → s2.inAt a = t.out.read a) →
        ∃ k2 t2, Reaches k2 (startOp .decompress s2) t2 ∧ t2.phase = .finished ∧ t2.code = .ok ∧
          t2.outLen = s.inCount ∧
          (∀ a p, p + 24 ≤ s.inCount → a = p + 11 → s.inp.slice p 24 = Config.markFrom → t2.out.read a = 0x32) ∧
          (∀ a, a < s.inCount → (∀ p, p + 24 ≤ s.inCount → a = p + 11 → s.inp.slice p 24 ≠ Config.markFrom) →
            t2.out.read a = s.inAt a))
end

