-- ==== Sys2Proof/Laws/Memory.lean ====
section
/-! SUPPORT. The laws of a byte-addressed space: read after write, the canonical form, and its extensionality. -/

namespace Sys2Proof.Machine

theorem Memory.wf_nil : Memory.wf [] := by simp [Memory.wf]

theorem Memory.wf_cons {c : Host.Cell} {m : Memory} :
    Memory.wf (c :: m) ↔ (∀ d ∈ m, c.1 < d.1) ∧ c.2 ≠ Memory.blank ∧ Memory.wf m := by
  simp only [Memory.wf, List.pairwise_cons, List.mem_cons, forall_eq_or_imp]
  constructor
  · rintro ⟨⟨h1, h2⟩, h3, h4⟩; exact ⟨h1, h3, h2, h4⟩
  · rintro ⟨h1, h3, h2, h4⟩; exact ⟨⟨h1, h2⟩, h3, h4⟩

@[simp] theorem Memory.read_nil (a : Nat) : Memory.read [] a = Memory.blank := rfl

/-- An address below every listed one reads as the blank byte. -/
theorem Memory.read_below {m : Memory} {a : Nat} (h : ∀ c ∈ m, a < c.1) : m.read a = Memory.blank := by
  induction m with
  | nil => rfl
  | cons c m ih =>
    have hc := h c (by simp)
    rw [Memory.read, if_neg (by omega)]
    exact ih fun d hd => h d (by simp [hd])

/-- `cell` adds at most the entry it is given. -/
theorem Memory.mem_cell {a : Nat} {v : Byte} {m : Memory} {c : Host.Cell} (h : c ∈ Memory.cell a v m) :
    c = (a, v) ∨ c ∈ m := by
  unfold Memory.cell at h
  split at h
  · exact .inr h
  · simpa using h

theorem Memory.cell_wf {a : Nat} {v : Byte} {m : Memory} (hm : Memory.wf m) (h : ∀ c ∈ m, a < c.1) :
    Memory.wf (Memory.cell a v m) := by
  unfold Memory.cell
  split
  · exact hm
  · next hv => exact Memory.wf_cons.2 ⟨h, hv, hm⟩

/-- A write adds at most the entry it writes. -/
theorem Memory.mem_write {m : Memory} {a : Nat} {v : Byte} {c : Host.Cell} (h : c ∈ m.write a v) :
    c = (a, v) ∨ c ∈ m := by
  induction m with
  | nil => exact Memory.mem_cell h
  | cons d m ih =>
    simp only [Memory.write] at h
    split at h
    · exact Memory.mem_cell h
    · split at h
      · rcases Memory.mem_cell h with h | h
        · exact .inl h
        · exact .inr (List.mem_cons_of_mem _ h)
      · rcases List.mem_cons.1 h with h | h
        · exact .inr (by simp [h])
        · rcases ih h with h | h
          · exact .inl h
          · exact .inr (List.mem_cons_of_mem _ h)

/-- Every write keeps the canonical form. -/
theorem Memory.write_wf {m : Memory} (hm : Memory.wf m) (a : Nat) (v : Byte) : Memory.wf (m.write a v) := by
  induction m with
  | nil => exact Memory.cell_wf hm (by simp)
  | cons d m ih =>
    obtain ⟨h1, h2, h3⟩ := Memory.wf_cons.1 hm
    simp only [Memory.write]
    split
    · next h =>
      refine Memory.cell_wf hm fun c hc => ?_
      rcases List.mem_cons.1 hc with rfl | hc
      · exact h
      · exact Nat.lt_trans h (h1 c hc)
    · split
      · next h => exact Memory.cell_wf h3 fun c hc => h ▸ h1 c hc
      · refine Memory.wf_cons.2 ⟨fun c hc => ?_, h2, ih h3⟩
        rcases Memory.mem_write hc with rfl | hc
        · simp only; omega
        · exact h1 c hc

theorem Memory.writeSeq_wf {m : Memory} (hm : Memory.wf m) (a : Nat) (bs : List Byte) :
    Memory.wf (m.writeSeq a bs) := by
  induction bs generalizing m a with
  | nil => exact hm
  | cons b bs ih => exact ih (Memory.write_wf hm a b) (a + 1)

/-- A read after a write to the same address gives the value written. -/
theorem Memory.read_write_same {m : Memory} (hm : Memory.wf m) (a : Nat) (v : Byte) : (m.write a v).read a = v := by
  have cell_same : ∀ {m : Memory}, (∀ c ∈ m, a < c.1) → (Memory.cell a v m).read a = v := by
    intro m h
    unfold Memory.cell
    split
    · next hv => rw [Memory.read_below h, hv]
    · simp [Memory.read]
  induction m with
  | nil => exact cell_same (by simp)
  | cons d m ih =>
    obtain ⟨h1, h2, h3⟩ := Memory.wf_cons.1 hm
    simp only [Memory.write]
    split
    · next h =>
      refine cell_same fun c hc => ?_
      rcases List.mem_cons.1 hc with rfl | hc
      · exact h
      · exact Nat.lt_trans h (h1 c hc)
    · split
      · next h => exact cell_same fun c hc => h ▸ h1 c hc
      · next h => rw [Memory.read, if_neg h]; exact ih h3

/-- A write leaves every other address alone, in any memory. -/
theorem Memory.read_write_other (m : Memory) {a b : Nat} (h : b ≠ a) (v : Byte) : (m.write a v).read b = m.read b := by
  have cell_other : ∀ m : Memory, (Memory.cell a v m).read b = m.read b := by
    intro m
    unfold Memory.cell
    split
    · rfl
    · simp [Memory.read, h]
  induction m with
  | nil => exact cell_other []
  | cons d m ih =>
    simp only [Memory.write]
    split
    · exact cell_other _
    · split
      · next hd => rw [cell_other, Memory.read, if_neg (by omega)]
      · simp only [Memory.read, ih]

theorem Memory.read_write {m : Memory} (hm : Memory.wf m) (a b : Nat) (v : Byte) :
    (m.write a v).read b = if b = a then v else m.read b := by
  split
  · next h => rw [h]; exact Memory.read_write_same hm a v
  · next h => exact Memory.read_write_other m h v

/-- What successive writes leave at every address. -/
theorem Memory.read_writeSeq {m : Memory} (hm : Memory.wf m) (a b : Nat) (bs : List Byte) :
    (m.writeSeq a bs).read b = if a ≤ b ∧ b < a + bs.length then bs.getD (b - a) 0 else m.read b := by
  induction bs generalizing m a with
  | nil => simp only [Memory.writeSeq, List.length_nil]; rw [if_neg (by omega)]
  | cons x xs ih =>
    rw [Memory.writeSeq, ih (Memory.write_wf hm a x), List.length_cons]
    by_cases h1 : b = a
    · subst h1
      rw [if_neg (by omega), if_pos (by omega), Memory.read_write_same hm, Nat.sub_self, List.getD_cons_zero]
    · by_cases h2 : a + 1 ≤ b ∧ b < a + 1 + xs.length
      · rw [if_pos h2, if_pos (by omega), show b - a = (b - (a + 1)) + 1 by omega, List.getD_cons_succ]
      · rw [if_neg h2, if_neg (by omega), Memory.read_write_other m h1]

/-- The addresses a run of writes can list. -/
theorem Memory.mem_writeSeq {m : Memory} {a : Nat} {bs : List Byte} {c : Host.Cell} (h : c ∈ m.writeSeq a bs) :
    (a ≤ c.1 ∧ c.1 < a + bs.length) ∨ c ∈ m := by
  induction bs generalizing m a with
  | nil => exact .inr h
  | cons x xs ih =>
    rcases ih (m := m.write a x) (a := a + 1) h with h | h
    · exact .inl (by simp only [List.length_cons]; omega)
    · rcases Memory.mem_write h with rfl | h
      · exact .inl (by simp only [List.length_cons]; omega)
      · exact .inr h

/-- Equal bytes at every address make equal memories: the canonical form is one. -/
theorem Memory.ext_read {m n : Memory} (hm : Memory.wf m) (hn : Memory.wf n) (h : ∀ a, m.read a = n.read a) :
    m = n := by
  induction m generalizing n with
  | nil =>
    cases n with
    | nil => rfl
    | cons d n =>
      obtain ⟨_, h2, _⟩ := Memory.wf_cons.1 hn
      exact absurd (by simpa [Memory.read] using (h d.1).symm) h2
  | cons c m ih =>
    obtain ⟨c1, c2, c3⟩ := Memory.wf_cons.1 hm
    cases n with
    | nil => exact absurd (by simpa [Memory.read] using h c.1) c2
    | cons d n =>
      obtain ⟨d1, d2, d3⟩ := Memory.wf_cons.1 hn
      have hcd : c.1 = d.1 := by
        rcases Nat.lt_trichotomy c.1 d.1 with hlt | heq | hgt
        · have hb : Memory.read (d :: n) c.1 = Memory.blank := Memory.read_below fun e he => by
            rcases List.mem_cons.1 he with rfl | he
            · exact hlt
            · exact Nat.lt_trans hlt (d1 e he)
          have := h c.1
          rw [hb] at this
          exact absurd (by simpa [Memory.read] using this) c2
        · exact heq
        · have hb : Memory.read (c :: m) d.1 = Memory.blank := Memory.read_below fun e he => by
            rcases List.mem_cons.1 he with rfl | he
            · exact hgt
            · exact Nat.lt_trans hgt (c1 e he)
          have := h d.1
          rw [hb] at this
          exact absurd (by simpa [Memory.read] using this.symm) d2
      have hv : c.2 = d.2 := by
        have := h c.1
        simpa [Memory.read, hcd] using this
      have hc : c = d := Prod.ext hcd hv
      subst hc
      congr 1
      refine ih c3 d3 fun a => ?_
      by_cases ha : a = c.1
      · rw [Memory.read_below (ha ▸ c1), Memory.read_below (ha ▸ d1)]
      · have := h a
        simpa [Memory.read, ha] using this

@[simp] theorem Memory.slice_length (m : Memory) (a k : Nat) : (m.slice a k).length = k := by
  simp [Memory.slice]

theorem Memory.slice_getD (m : Memory) (a k j : Nat) (h : j < k) : (m.slice a k).getD j 0 = m.read (a + j) := by
  simp [Memory.slice, List.getD, h]

end Sys2Proof.Machine
end

