-- ==== Sys2Proof/Laws/State.lean ====
section
/-! SUPPORT. One lemma per field per named update of the state, true by unfolding the update once: no later proof unfolds a record
update. -/

namespace Sys2Proof.Machine

/-! ### WinWrite for its effect (R111) -/

@[simp] theorem putWin_win (b : Byte) (s : State) : (putWin b s).win = s.win.write s.cur.toNat b := rfl
@[simp] theorem putWin_cur (b : Byte) (s : State) : (putWin b s).cur = s.cur + 1 := rfl
@[simp] theorem putWin_inp (b : Byte) (s : State) : (putWin b s).inp = s.inp := rfl
@[simp] theorem putWin_inLen (b : Byte) (s : State) : (putWin b s).inLen = s.inLen := rfl
@[simp] theorem putWin_out (b : Byte) (s : State) : (putWin b s).out = s.out := rfl
@[simp] theorem putWin_outLen (b : Byte) (s : State) : (putWin b s).outLen = s.outLen := rfl
@[simp] theorem putWin_di (b : Byte) (s : State) : (putWin b s).di = s.di := rfl
@[simp] theorem putWin_flags (b : Byte) (s : State) : (putWin b s).flags = s.flags := rfl
@[simp] theorem putWin_tcnt (b : Byte) (s : State) : (putWin b s).tcnt = s.tcnt := rfl
@[simp] theorem putWin_tokbuf (b : Byte) (s : State) : (putWin b s).tokbuf = s.tokbuf := rfl
@[simp] theorem putWin_tblen (b : Byte) (s : State) : (putWin b s).tblen = s.tblen := rfl
@[simp] theorem putWin_search (b : Byte) (s : State) : (putWin b s).search = s.search := rfl
@[simp] theorem putWin_pp (b : Byte) (s : State) : (putWin b s).pp = s.pp := rfl
@[simp] theorem putWin_ulen (b : Byte) (s : State) : (putWin b s).ulen = s.ulen := rfl
@[simp] theorem putWin_olen (b : Byte) (s : State) : (putWin b s).olen = s.olen := rfl
@[simp] theorem putWin_t (b : Byte) (s : State) : (putWin b s).t = s.t := rfl
@[simp] theorem putWin_off (b : Byte) (s : State) : (putWin b s).off = s.off := rfl
@[simp] theorem putWin_mlen (b : Byte) (s : State) : (putWin b s).mlen = s.mlen := rfl
@[simp] theorem putWin_i (b : Byte) (s : State) : (putWin b s).i = s.i := rfl
@[simp] theorem putWin_cmd (b : Byte) (s : State) : (putWin b s).cmd = s.cmd := rfl
@[simp] theorem putWin_phase (b : Byte) (s : State) : (putWin b s).phase = s.phase := rfl
@[simp] theorem putWin_op (b : Byte) (s : State) : (putWin b s).op = s.op := rfl
@[simp] theorem putWin_code (b : Byte) (s : State) : (putWin b s).code = s.code := rfl
@[simp] theorem putWin_ulenReg (b : Byte) (s : State) : (putWin b s).ulenReg = s.ulenReg := rfl
@[simp] theorem putWin_stage (b : Byte) (s : State) : (putWin b s).stage = s.stage := rfl
@[simp] theorem putWin_host (b : Byte) (s : State) : (putWin b s).host = s.host := rfl

/-! ### `emit` (R12) -/

@[simp] theorem emit_win (v : Byte) (s : State) : (emit v s).win = s.win := rfl
@[simp] theorem emit_cur (v : Byte) (s : State) : (emit v s).cur = s.cur := rfl
@[simp] theorem emit_inp (v : Byte) (s : State) : (emit v s).inp = s.inp := rfl
@[simp] theorem emit_inLen (v : Byte) (s : State) : (emit v s).inLen = s.inLen := rfl
@[simp] theorem emit_out (v : Byte) (s : State) : (emit v s).out = s.out.write s.outLen v := rfl
@[simp] theorem emit_outLen (v : Byte) (s : State) : (emit v s).outLen = s.outLen + 1 := rfl
@[simp] theorem emit_di (v : Byte) (s : State) : (emit v s).di = s.di := rfl
@[simp] theorem emit_flags (v : Byte) (s : State) : (emit v s).flags = s.flags := rfl
@[simp] theorem emit_tcnt (v : Byte) (s : State) : (emit v s).tcnt = s.tcnt := rfl
@[simp] theorem emit_tokbuf (v : Byte) (s : State) : (emit v s).tokbuf = s.tokbuf := rfl
@[simp] theorem emit_tblen (v : Byte) (s : State) : (emit v s).tblen = s.tblen := rfl
@[simp] theorem emit_search (v : Byte) (s : State) : (emit v s).search = s.search := rfl
@[simp] theorem emit_pp (v : Byte) (s : State) : (emit v s).pp = s.pp := rfl
@[simp] theorem emit_ulen (v : Byte) (s : State) : (emit v s).ulen = s.ulen := rfl
@[simp] theorem emit_olen (v : Byte) (s : State) : (emit v s).olen = s.olen := rfl
@[simp] theorem emit_t (v : Byte) (s : State) : (emit v s).t = s.t := rfl
@[simp] theorem emit_off (v : Byte) (s : State) : (emit v s).off = s.off := rfl
@[simp] theorem emit_mlen (v : Byte) (s : State) : (emit v s).mlen = s.mlen := rfl
@[simp] theorem emit_i (v : Byte) (s : State) : (emit v s).i = s.i := rfl
@[simp] theorem emit_cmd (v : Byte) (s : State) : (emit v s).cmd = s.cmd := rfl
@[simp] theorem emit_phase (v : Byte) (s : State) : (emit v s).phase = s.phase := rfl
@[simp] theorem emit_op (v : Byte) (s : State) : (emit v s).op = s.op := rfl
@[simp] theorem emit_code (v : Byte) (s : State) : (emit v s).code = s.code := rfl
@[simp] theorem emit_ulenReg (v : Byte) (s : State) : (emit v s).ulenReg = s.ulenReg := rfl
@[simp] theorem emit_stage (v : Byte) (s : State) : (emit v s).stage = s.stage := rfl
@[simp] theorem emit_host (v : Byte) (s : State) : (emit v s).host = s.host := rfl

/-! ### `finish` (R13, R209) -/

@[simp] theorem finish_win (c : Code) (s : State) : (finish c s).win = s.win := rfl
@[simp] theorem finish_cur (c : Code) (s : State) : (finish c s).cur = s.cur := rfl
@[simp] theorem finish_inp (c : Code) (s : State) : (finish c s).inp = s.inp := rfl
@[simp] theorem finish_inLen (c : Code) (s : State) : (finish c s).inLen = s.inLen := rfl
@[simp] theorem finish_out (c : Code) (s : State) : (finish c s).out = s.out := rfl
@[simp] theorem finish_outLen (c : Code) (s : State) : (finish c s).outLen = s.outLen := rfl
@[simp] theorem finish_di (c : Code) (s : State) : (finish c s).di = s.di := rfl
@[simp] theorem finish_flags (c : Code) (s : State) : (finish c s).flags = s.flags := rfl
@[simp] theorem finish_tcnt (c : Code) (s : State) : (finish c s).tcnt = s.tcnt := rfl
@[simp] theorem finish_tokbuf (c : Code) (s : State) : (finish c s).tokbuf = s.tokbuf := rfl
@[simp] theorem finish_tblen (c : Code) (s : State) : (finish c s).tblen = s.tblen := rfl
@[simp] theorem finish_search (c : Code) (s : State) : (finish c s).search = s.search := rfl
@[simp] theorem finish_pp (c : Code) (s : State) : (finish c s).pp = s.pp := rfl
@[simp] theorem finish_ulen (c : Code) (s : State) : (finish c s).ulen = s.ulen := rfl
@[simp] theorem finish_olen (c : Code) (s : State) : (finish c s).olen = s.olen := rfl
@[simp] theorem finish_t (c : Code) (s : State) : (finish c s).t = s.t := rfl
@[simp] theorem finish_off (c : Code) (s : State) : (finish c s).off = s.off := rfl
@[simp] theorem finish_mlen (c : Code) (s : State) : (finish c s).mlen = s.mlen := rfl
@[simp] theorem finish_i (c : Code) (s : State) : (finish c s).i = s.i := rfl
@[simp] theorem finish_cmd (c : Code) (s : State) : (finish c s).cmd = s.cmd := rfl
@[simp] theorem finish_phase (c : Code) (s : State) : (finish c s).phase = .finished := rfl
@[simp] theorem finish_op (c : Code) (s : State) : (finish c s).op = s.op := rfl
@[simp] theorem finish_code (c : Code) (s : State) : (finish c s).code = c := rfl
@[simp] theorem finish_ulenReg (c : Code) (s : State) : (finish c s).ulenReg = s.ulenReg := rfl
@[simp] theorem finish_stage (c : Code) (s : State) : (finish c s).stage = s.stage := rfl
@[simp] theorem finish_host (c : Code) (s : State) : (finish c s).host = s.host := rfl

/-! ### the next flag bit (R173) -/

@[simp] theorem nextBit_win (s : State) : (nextBit s).win = s.win := rfl
@[simp] theorem nextBit_cur (s : State) : (nextBit s).cur = s.cur := rfl
@[simp] theorem nextBit_inp (s : State) : (nextBit s).inp = s.inp := rfl
@[simp] theorem nextBit_inLen (s : State) : (nextBit s).inLen = s.inLen := rfl
@[simp] theorem nextBit_out (s : State) : (nextBit s).out = s.out := rfl
@[simp] theorem nextBit_outLen (s : State) : (nextBit s).outLen = s.outLen := rfl
@[simp] theorem nextBit_di (s : State) : (nextBit s).di = s.di := rfl
@[simp] theorem nextBit_flags (s : State) : (nextBit s).flags = s.flags := rfl
@[simp] theorem nextBit_tcnt (s : State) : (nextBit s).tcnt = s.tcnt := rfl
@[simp] theorem nextBit_tokbuf (s : State) : (nextBit s).tokbuf = s.tokbuf := rfl
@[simp] theorem nextBit_tblen (s : State) : (nextBit s).tblen = s.tblen := rfl
@[simp] theorem nextBit_search (s : State) : (nextBit s).search = s.search := rfl
@[simp] theorem nextBit_pp (s : State) : (nextBit s).pp = s.pp := rfl
@[simp] theorem nextBit_ulen (s : State) : (nextBit s).ulen = s.ulen := rfl
@[simp] theorem nextBit_olen (s : State) : (nextBit s).olen = s.olen := rfl
@[simp] theorem nextBit_t (s : State) : (nextBit s).t = s.t + 1 := rfl
@[simp] theorem nextBit_off (s : State) : (nextBit s).off = s.off := rfl
@[simp] theorem nextBit_mlen (s : State) : (nextBit s).mlen = s.mlen := rfl
@[simp] theorem nextBit_i (s : State) : (nextBit s).i = s.i := rfl
@[simp] theorem nextBit_cmd (s : State) : (nextBit s).cmd = s.cmd := rfl
@[simp] theorem nextBit_phase (s : State) : (nextBit s).phase = s.phase := rfl
@[simp] theorem nextBit_op (s : State) : (nextBit s).op = s.op := rfl
@[simp] theorem nextBit_code (s : State) : (nextBit s).code = s.code := rfl
@[simp] theorem nextBit_ulenReg (s : State) : (nextBit s).ulenReg = s.ulenReg := rfl
@[simp] theorem nextBit_stage (s : State) : (nextBit s).stage = if s.t + 1 < Config.chunkTokens then .token else .chunk := rfl
@[simp] theorem nextBit_host (s : State) : (nextBit s).host = s.host := rfl

/-! ### a Match begins (R175) -/

@[simp] theorem matchBegin_win (off len : Nat) (s : State) : (matchBegin off len s).win = s.win := rfl
@[simp] theorem matchBegin_cur (off len : Nat) (s : State) : (matchBegin off len s).cur = s.cur := rfl
@[simp] theorem matchBegin_inp (off len : Nat) (s : State) : (matchBegin off len s).inp = s.inp := rfl
@[simp] theorem matchBegin_inLen (off len : Nat) (s : State) : (matchBegin off len s).inLen = s.inLen := rfl
@[simp] theorem matchBegin_out (off len : Nat) (s : State) : (matchBegin off len s).out = s.out := rfl
@[simp] theorem matchBegin_outLen (off len : Nat) (s : State) : (matchBegin off len s).outLen = s.outLen := rfl
@[simp] theorem matchBegin_di (off len : Nat) (s : State) : (matchBegin off len s).di = s.di := rfl
@[simp] theorem matchBegin_flags (off len : Nat) (s : State) : (matchBegin off len s).flags = s.flags := rfl
@[simp] theorem matchBegin_tcnt (off len : Nat) (s : State) : (matchBegin off len s).tcnt = s.tcnt := rfl
@[simp] theorem matchBegin_tokbuf (off len : Nat) (s : State) : (matchBegin off len s).tokbuf = s.tokbuf := rfl
@[simp] theorem matchBegin_tblen (off len : Nat) (s : State) : (matchBegin off len s).tblen = s.tblen := rfl
@[simp] theorem matchBegin_search (off len : Nat) (s : State) : (matchBegin off len s).search = s.search := rfl
@[simp] theorem matchBegin_pp (off len : Nat) (s : State) : (matchBegin off len s).pp = s.pp + 2 := rfl
@[simp] theorem matchBegin_ulen (off len : Nat) (s : State) : (matchBegin off len s).ulen = s.ulen := rfl
@[simp] theorem matchBegin_olen (off len : Nat) (s : State) : (matchBegin off len s).olen = s.olen := rfl
@[simp] theorem matchBegin_t (off len : Nat) (s : State) : (matchBegin off len s).t = s.t := rfl
@[simp] theorem matchBegin_off (off len : Nat) (s : State) : (matchBegin off len s).off = BitVec.ofNat 10 off := rfl
@[simp] theorem matchBegin_mlen (off len : Nat) (s : State) : (matchBegin off len s).mlen = len := rfl
@[simp] theorem matchBegin_i (off len : Nat) (s : State) : (matchBegin off len s).i = 0 := rfl
@[simp] theorem matchBegin_cmd (off len : Nat) (s : State) : (matchBegin off len s).cmd = s.cmd := rfl
@[simp] theorem matchBegin_phase (off len : Nat) (s : State) : (matchBegin off len s).phase = s.phase := rfl
@[simp] theorem matchBegin_op (off len : Nat) (s : State) : (matchBegin off len s).op = s.op := rfl
@[simp] theorem matchBegin_code (off len : Nat) (s : State) : (matchBegin off len s).code = s.code := rfl
@[simp] theorem matchBegin_ulenReg (off len : Nat) (s : State) : (matchBegin off len s).ulenReg = s.ulenReg := rfl
@[simp] theorem matchBegin_stage (off len : Nat) (s : State) : (matchBegin off len s).stage = s.stage := rfl
@[simp] theorem matchBegin_host (off len : Nat) (s : State) : (matchBegin off len s).host = s.host := rfl

/-! ### one step of a Match copy (R175) -/

@[simp] theorem copyStep_win (s : State) : (copyStep s).win = s.win.write s.cur.toNat (winRead ((s.off.toNat : Int) + (s.i : Int)) s) := rfl
@[simp] theorem copyStep_cur (s : State) : (copyStep s).cur = s.cur + 1 := rfl
@[simp] theorem copyStep_inp (s : State) : (copyStep s).inp = s.inp := rfl
@[simp] theorem copyStep_inLen (s : State) : (copyStep s).inLen = s.inLen := rfl
@[simp] theorem copyStep_out (s : State) : (copyStep s).out = s.out.write s.outLen (winRead ((s.off.toNat : Int) + (s.i : Int)) s) := rfl
@[simp] theorem copyStep_outLen (s : State) : (copyStep s).outLen = s.outLen + 1 := rfl
@[simp] theorem copyStep_di (s : State) : (copyStep s).di = s.di := rfl
@[simp] theorem copyStep_flags (s : State) : (copyStep s).flags = s.flags := rfl
@[simp] theorem copyStep_tcnt (s : State) : (copyStep s).tcnt = s.tcnt := rfl
@[simp] theorem copyStep_tokbuf (s : State) : (copyStep s).tokbuf = s.tokbuf := rfl
@[simp] theorem copyStep_tblen (s : State) : (copyStep s).tblen = s.tblen := rfl
@[simp] theorem copyStep_search (s : State) : (copyStep s).search = s.search := rfl
@[simp] theorem copyStep_pp (s : State) : (copyStep s).pp = s.pp := rfl
@[simp] theorem copyStep_ulen (s : State) : (copyStep s).ulen = s.ulen := rfl
@[simp] theorem copyStep_olen (s : State) : (copyStep s).olen = s.olen + 1 := rfl
@[simp] theorem copyStep_t (s : State) : (copyStep s).t = s.t := rfl
@[simp] theorem copyStep_off (s : State) : (copyStep s).off = s.off := rfl
@[simp] theorem copyStep_mlen (s : State) : (copyStep s).mlen = s.mlen := rfl
@[simp] theorem copyStep_i (s : State) : (copyStep s).i = s.i + 1 := rfl
@[simp] theorem copyStep_cmd (s : State) : (copyStep s).cmd = s.cmd := rfl
@[simp] theorem copyStep_phase (s : State) : (copyStep s).phase = s.phase := rfl
@[simp] theorem copyStep_op (s : State) : (copyStep s).op = s.op := rfl
@[simp] theorem copyStep_code (s : State) : (copyStep s).code = s.code := rfl
@[simp] theorem copyStep_ulenReg (s : State) : (copyStep s).ulenReg = s.ulenReg := rfl
@[simp] theorem copyStep_stage (s : State) : (copyStep s).stage = s.stage := rfl
@[simp] theorem copyStep_host (s : State) : (copyStep s).host = s.host := rfl

/-! ### a token is staged (R142) -/

@[simp] theorem stageToken_win (bit : Bool) (bs : List Byte) (s : State) : (stageToken bit bs s).win = s.win := rfl
@[simp] theorem stageToken_cur (bit : Bool) (bs : List Byte) (s : State) : (stageToken bit bs s).cur = s.cur := rfl
@[simp] theorem stageToken_inp (bit : Bool) (bs : List Byte) (s : State) : (stageToken bit bs s).inp = s.inp := rfl
@[simp] theorem stageToken_inLen (bit : Bool) (bs : List Byte) (s : State) : (stageToken bit bs s).inLen = s.inLen := rfl
@[simp] theorem stageToken_out (bit : Bool) (bs : List Byte) (s : State) : (stageToken bit bs s).out = s.out := rfl
@[simp] theorem stageToken_outLen (bit : Bool) (bs : List Byte) (s : State) : (stageToken bit bs s).outLen = s.outLen := rfl
@[simp] theorem stageToken_di (bit : Bool) (bs : List Byte) (s : State) : (stageToken bit bs s).di = s.di := rfl
@[simp] theorem stageToken_flags (bit : Bool) (bs : List Byte) (s : State) : (stageToken bit bs s).flags = if bit then s.flags ||| (1#8 <<< s.tcnt) else s.flags := rfl
@[simp] theorem stageToken_tcnt (bit : Bool) (bs : List Byte) (s : State) : (stageToken bit bs s).tcnt = s.tcnt + 1 := rfl
@[simp] theorem stageToken_tokbuf (bit : Bool) (bs : List Byte) (s : State) : (stageToken bit bs s).tokbuf = s.tokbuf.writeSeq s.tblen bs := rfl
@[simp] theorem stageToken_tblen (bit : Bool) (bs : List Byte) (s : State) : (stageToken bit bs s).tblen = s.tblen + bs.length := rfl
@[simp] theorem stageToken_search (bit : Bool) (bs : List Byte) (s : State) : (stageToken bit bs s).search = s.search := rfl
@[simp] theorem stageToken_pp (bit : Bool) (bs : List Byte) (s : State) : (stageToken bit bs s).pp = s.pp := rfl
@[simp] theorem stageToken_ulen (bit : Bool) (bs : List Byte) (s : State) : (stageToken bit bs s).ulen = s.ulen := rfl
@[simp] theorem stageToken_olen (bit : Bool) (bs : List Byte) (s : State) : (stageToken bit bs s).olen = s.olen := rfl
@[simp] theorem stageToken_t (bit : Bool) (bs : List Byte) (s : State) : (stageToken bit bs s).t = s.t := rfl
@[simp] theorem stageToken_off (bit : Bool) (bs : List Byte) (s : State) : (stageToken bit bs s).off = s.off := rfl
@[simp] theorem stageToken_mlen (bit : Bool) (bs : List Byte) (s : State) : (stageToken bit bs s).mlen = s.mlen := rfl
@[simp] theorem stageToken_i (bit : Bool) (bs : List Byte) (s : State) : (stageToken bit bs s).i = s.i := rfl
@[simp] theorem stageToken_cmd (bit : Bool) (bs : List Byte) (s : State) : (stageToken bit bs s).cmd = s.cmd := rfl
@[simp] theorem stageToken_phase (bit : Bool) (bs : List Byte) (s : State) : (stageToken bit bs s).phase = s.phase := rfl
@[simp] theorem stageToken_op (bit : Bool) (bs : List Byte) (s : State) : (stageToken bit bs s).op = s.op := rfl
@[simp] theorem stageToken_code (bit : Bool) (bs : List Byte) (s : State) : (stageToken bit bs s).code = s.code := rfl
@[simp] theorem stageToken_ulenReg (bit : Bool) (bs : List Byte) (s : State) : (stageToken bit bs s).ulenReg = s.ulenReg := rfl
@[simp] theorem stageToken_stage (bit : Bool) (bs : List Byte) (s : State) : (stageToken bit bs s).stage = s.stage := rfl
@[simp] theorem stageToken_host (bit : Bool) (bs : List Byte) (s : State) : (stageToken bit bs s).host = s.host := rfl

/-! ### CommitLit (R150) -/

@[simp] theorem commitLit_win (b : Byte) (s : State) : (commitLit b s).win = s.win.write s.cur.toNat b := rfl
@[simp] theorem commitLit_cur (b : Byte) (s : State) : (commitLit b s).cur = s.cur + 1 := rfl
@[simp] theorem commitLit_inp (b : Byte) (s : State) : (commitLit b s).inp = s.inp := rfl
@[simp] theorem commitLit_inLen (b : Byte) (s : State) : (commitLit b s).inLen = s.inLen := rfl
@[simp] theorem commitLit_out (b : Byte) (s : State) : (commitLit b s).out = s.out := rfl
@[simp] theorem commitLit_outLen (b : Byte) (s : State) : (commitLit b s).outLen = s.outLen := rfl
@[simp] theorem commitLit_di (b : Byte) (s : State) : (commitLit b s).di = s.di + 1 := rfl
@[simp] theorem commitLit_flags (b : Byte) (s : State) : (commitLit b s).flags = s.flags := rfl
@[simp] theorem commitLit_tcnt (b : Byte) (s : State) : (commitLit b s).tcnt = s.tcnt := rfl
@[simp] theorem commitLit_tokbuf (b : Byte) (s : State) : (commitLit b s).tokbuf = s.tokbuf := rfl
@[simp] theorem commitLit_tblen (b : Byte) (s : State) : (commitLit b s).tblen = s.tblen := rfl
@[simp] theorem commitLit_search (b : Byte) (s : State) : (commitLit b s).search = s.search := rfl
@[simp] theorem commitLit_pp (b : Byte) (s : State) : (commitLit b s).pp = s.pp := rfl
@[simp] theorem commitLit_ulen (b : Byte) (s : State) : (commitLit b s).ulen = s.ulen := rfl
@[simp] theorem commitLit_olen (b : Byte) (s : State) : (commitLit b s).olen = s.olen := rfl
@[simp] theorem commitLit_t (b : Byte) (s : State) : (commitLit b s).t = s.t := rfl
@[simp] theorem commitLit_off (b : Byte) (s : State) : (commitLit b s).off = s.off := rfl
@[simp] theorem commitLit_mlen (b : Byte) (s : State) : (commitLit b s).mlen = s.mlen := rfl
@[simp] theorem commitLit_i (b : Byte) (s : State) : (commitLit b s).i = s.i := rfl
@[simp] theorem commitLit_cmd (b : Byte) (s : State) : (commitLit b s).cmd = s.cmd := rfl
@[simp] theorem commitLit_phase (b : Byte) (s : State) : (commitLit b s).phase = s.phase := rfl
@[simp] theorem commitLit_op (b : Byte) (s : State) : (commitLit b s).op = s.op := rfl
@[simp] theorem commitLit_code (b : Byte) (s : State) : (commitLit b s).code = s.code := rfl
@[simp] theorem commitLit_ulenReg (b : Byte) (s : State) : (commitLit b s).ulenReg = s.ulenReg := rfl
@[simp] theorem commitLit_stage (b : Byte) (s : State) : (commitLit b s).stage = s.stage := rfl
@[simp] theorem commitLit_host (b : Byte) (s : State) : (commitLit b s).host = s.host := rfl

/-! ### a chunk is opened (R142) -/

@[simp] theorem chunkBegin_win (s : State) : (chunkBegin s).win = s.win := rfl
@[simp] theorem chunkBegin_cur (s : State) : (chunkBegin s).cur = s.cur := rfl
@[simp] theorem chunkBegin_inp (s : State) : (chunkBegin s).inp = s.inp := rfl
@[simp] theorem chunkBegin_inLen (s : State) : (chunkBegin s).inLen = s.inLen := rfl
@[simp] theorem chunkBegin_out (s : State) : (chunkBegin s).out = s.out := rfl
@[simp] theorem chunkBegin_outLen (s : State) : (chunkBegin s).outLen = s.outLen := rfl
@[simp] theorem chunkBegin_di (s : State) : (chunkBegin s).di = s.di := rfl
@[simp] theorem chunkBegin_flags (s : State) : (chunkBegin s).flags = 0 := rfl
@[simp] theorem chunkBegin_tcnt (s : State) : (chunkBegin s).tcnt = 0 := rfl
@[simp] theorem chunkBegin_tokbuf (s : State) : (chunkBegin s).tokbuf = s.tokbuf := rfl
@[simp] theorem chunkBegin_tblen (s : State) : (chunkBegin s).tblen = 0 := rfl
@[simp] theorem chunkBegin_search (s : State) : (chunkBegin s).search = s.search := rfl
@[simp] theorem chunkBegin_pp (s : State) : (chunkBegin s).pp = s.pp := rfl
@[simp] theorem chunkBegin_ulen (s : State) : (chunkBegin s).ulen = s.ulen := rfl
@[simp] theorem chunkBegin_olen (s : State) : (chunkBegin s).olen = s.olen := rfl
@[simp] theorem chunkBegin_t (s : State) : (chunkBegin s).t = s.t := rfl
@[simp] theorem chunkBegin_off (s : State) : (chunkBegin s).off = s.off := rfl
@[simp] theorem chunkBegin_mlen (s : State) : (chunkBegin s).mlen = s.mlen := rfl
@[simp] theorem chunkBegin_i (s : State) : (chunkBegin s).i = s.i := rfl
@[simp] theorem chunkBegin_cmd (s : State) : (chunkBegin s).cmd = s.cmd := rfl
@[simp] theorem chunkBegin_phase (s : State) : (chunkBegin s).phase = s.phase := rfl
@[simp] theorem chunkBegin_op (s : State) : (chunkBegin s).op = s.op := rfl
@[simp] theorem chunkBegin_code (s : State) : (chunkBegin s).code = s.code := rfl
@[simp] theorem chunkBegin_ulenReg (s : State) : (chunkBegin s).ulenReg = s.ulenReg := rfl
@[simp] theorem chunkBegin_stage (s : State) : (chunkBegin s).stage = .token := rfl
@[simp] theorem chunkBegin_host (s : State) : (chunkBegin s).host = s.host := rfl

/-! ### START (R231) -/

@[simp] theorem startOp_win (o : Op) (s : State) : (startOp o s).win = [] := rfl
@[simp] theorem startOp_cur (o : Op) (s : State) : (startOp o s).cur = BitVec.ofNat 10 Config.curInit := rfl
@[simp] theorem startOp_inp (o : Op) (s : State) : (startOp o s).inp = s.inp := rfl
@[simp] theorem startOp_inLen (o : Op) (s : State) : (startOp o s).inLen = s.inLen := rfl
@[simp] theorem startOp_out (o : Op) (s : State) : (startOp o s).out = [] := rfl
@[simp] theorem startOp_outLen (o : Op) (s : State) : (startOp o s).outLen = 0 := rfl
@[simp] theorem startOp_di (o : Op) (s : State) : (startOp o s).di = 0 := rfl
@[simp] theorem startOp_flags (o : Op) (s : State) : (startOp o s).flags = 0 := rfl
@[simp] theorem startOp_tcnt (o : Op) (s : State) : (startOp o s).tcnt = 0 := rfl
@[simp] theorem startOp_tokbuf (o : Op) (s : State) : (startOp o s).tokbuf = s.tokbuf := rfl
@[simp] theorem startOp_tblen (o : Op) (s : State) : (startOp o s).tblen = 0 := rfl
@[simp] theorem startOp_search (o : Op) (s : State) : (startOp o s).search = none := rfl
@[simp] theorem startOp_pp (o : Op) (s : State) : (startOp o s).pp = s.pp := rfl
@[simp] theorem startOp_ulen (o : Op) (s : State) : (startOp o s).ulen = s.ulen := rfl
@[simp] theorem startOp_olen (o : Op) (s : State) : (startOp o s).olen = 0 := rfl
@[simp] theorem startOp_t (o : Op) (s : State) : (startOp o s).t = s.t := rfl
@[simp] theorem startOp_off (o : Op) (s : State) : (startOp o s).off = s.off := rfl
@[simp] theorem startOp_mlen (o : Op) (s : State) : (startOp o s).mlen = s.mlen := rfl
@[simp] theorem startOp_i (o : Op) (s : State) : (startOp o s).i = s.i := rfl
@[simp] theorem startOp_cmd (o : Op) (s : State) : (startOp o s).cmd = s.cmd := rfl
@[simp] theorem startOp_phase (o : Op) (s : State) : (startOp o s).phase = .busy := rfl
@[simp] theorem startOp_op (o : Op) (s : State) : (startOp o s).op = o := rfl
@[simp] theorem startOp_code (o : Op) (s : State) : (startOp o s).code = .ok := rfl
@[simp] theorem startOp_ulenReg (o : Op) (s : State) : (startOp o s).ulenReg = 0 := rfl
@[simp] theorem startOp_stage (o : Op) (s : State) : (startOp o s).stage = .header := rfl
@[simp] theorem startOp_host (o : Op) (s : State) : (startOp o s).host = s.host := rfl

/-! ### CLEAR (R31) -/

@[simp] theorem clear_win (s : State) : (clear s).win = s.win := rfl
@[simp] theorem clear_cur (s : State) : (clear s).cur = s.cur := rfl
@[simp] theorem clear_inp (s : State) : (clear s).inp = s.inp := rfl
@[simp] theorem clear_inLen (s : State) : (clear s).inLen = s.inLen := rfl
@[simp] theorem clear_out (s : State) : (clear s).out = [] := rfl
@[simp] theorem clear_outLen (s : State) : (clear s).outLen = 0 := rfl
@[simp] theorem clear_di (s : State) : (clear s).di = s.di := rfl
@[simp] theorem clear_flags (s : State) : (clear s).flags = s.flags := rfl
@[simp] theorem clear_tcnt (s : State) : (clear s).tcnt = s.tcnt := rfl
@[simp] theorem clear_tokbuf (s : State) : (clear s).tokbuf = s.tokbuf := rfl
@[simp] theorem clear_tblen (s : State) : (clear s).tblen = s.tblen := rfl
@[simp] theorem clear_search (s : State) : (clear s).search = s.search := rfl
@[simp] theorem clear_pp (s : State) : (clear s).pp = s.pp := rfl
@[simp] theorem clear_ulen (s : State) : (clear s).ulen = s.ulen := rfl
@[simp] theorem clear_olen (s : State) : (clear s).olen = s.olen := rfl
@[simp] theorem clear_t (s : State) : (clear s).t = s.t := rfl
@[simp] theorem clear_off (s : State) : (clear s).off = s.off := rfl
@[simp] theorem clear_mlen (s : State) : (clear s).mlen = s.mlen := rfl
@[simp] theorem clear_i (s : State) : (clear s).i = s.i := rfl
@[simp] theorem clear_cmd (s : State) : (clear s).cmd = s.cmd := rfl
@[simp] theorem clear_phase (s : State) : (clear s).phase = .idle := rfl
@[simp] theorem clear_op (s : State) : (clear s).op = s.op := rfl
@[simp] theorem clear_code (s : State) : (clear s).code = .ok := rfl
@[simp] theorem clear_ulenReg (s : State) : (clear s).ulenReg = 0 := rfl
@[simp] theorem clear_stage (s : State) : (clear s).stage = s.stage := rfl
@[simp] theorem clear_host (s : State) : (clear s).host = s.host := rfl

/-! ### Subst (R181) -/

@[simp] theorem subst_win (s : State) : (subst s).win = s.win := by simp only [subst]
@[simp] theorem subst_cur (s : State) : (subst s).cur = s.cur := by simp only [subst]
@[simp] theorem subst_inp (s : State) : (subst s).inp = s.inp := by simp only [subst]
@[simp] theorem subst_inLen (s : State) : (subst s).inLen = s.inLen := by simp only [subst]
@[simp] theorem subst_out (s : State) : (subst s).out = substScan (s.olen + 1 - Config.markLen) 0 s.out := by simp only [subst]
@[simp] theorem subst_outLen (s : State) : (subst s).outLen = s.outLen := by simp only [subst]
@[simp] theorem subst_di (s : State) : (subst s).di = s.di := by simp only [subst]
@[simp] theorem subst_flags (s : State) : (subst s).flags = s.flags := by simp only [subst]
@[simp] theorem subst_tcnt (s : State) : (subst s).tcnt = s.tcnt := by simp only [subst]
@[simp] theorem subst_tokbuf (s : State) : (subst s).tokbuf = s.tokbuf := by simp only [subst]
@[simp] theorem subst_tblen (s : State) : (subst s).tblen = s.tblen := by simp only [subst]
@[simp] theorem subst_search (s : State) : (subst s).search = s.search := by simp only [subst]
@[simp] theorem subst_pp (s : State) : (subst s).pp = s.pp := by simp only [subst]
@[simp] theorem subst_ulen (s : State) : (subst s).ulen = s.ulen := by simp only [subst]
@[simp] theorem subst_olen (s : State) : (subst s).olen = s.olen := by simp only [subst]
@[simp] theorem subst_t (s : State) : (subst s).t = s.t := by simp only [subst]
@[simp] theorem subst_off (s : State) : (subst s).off = s.off := by simp only [subst]
@[simp] theorem subst_mlen (s : State) : (subst s).mlen = s.mlen := by simp only [subst]
@[simp] theorem subst_i (s : State) : (subst s).i = s.i := by simp only [subst]
@[simp] theorem subst_cmd (s : State) : (subst s).cmd = s.cmd := by simp only [subst]
@[simp] theorem subst_phase (s : State) : (subst s).phase = s.phase := by simp only [subst]
@[simp] theorem subst_op (s : State) : (subst s).op = s.op := by simp only [subst]
@[simp] theorem subst_code (s : State) : (subst s).code = s.code := by simp only [subst]
@[simp] theorem subst_ulenReg (s : State) : (subst s).ulenReg = s.ulenReg := by simp only [subst]
@[simp] theorem subst_stage (s : State) : (subst s).stage = s.stage := by simp only [subst]
@[simp] theorem subst_host (s : State) : (subst s).host = s.host := by simp only [subst]

end Sys2Proof.Machine
end

