-- ==== Sys2Proof/Laws/Ops.lean ====
section
/-! SUPPORT. One lemma per shared operation that says once everything it can do. -/

namespace Sys2Proof.Machine

/-! ## Appending to OUT -/

/-- Appending a sequence writes its bytes from OUT_LEN on, moves OUT_LEN past them, and changes nothing else (R12). -/
theorem emitSeq_eq (bs : List Byte) (s : State) :
    emitSeq bs s = { s with out := s.out.writeSeq s.outLen bs, outLen := s.outLen + bs.length } := by
  induction bs generalizing s with
  | nil => rfl
  | cons b bs ih =>
    rw [emitSeq, ih]
    simp only [emit, Memory.writeSeq, List.length_cons, Nat.add_assoc, Nat.add_comm 1]

/-! ## The window -/

/-- A run of WinWrite calls changes the window and the cursor alone (R114). -/
theorem putWinSeq_eq (bs : List Byte) (s : State) :
    putWinSeq bs s =
      { s with win := (putWinSeq bs s).win, cur := s.cur + BitVec.ofNat 10 bs.length } := by
  induction bs generalizing s with
  | nil => simp [putWinSeq]
  | cons b bs ih =>
    rw [putWinSeq, ih]
    simp only [putWin, winWrite, List.length_cons, BitVec.ofNat_add, BitVec.add_assoc]
    rw [BitVec.add_comm (1 : Slot)]
    rfl

/-- What a run of WinWrite calls leaves of each register. -/
@[simp] theorem putWinSeq_cur (bs : List Byte) (s : State) :
    (putWinSeq bs s).cur = s.cur + BitVec.ofNat 10 bs.length := by rw [putWinSeq_eq]
@[simp] theorem putWinSeq_inp (bs : List Byte) (s : State) : (putWinSeq bs s).inp = s.inp := by rw [putWinSeq_eq]
@[simp] theorem putWinSeq_inLen (bs : List Byte) (s : State) : (putWinSeq bs s).inLen = s.inLen := by rw [putWinSeq_eq]
@[simp] theorem putWinSeq_out (bs : List Byte) (s : State) : (putWinSeq bs s).out = s.out := by rw [putWinSeq_eq]
@[simp] theorem putWinSeq_outLen (bs : List Byte) (s : State) : (putWinSeq bs s).outLen = s.outLen := by rw [putWinSeq_eq]
@[simp] theorem putWinSeq_di (bs : List Byte) (s : State) : (putWinSeq bs s).di = s.di := by rw [putWinSeq_eq]
@[simp] theorem putWinSeq_flags (bs : List Byte) (s : State) : (putWinSeq bs s).flags = s.flags := by rw [putWinSeq_eq]
@[simp] theorem putWinSeq_tcnt (bs : List Byte) (s : State) : (putWinSeq bs s).tcnt = s.tcnt := by rw [putWinSeq_eq]
@[simp] theorem putWinSeq_tokbuf (bs : List Byte) (s : State) : (putWinSeq bs s).tokbuf = s.tokbuf := by rw [putWinSeq_eq]
@[simp] theorem putWinSeq_tblen (bs : List Byte) (s : State) : (putWinSeq bs s).tblen = s.tblen := by rw [putWinSeq_eq]
@[simp] theorem putWinSeq_search (bs : List Byte) (s : State) : (putWinSeq bs s).search = s.search := by rw [putWinSeq_eq]
@[simp] theorem putWinSeq_pp (bs : List Byte) (s : State) : (putWinSeq bs s).pp = s.pp := by rw [putWinSeq_eq]
@[simp] theorem putWinSeq_ulen (bs : List Byte) (s : State) : (putWinSeq bs s).ulen = s.ulen := by rw [putWinSeq_eq]
@[simp] theorem putWinSeq_olen (bs : List Byte) (s : State) : (putWinSeq bs s).olen = s.olen := by rw [putWinSeq_eq]
@[simp] theorem putWinSeq_t (bs : List Byte) (s : State) : (putWinSeq bs s).t = s.t := by rw [putWinSeq_eq]
@[simp] theorem putWinSeq_off (bs : List Byte) (s : State) : (putWinSeq bs s).off = s.off := by rw [putWinSeq_eq]
@[simp] theorem putWinSeq_mlen (bs : List Byte) (s : State) : (putWinSeq bs s).mlen = s.mlen := by rw [putWinSeq_eq]
@[simp] theorem putWinSeq_i (bs : List Byte) (s : State) : (putWinSeq bs s).i = s.i := by rw [putWinSeq_eq]
@[simp] theorem putWinSeq_cmd (bs : List Byte) (s : State) : (putWinSeq bs s).cmd = s.cmd := by rw [putWinSeq_eq]
@[simp] theorem putWinSeq_phase (bs : List Byte) (s : State) : (putWinSeq bs s).phase = s.phase := by rw [putWinSeq_eq]
@[simp] theorem putWinSeq_op (bs : List Byte) (s : State) : (putWinSeq bs s).op = s.op := by rw [putWinSeq_eq]
@[simp] theorem putWinSeq_code (bs : List Byte) (s : State) : (putWinSeq bs s).code = s.code := by rw [putWinSeq_eq]
@[simp] theorem putWinSeq_ulenReg (bs : List Byte) (s : State) : (putWinSeq bs s).ulenReg = s.ulenReg := by rw [putWinSeq_eq]
@[simp] theorem putWinSeq_stage (bs : List Byte) (s : State) : (putWinSeq bs s).stage = s.stage := by rw [putWinSeq_eq]
@[simp] theorem putWinSeq_host (bs : List Byte) (s : State) : (putWinSeq bs s).host = s.host := by rw [putWinSeq_eq]

/-- CommitMatch: the input bytes go into the window, `di` moves on (R151). -/
theorem commitMatch_eq (len : Nat) (s : State) :
    commitMatch len s = { putWinSeq (s.inp.slice s.di len) s with di := s.di + len } := by
  simp only [commitMatch, putWinSeq_di]

theorem putWinSeq_wf (bs : List Byte) {s : State} (h : Memory.wf s.win) : Memory.wf (putWinSeq bs s).win := by
  induction bs generalizing s with
  | nil => exact h
  | cons b bs ih => exact ih (Memory.write_wf h _ _)

/-- Every slot the window lists is below 1024 (R21). -/
theorem putWin_bound {b : Byte} {s : State} (h : ∀ c ∈ s.win, c.1 < Config.winSize) :
    ∀ c ∈ (putWin b s).win, c.1 < Config.winSize := by
  intro c hc
  rcases Memory.mem_write hc with rfl | hc
  · exact s.cur.isLt
  · exact h c hc

theorem putWinSeq_bound (bs : List Byte) {s : State} (h : ∀ c ∈ s.win, c.1 < Config.winSize) :
    ∀ c ∈ (putWinSeq bs s).win, c.1 < Config.winSize := by
  induction bs generalizing s with
  | nil => exact h
  | cons b bs ih => exact ih (putWin_bound h)

/-- WinRead of a natural index reduces it modulo 1024 (R112). -/
theorem winRead_nat (a : Nat) (s : State) : winRead (a : Int) s = s.win.read (a % Config.winSize) := by
  simp only [winRead]
  congr 1

/-! ## Subst -/

theorem substScan_wf (k p : Nat) {m : Memory} (h : Memory.wf m) : Memory.wf (substScan k p m) := by
  induction k generalizing p m with
  | zero => exact h
  | succ k ih =>
    rw [substScan]
    split
    · exact ih _ (Memory.write_wf h _ _)
    · exact ih _ h

/-- Subst lists no address beyond the scanned output (R181). -/
theorem substScan_bound (k p : Nat) {m : Memory} {n : Nat} (hn : k + p + Config.markLen ≤ n + 1)
    (h : ∀ c ∈ m, c.1 < n) : ∀ c ∈ substScan k p m, c.1 < n := by
  induction k generalizing p m with
  | zero => exact h
  | succ k ih =>
    rw [substScan]
    split
    · refine ih (p + 1) (by omega) fun c hc => ?_
      rcases Memory.mem_write hc with rfl | hc
      · simp only [Config.markLen, Config.markAt] at hn ⊢; omega
      · exact h c hc
    · exact ih (p + 1) (by omega) h

/-! ## Ends of an operation -/

/-- An early end sets CODE and PHASE; OUT changes only with SUBST_ON_TRUNC (R177, R178, R209). -/
theorem endEarly_eq (p : Params) (c : Code) (s : State) :
    endEarly p c s = { s with phase := .finished, code := c,
                              out := if p.substOnTrunc then (subst s).out else s.out } := by
  unfold endEarly finish
  split <;> simp [subst]

/-- With R8's defaults an early end is `finish` alone. -/
theorem endEarly_default (c : Code) (s : State) : endEarly Params.default c s = finish c s := by
  simp [endEarly]

/-- The three ways DECOMPRESS ends on bytes that are no instruction (R171, R177, R178). -/
theorem stopOn_default (e : DecodeError) (s : State) :
    stopOn Params.default e s = match stopCode e with
      | none => s
      | some c => finish c s := by
  cases e <;> rfl

/-! ## The copy of a Match -/

/-- The copy loop changes the window, the cursor, OUT, OUT_LEN, `olen` and `i` alone: `k` bytes, all `n` of them without
CLIP_AT_ULEN (R175, R179). -/
theorem copyLoop_eq (p : Params) (n : Nat) (s : State) :
    ∃ w o k, k ≤ n ∧ (p.clipAtUlen = false → k = n) ∧
      copyLoop p n s = { s with win := w, cur := s.cur + BitVec.ofNat 10 k, out := o,
                                outLen := s.outLen + k, olen := s.olen + k, i := s.i + k } := by
  induction n generalizing s with
  | zero => exact ⟨s.win, s.out, 0, Nat.le_refl _, fun _ => rfl, by simp [copyLoop]⟩
  | succ n ih =>
    rw [copyLoop]
    split
    · next h =>
      refine ⟨s.win, s.out, 0, Nat.zero_le _, fun hp => ?_, by simp⟩
      simp [hp] at h
    · obtain ⟨w, o, k, hk, hc, he⟩ := ih (copyStep s)
      refine ⟨w, o, k + 1, by omega, fun hp => by rw [hc hp], ?_⟩
      rw [he]
      simp only [copyStep, putWin, winWrite, emit, BitVec.ofNat_add, BitVec.add_assoc, Nat.add_assoc,
        Nat.add_comm 1]
      rw [BitVec.add_comm (1 : Slot)]
      rfl

/-- What every step of the copy keeps, the whole copy keeps. -/
theorem copyLoop_keeps {P : State → Prop} (hstep : ∀ s, P s → P (copyStep s)) (p : Params) (n : Nat) {s : State}
    (h : P s) : P (copyLoop p n s) := by
  induction n generalizing s with
  | zero => exact h
  | succ n ih =>
    rw [copyLoop]
    split
    · exact h
    · exact ih (hstep s h)

/-- With CLIP_AT_ULEN a copy that starts below `ulen` never passes it (R8, D9). -/
theorem copyLoop_clip {p : Params} (hp : p.clipAtUlen = true) (n : Nat) {s : State} (h : s.olen ≤ s.ulen.toNat) :
    (copyLoop p n s).olen ≤ s.ulen.toNat := by
  induction n generalizing s with
  | zero => exact h
  | succ n ih =>
    rw [copyLoop]
    split
    · exact h
    · next hlt =>
      simp only [hp, Bool.true_and, decide_eq_true_eq, Nat.not_le] at hlt
      exact ih (s := copyStep s) hlt

end Sys2Proof.Machine
end

