-- ==== Sys2Proof/Laws/Exec.lean ====
section
/-! SUPPORT. What each instruction's meaning can answer, one inversion lemma per meaning; and that `exec` is `execWith` at
the default parameters. -/

namespace Sys2Proof.Machine

theorem exec_eq_execWith (i : Instr) (s : State) : exec i s = execWith Params.default i s := by
  cases i <;> rfl

theorem step_eq_stepWith (s : State) : step s = stepWith Params.default s := by
  have h : exec = execWith Params.default := by
    funext i s
    exact exec_eq_execWith i s
  simp only [step, stepWith, h]

/-! ## The tests of the sequencer and of the meanings -/

@[simp] theorem payloadShort_iff (k : Nat) (s : State) : payloadShort k s = true ↔ s.inCount - s.pp < k := by
  simp [payloadShort]

@[simp] theorem outputDone_iff (s : State) : outputDone s = true ↔ s.ulen.toNat ≤ s.olen := by
  simp [outputDone]

@[simp] theorem chunkOver_iff (s : State) : chunkOver s = true ↔ s.inCount ≤ s.di ∨ Config.chunkTokens ≤ s.tcnt := by
  simp [chunkOver]

@[simp] theorem stagingRoom_iff (k : Nat) (s : State) :
    stagingRoom k s = true ↔ s.tcnt < Config.chunkTokens ∧ s.tblen + k ≤ Config.tokbufSize := by
  simp [stagingRoom]

@[simp] theorem inputRoom_iff (k : Nat) (s : State) : inputRoom k s = true ↔ s.di + k ≤ s.inCount := by
  simp [inputRoom]

@[simp] theorem exceeds_none (need : Nat) : exceeds none need = false := rfl

@[simp] theorem exceeds_some (c need : Nat) : exceeds (some c) need = true ↔ c < need := by simp [exceeds]

theorem wf_matchTok (off len : Nat) : (Instr.matchTok off len).wf = true ↔ off ≤ 1023 ∧ 3 ≤ len ∧ len ≤ 66 := by
  simp [Instr.wf, offsetOk, lengthOk]

/-! ## The two sides of a stored object -/

theorem running_compress {s : State} {a b : Host.Outcome State Fault Refusal} (h : s.phase = .busy)
    (ho : s.op = .compress) : running s a b = a := by simp [running, h, ho]

theorem running_decompress {s : State} {a b : Host.Outcome State Fault Refusal} (h : s.phase = .busy)
    (ho : s.op = .decompress) : running s a b = b := by simp [running, h, ho]

theorem running_not_busy {s : State} {a b : Host.Outcome State Fault Refusal} (h : s.phase ≠ .busy) :
    running s a b = .next s := by
  unfold running
  split
  · next hb => exact absurd hb h
  · rfl

/-- A stored object's meaning is one of: nothing outside an operation, its encoder side, its decoder side. -/
theorem running_cases {s t : State} {a b : Host.Outcome State Fault Refusal} (h : running s a b = .next t) :
    (s.phase ≠ .busy ∧ t = s) ∨ (s.phase = .busy ∧ s.op = .compress ∧ a = .next t) ∨
    (s.phase = .busy ∧ s.op = .decompress ∧ b = .next t) := by
  by_cases hb : s.phase = .busy
  · cases ho : s.op
    · rw [running_compress hb ho] at h; exact .inr (.inl ⟨hb, rfl, h⟩)
    · rw [running_decompress hb ho] at h; exact .inr (.inr ⟨hb, rfl, h⟩)
  · rw [running_not_busy hb] at h
    exact .inl ⟨hb, by injection h with h; exact h.symm⟩

/-! ## Decoder sides -/

/-- HeaderParse ends ERR_HEADER, or takes the field and is refused or goes on (R171, R205). -/
theorem headerParse_cases {p : Params} {n : Word32} {s t : State} (h : headerParse p n s = .next t) :
    (s.inCount < Config.hdrLen ∧ t = finish .errHeader s) ∨
    (Config.hdrLen ≤ s.inCount ∧
      t = { s with ulen := n, ulenReg := n, pp := Config.hdrLen, stage := .chunk } ∧
      exceeds p.outCap (decompressBound n.toNat) = false) ∨
    (Config.hdrLen ≤ s.inCount ∧
      t = finish .refused { s with ulen := n, ulenReg := n, pp := Config.hdrLen, stage := .chunk } ∧
      exceeds p.outCap (decompressBound n.toNat) = true) := by
  unfold headerParse at h
  split at h
  · next hl => injection h with h; exact .inl ⟨hl, h.symm⟩
  · next hl =>
    split at h
    · next hx => injection h with h; exact .inr (.inr ⟨Nat.le_of_not_lt hl, h.symm, hx⟩)
    · next hx => injection h with h; exact .inr (.inl ⟨Nat.le_of_not_lt hl, h.symm, by simpa using hx⟩)

/-- FlagFetch takes the byte, or ends ERR_EXHAUSTED (R172, R178). -/
theorem flagFetch_cases {p : Params} {f : Byte} {s t : State} (h : flagFetch p f s = .next t) :
    (s.pp < s.inCount ∧ t = { s with flags := f, pp := s.pp + 1, t := 0, stage := .token }) ∨
    (s.inCount ≤ s.pp ∧ t = endEarly p .errExhausted s) := by
  unfold flagFetch payloadShort at h
  split at h
  · next hl => injection h with h; exact .inr ⟨by simp at hl; omega, h.symm⟩
  · next hl => injection h with h; exact .inl ⟨by simp at hl; omega, h.symm⟩

/-- ExecLit executes the byte, or ends ERR_EXHAUSTED (R174, R178). -/
theorem litDecode_cases {p : Params} {b : Byte} {s t : State} (h : litDecode p b s = .next t) :
    (s.pp < s.inCount ∧
      t = nextBit { s with pp := s.pp + 1, win := s.win.write s.cur.toNat b, cur := s.cur + 1,
                           out := s.out.write s.outLen b, outLen := s.outLen + 1, olen := s.olen + 1 }) ∨
    (s.inCount ≤ s.pp ∧ t = endEarly p .errExhausted s) := by
  unfold litDecode payloadShort at h
  split at h
  · next hl => injection h with h; exact .inr ⟨by simp at hl; omega, h.symm⟩
  · next hl => injection h with h; exact .inl ⟨by simp at hl; omega, h.symm⟩

/-- ExecMatch copies, or ends TRUNCATED (R175, R177). -/
theorem matchDecode_cases {p : Params} {off len : Nat} {s t : State} (h : matchDecode p off len s = .next t) :
    (s.pp + 2 ≤ s.inCount ∧ t = nextBit (copyLoop p len (matchBegin off len s))) ∨
    (s.inCount < s.pp + 2 ∧ t = endEarly p .truncated s) := by
  unfold matchDecode payloadShort at h
  split at h
  · next hl => injection h with h; exact .inr ⟨by simp at hl; omega, h.symm⟩
  · next hl => injection h with h; exact .inl ⟨by simp at hl; omega, h.symm⟩

/-! ## Encoder sides -/

/-- ChunkFlush appends the flag byte and the staged bytes (R152). -/
theorem chunkFlush_cases {f : Byte} {s t : State} (h : chunkFlush f s = .next t) :
    s.tblen ≤ Config.tokbufSize ∧ t = { emitSeq (f :: s.tokbuf.slice 0 s.tblen) s with stage := .chunk } := by
  unfold chunkFlush at h
  split at h
  · next hl => injection h with h; exact ⟨hl, h.symm⟩
  · cases h

/-- The Literal arm of ChunkBuild stages and commits one byte (R142, R150). -/
theorem litEncode_cases {b : Byte} {s t : State} (h : litEncode b s = .next t) :
    s.tcnt < Config.chunkTokens ∧ s.tblen + 1 ≤ Config.tokbufSize ∧ s.di + 1 ≤ s.inCount ∧
      t = commitLit b (stageToken true [b] s) := by
  unfold litEncode stagingRoom inputRoom at h
  split at h
  · cases h
  · next h1 =>
    split at h
    · cases h
    · next h2 =>
      injection h with h
      simp only [Bool.not_eq_true', Bool.and_eq_false_iff, decide_eq_false_iff_not] at h1 h2
      exact ⟨by omega, by omega, by omega, h.symm⟩

/-- The Match arm of ChunkBuild stages two bytes and commits `len`, or raises ERR_ASSERT (R121, R142, R151). -/
theorem matchEncode_cases {off len : Nat} {s t : State} (h : matchEncode off len s = .next t) :
    ((Instr.matchTok off len).wf = true ∧ s.tcnt < Config.chunkTokens ∧ s.tblen + 2 ≤ Config.tokbufSize ∧
      s.di + len ≤ s.inCount ∧ t = commitMatch len (stageToken false (matchBytes off len) s)) ∨
    ((Instr.matchTok off len).wf = false ∧ t = finish .errAssert s) := by
  unfold matchEncode encMatch at h
  by_cases hw : (offsetOk off && lengthOk len) = true
  · simp only [hw, if_true] at h
    unfold stagingRoom inputRoom at h
    split at h
    · cases h
    · next h1 =>
      split at h
      · cases h
      · next h2 =>
        injection h with h
        simp only [Bool.not_eq_true', Bool.and_eq_false_iff, decide_eq_false_iff_not] at h1 h2
        exact .inl ⟨hw, by omega, by omega, by omega, h.symm⟩
  · simp only [hw] at h
    injection h with h
    exact .inr ⟨by simpa [Instr.wf] using hw, h.symm⟩

/-! ## Commands -/

/-- CLEAR acts while FINISHED and is ignored otherwise (R31). -/
theorem meaningClear_eq (s : State) :
    meaningClear s = .next (if s.phase = .finished then clear s else s) := by
  unfold meaningClear
  cases h : s.phase <;> simp

/-- START COMPRESS begins, is refused at once for want of capacity, or is ignored while BUSY (R31, R205). -/
theorem meaningCompress_eq (p : Params) (s : State) :
    meaningCompress p s = .next (if s.phase = .busy then s
      else if exceeds p.outCap (compressBound s.inCount) then finish .refused (startOp .compress s)
      else startOp .compress s) := by
  unfold meaningCompress
  cases h : s.phase <;> simp <;> split <;> rfl

/-- START DECOMPRESS begins, or is ignored while BUSY (R31). -/
theorem meaningDecompress_eq (s : State) :
    meaningDecompress s = .next (if s.phase = .busy then s else startOp .decompress s) := by
  unfold meaningDecompress
  cases h : s.phase <;> simp

end Sys2Proof.Machine
end

