-- ==== Sys2Proof/Laws/Fetch.lean ====
section
/-! SUPPORT. What is fetched at each position of the container, and what one step is in each place of the sequencer. -/

namespace Sys2Proof.Machine

/-! ## The bytes at a position -/

theorem inBytes_one (s : State) (a : Nat) : inBytes s a 1 = if a < s.inCount then [s.inAt a] else [] := by
  unfold inBytes Memory.slice State.inAt
  split
  · next h => rw [show min 1 (s.inCount - a) = 1 by omega]; rfl
  · next h => rw [show min 1 (s.inCount - a) = 0 by omega]; rfl

theorem inBytes_two (s : State) (a : Nat) (h : a + 2 ≤ s.inCount) :
    inBytes s a 2 = [s.inAt a, s.inAt (a + 1)] := by
  unfold inBytes Memory.slice State.inAt
  rw [show min 2 (s.inCount - a) = 2 by omega]; rfl

theorem inBytes_length (s : State) (a k : Nat) : (inBytes s a k).length = min k (s.inCount - a) := by
  simp [inBytes]

/-- A flag byte is fetched while a payload byte remains (R172, R178). -/
theorem fetch_flag (p : Params) (s : State) :
    fetch p .flag s = if s.pp < s.inCount then .ok (.flag (s.inAt s.pp)) else .error .noFlagByte := by
  simp only [fetch, fetchBytes, Position.maxBytes, inBytes_one, decode]
  by_cases h : s.pp < s.inCount
  · simp only [if_pos h]; rfl
  · simp only [if_neg h]; rfl

/-- A Literal byte is fetched while a payload byte remains (R122, R178). -/
theorem fetch_literal (p : Params) (s : State) :
    fetch p .literal s = if s.pp < s.inCount then .ok (.lit (s.inAt s.pp)) else .error .noLiteralByte := by
  simp only [fetch, fetchBytes, Position.maxBytes, inBytes_one, decode]
  by_cases h : s.pp < s.inCount
  · simp only [if_pos h]; rfl
  · simp only [if_neg h]; rfl

/-- A Match is fetched while two payload bytes remain; otherwise the input is truncated (R123). -/
theorem fetch_match (p : Params) (s : State) :
    fetch p .matchTok s =
      if s.pp + 2 ≤ s.inCount then
        .ok (.matchTok (matchOffset (s.inAt s.pp) (s.inAt (s.pp + 1))) (matchLength (s.inAt (s.pp + 1))))
      else .error .shortMatch := by
  simp only [fetch, fetchBytes, Position.maxBytes, decode]
  by_cases h : s.pp + 2 ≤ s.inCount
  · rw [if_pos h, inBytes_two s _ h]; rfl
  · rw [if_neg h]
    have hl : (inBytes s s.pp 2).length < 2 := by rw [inBytes_length]; omega
    match inBytes s s.pp 2, hl with
    | [], _ => rfl
    | [_], _ => rfl

/-- Bytes that decode as a header are at least 16, and with STRICT_MAGIC hold the three magics (R88, R171). -/
theorem decodeHeader_ok {p : Params} {bs rest : List Byte} {i : Instr} (h : decodeHeader p bs = .ok (i, rest)) :
    Config.hdrLen ≤ bs.length ∧ i = .header (headerField bs 2) ∧ rest = bs.drop Config.hdrLen ∧
      (p.strictMagic = true →
        headerField bs 0 = Config.magicA ∧ headerField bs 1 = Config.magicB ∧ headerField bs 3 = Config.magicC) := by
  unfold decodeHeader at h
  by_cases h0 : bs.length < Config.hdrLen
  · rw [if_pos h0] at h; cases h
  rw [if_neg h0] at h
  by_cases h1 : (p.strictMagic && headerField bs 0 != Config.magicA) = true
  · rw [if_pos h1] at h; cases h
  rw [if_neg h1] at h
  by_cases h2 : (p.strictMagic && headerField bs 1 != Config.magicB) = true
  · rw [if_pos h2] at h; cases h
  rw [if_neg h2] at h
  by_cases h3 : (p.strictMagic && headerField bs 3 != Config.magicC) = true
  · rw [if_pos h3] at h; cases h
  rw [if_neg h3] at h
  injection h with h
  injection h with hi hr
  refine ⟨Nat.le_of_not_lt h0, hi.symm, hr.symm, fun hp => ?_⟩
  simp only [hp, Bool.true_and, bne_iff_ne, ne_eq, Decidable.not_not] at h1 h2 h3
  exact ⟨h1, h2, h3⟩

/-- What a header fetch answers is a HEADER, and then at least 16 bytes are there (R171). -/
theorem fetch_header_ok {p : Params} {s : State} {i : Instr} (h : fetch p .header s = .ok i) :
    Config.hdrLen ≤ s.inCount ∧ i = .header (headerField (inBytes s 0 16) 2) := by
  simp only [fetch, fetchBytes, Position.maxBytes, decode] at h
  cases hd : decodeHeader p (inBytes s 0 16) with
  | error e => rw [hd] at h; cases h
  | ok r =>
    rw [hd] at h
    injection h with h
    obtain ⟨h1, h2, _, _⟩ := decodeHeader_ok (i := r.1) (rest := r.2) hd
    rw [inBytes_length] at h1
    exact ⟨by simp only [Config.hdrLen] at h1 ⊢; omega, by rw [← h, h2]⟩

/-- Bytes that are no header end DECOMPRESS with ERR_HEADER, whichever test fires (R171, R208). -/
theorem fetch_header_error {p : Params} {s : State} {e : DecodeError} (h : fetch p .header s = .error e) :
    stopOn p e s = finish .errHeader s := by
  simp only [fetch, fetchBytes, decode] at h
  cases hd : decodeHeader p (inBytes s 0 (Position.maxBytes .header)) with
  | ok r => rw [hd] at h; cases h
  | error e' =>
    rw [hd] at h
    injection h with h
    subst h
    unfold decodeHeader at hd
    generalize inBytes s 0 (Position.maxBytes .header) = bs at hd
    by_cases h0 : bs.length < Config.hdrLen
    · rw [if_pos h0] at hd; injection hd with hd; subst hd; rfl
    rw [if_neg h0] at hd
    by_cases h1 : (p.strictMagic && headerField bs 0 != Config.magicA) = true
    · rw [if_pos h1] at hd; injection hd with hd; subst hd; rfl
    rw [if_neg h1] at hd
    by_cases h2 : (p.strictMagic && headerField bs 1 != Config.magicB) = true
    · rw [if_pos h2] at hd; injection hd with hd; subst hd; rfl
    rw [if_neg h2] at hd
    by_cases h3 : (p.strictMagic && headerField bs 3 != Config.magicC) = true
    · rw [if_pos h3] at hd; injection hd with hd; subst hd; rfl
    rw [if_neg h3] at hd
    cases hd

/-! ## The places of the sequencer -/

theorem step_alone {s : State} (h : s.alone = true) : step s = sequencerStep Params.default exec s := by
  simp only [State.alone, Bool.and_eq_true, Option.isNone_iff_eq_none, List.isEmpty_iff] at h
  simp only [step, stepBy, h.1, h.2]

theorem step_command {s : State} {v : Byte} (h : s.cmd = some v) :
    step s = commandStep Params.default exec v { s with cmd := none } := by
  simp only [step, stepBy, h]

theorem step_host {s : State} {e : HostEvent} {es : List HostEvent} (h : s.cmd = none) (hh : s.host = e :: es) :
    step s = hostStep Params.default exec e s := by
  simp only [step, stepBy, h, hh]

theorem sequencer_decompress {p : Params} {ex : Instr → State → Host.Outcome State Fault Refusal} {s : State}
    (h : s.phase = .busy) (ho : s.op = .decompress) : sequencerStep p ex s = decompressStep p ex s := by
  simp only [sequencerStep, h, ho]

theorem sequencer_compress {p : Params} {ex : Instr → State → Host.Outcome State Fault Refusal} {s : State}
    (h : s.phase = .busy) (ho : s.op = .compress) : sequencerStep p ex s = compressStep p ex s := by
  simp only [sequencerStep, h, ho]

theorem sequencer_idle {p : Params} {ex : Instr → State → Host.Outcome State Fault Refusal} {s : State}
    (h : s.phase ≠ .busy) : sequencerStep p ex s = .next s := by
  unfold sequencerStep
  split
  · next hb => exact absurd hb h
  · rfl

/-! ## The search -/

/-- One trial narrows the candidates, writes at most one hypothetical byte, and confirms one more byte (R145, R146). -/
theorem searchExtend_cases {s : State} {q q' : Search} (h : searchExtend s q = some q') :
    q.len < maxLen s ∧ narrow s q ≠ [] ∧ q' = { hyp := hypWrite s q, cands := narrow s q, len := q.len + 1 } := by
  unfold searchExtend at h
  split at h
  · next hl =>
    split at h
    · cases h
    · next c cs hc =>
      injection h with h
      exact ⟨hl, by simp [hc], by rw [hc, ← h]⟩
  · cases h

/-- A search that ends is out of length or out of candidates (R146). -/
theorem searchExtend_none {s : State} {q : Search} (h : searchExtend s q = none) :
    maxLen s ≤ q.len ∨ narrow s q = [] := by
  unfold searchExtend at h
  split at h
  · split at h
    · next hc => exact .inr hc
    · cases h
  · next hl => exact .inl (Nat.le_of_not_lt hl)

/-- A search begins with nothing confirmed (R149). -/
@[simp] theorem searchBegin_len (s : State) : (searchBegin s).len = 0 := by simp only [searchBegin]

@[simp] theorem searchBegin_cands (s : State) : (searchBegin s).cands = initialCands s := by simp only [searchBegin]

@[simp] theorem searchBegin_hyp (s : State) : (searchBegin s).hyp = s.win := by simp only [searchBegin]

/-- Every candidate of a narrowed set was a candidate (R145: "order kept"). -/
theorem narrow_sublist (s : State) (q : Search) : (narrow s q).Sublist q.cands := List.filter_sublist

theorem initialCands_sublist (s : State) : (initialCands s).Sublist (scanOrder s) := by
  unfold initialCands
  exact List.filter_sublist

/-- Every slot of the scan order is a slot (R144). -/
theorem scanOrder_bound {s : State} {c : Nat} (h : c ∈ scanOrder s) : c < Config.winSize := by
  unfold scanOrder at h
  obtain ⟨d, _, rfl⟩ := List.mem_map.1 h
  exact Nat.mod_lt _ (by decide)

end Sys2Proof.Machine
end

