-- ==== Sys2Proof/Laws/PerInstr.lean ====
section
/-! SUPPORT. Facts about every instruction as syntax, one lemma per constructor. -/

namespace Sys2Proof.Laws.ByteCount

open Sys2Proof Sys2Proof.Machine

/-- An instruction's encoding is as long as the opcode table says: 16 bytes for HEADER, 2 for MATCH, 1 for the rest (R81,
R83, R84, R85, R92), which is the number the fetch reads at its position. -/
def Statement (i : Instr) : Prop := (encode i).length = Position.maxBytes i.position

theorem header (n : Word32) : Statement (.header n) := rfl
theorem flag (f : Byte) : Statement (.flag f) := rfl
theorem lit (b : Byte) : Statement (.lit b) := rfl
theorem matchTok (off len : Nat) : Statement (.matchTok off len) := rfl
theorem cmdClear : Statement .cmdClear := rfl
theorem cmdCompress : Statement .cmdCompress := rfl
theorem cmdDecompress : Statement .cmdDecompress := rfl

end Sys2Proof.Laws.ByteCount
end

