-- ==== Sys2Proof/Laws/Step.lean ====
section
/-! SUPPORT. What one step can do: a command, a move of the host, or one decision of the sequencer; and what each of these
answers. -/

namespace Sys2Proof.Machine

/-! ## One step -/

theorem stepWith_alone {p : Params} {s : State} (h : s.alone = true) :
    stepWith p s = sequencerStep p (execWith p) s := by
  simp only [State.alone, Bool.and_eq_true, Option.isNone_iff_eq_none, List.isEmpty_iff] at h
  simp only [stepWith, stepBy, h.1, h.2]

theorem stepWith_host {p : Params} {s : State} {e : HostEvent} {es : List HostEvent} (h : s.cmd = none)
    (hh : s.host = e :: es) : stepWith p s = hostStep p (execWith p) e s := by
  simp only [stepWith, stepBy, h, hh]

/-- A step takes the value in CMD, or makes or awaits the host's next move, or lets the sequencer step (log entry 4). -/
theorem step_cases {s t : State} (h : step s = .next t) :
    (∃ v, s.cmd = some v ∧ commandStep Params.default exec v { s with cmd := none } = .next t) ∨
    (s.cmd = none ∧ s.host = [] ∧ sequencerStep Params.default exec s = .next t) ∨
    (∃ e es, s.cmd = none ∧ s.host = e :: es ∧ hostStep Params.default exec e s = .next t) := by
  unfold step stepBy at h
  split at h
  · next v hv => exact .inl ⟨v, hv, h⟩
  · next hc =>
    split at h
    · next he => exact .inr (.inl ⟨hc, he, h⟩)
    · next e es he => exact .inr (.inr ⟨e, es, hc, he, h⟩)

/-! ## A command -/

/-- What a value in CMD does with the default parameters: CLEAR and the two STARTs where they are accepted, and otherwise
nothing (R31, R92). -/
theorem commandStep_default (v : Byte) (s : State) :
    commandStep Params.default exec v s = .next (
      if v = 0x00 then (if s.phase = .finished then clear s else s)
      else if v = 0x01 then (if s.phase = .busy then s else startOp .compress s)
      else if v = 0x02 then (if s.phase = .busy then s else startOp .decompress s)
      else s) := by
  unfold commandStep decode decodeCommand
  dsimp only
  by_cases h0 : v = 0x00
  · rw [if_pos h0, if_pos h0]
    exact meaningClear_eq s
  rw [if_neg h0, if_neg h0]
  by_cases h1 : v = 0x01
  · rw [if_pos h1, if_pos h1]
    exact meaningCompress_eq Params.default s
  rw [if_neg h1, if_neg h1]
  by_cases h2 : v = 0x02
  · rw [if_pos h2, if_pos h2]
    exact meaningDecompress_eq s
  rw [if_neg h2, if_neg h2]

/-- While BUSY every value in CMD is ignored (R31, D20). -/
theorem commandStep_busy {v : Byte} {s : State} (h : s.phase = .busy) :
    commandStep Params.default exec v s = .next s := by
  rw [commandStep_default]
  simp only [h, if_true, reduceCtorEq, if_false, ite_self]

/-! ## A move of the host -/

/-- A move of the host that answers a next state: the sequencer steps, or the wait is over, or CMD, IN or IN_LEN is written,
or the block is reset. -/
theorem hostStep_cases {e : HostEvent} {s t : State} (h : hostStep Params.default exec e s = .next t) :
    (e = .pause ∧ sequencerStep Params.default exec (popHost s) = .next t) ∨
    (e = .await ∧ s.phase = .busy ∧ sequencerStep Params.default exec s = .next t) ∨
    (e = .await ∧ s.phase ≠ .busy ∧ t = popHost s) ∨
    (∃ v, e = .writeCmd v ∧ t = if s.phase = .busy then popHost s else { popHost s with cmd := some v }) ∨
    (∃ a v, e = .writeIn a v ∧ s.phase ≠ .busy ∧ a < 2 ^ 32 - 1 ∧ t = { popHost s with inp := s.inp.write a v }) ∨
    (∃ n, e = .writeInLen n ∧ s.phase ≠ .busy ∧ t = { popHost s with inLen := n }) ∨
    (e = .reset ∧ t = hardReset (popHost s)) := by
  cases e with
  | pause => exact .inl ⟨rfl, h⟩
  | await =>
    unfold hostStep at h
    dsimp only at h
    by_cases hb : s.phase = .busy
    · rw [if_pos hb] at h; exact .inr (.inl ⟨rfl, hb, h⟩)
    · rw [if_neg hb] at h; injection h with h; exact .inr (.inr (.inl ⟨rfl, hb, h.symm⟩))
  | writeCmd v =>
    refine .inr (.inr (.inr (.inl ⟨v, rfl, ?_⟩)))
    unfold hostStep hostMove at h
    dsimp only at h
    by_cases hb : s.phase = .busy
    · rw [if_pos (show (popHost s).phase = .busy from hb)] at h
      injection h with h
      rw [if_pos hb, h]
    · rw [if_neg (show (popHost s).phase ≠ .busy from hb)] at h
      injection h with h
      rw [if_neg hb, h]
  | writeIn a v =>
    refine .inr (.inr (.inr (.inr (.inl ⟨a, v, rfl, ?_⟩))))
    unfold hostStep hostMove at h
    dsimp only at h
    by_cases hb : s.phase = .busy
    · rw [if_pos (show (popHost s).phase = .busy from hb)] at h; cases h
    · rw [if_neg (show (popHost s).phase ≠ .busy from hb)] at h
      by_cases ha : inAddressOk Params.default a = true
      · rw [if_pos ha] at h
        injection h with h
        exact ⟨hb, by simpa [inAddressOk] using ha, h.symm⟩
      · rw [if_neg ha] at h; cases h
  | writeInLen n =>
    refine .inr (.inr (.inr (.inr (.inr (.inl ⟨n, rfl, ?_⟩)))))
    unfold hostStep hostMove at h
    dsimp only at h
    by_cases hb : s.phase = .busy
    · rw [if_pos (show (popHost s).phase = .busy from hb)] at h; cases h
    · rw [if_neg (show (popHost s).phase ≠ .busy from hb), exceeds_none, if_neg (by decide)] at h
      injection h with h
      exact ⟨hb, h.symm⟩
  | reset =>
    injection h with h
    exact .inr (.inr (.inr (.inr (.inr (.inr ⟨rfl, h.symm⟩)))))

/-! ## One decision of DECOMPRESS -/

/-- One step of DECOMPRESS past its header, with the default parameters: the output is complete, the payload has ended too
early, or the next instruction runs (R172 to R178). -/
theorem decompressStep_cases {s t : State} (hs : s.stage ≠ .header)
    (h : decompressStep Params.default exec s = .next t) :
    (s.ulen.toNat ≤ s.olen ∧ t = complete s) ∨
    (s.olen < s.ulen.toNat ∧ (t = finish .errExhausted s ∨ t = finish .truncated s)) ∨
    (s.olen < s.ulen.toNat ∧ s.stage = .chunk ∧ s.pp < s.inCount ∧ exec (.flag (s.inAt s.pp)) s = .next t) ∨
    (s.olen < s.ulen.toNat ∧ s.stage = .token ∧ s.pp < s.inCount ∧ exec (.lit (s.inAt s.pp)) s = .next t) ∨
    (s.olen < s.ulen.toNat ∧ s.stage = .token ∧ s.pp + 2 ≤ s.inCount ∧
      exec (.matchTok (matchOffset (s.inAt s.pp) (s.inAt (s.pp + 1))) (matchLength (s.inAt (s.pp + 1)))) s = .next t) := by
  unfold decompressStep at h
  by_cases hu : s.ulen.toNat ≤ s.olen
  · cases hst : s.stage <;> rw [hst] at h <;> dsimp only at h
    · exact absurd hst hs
    all_goals
      rw [if_pos ((outputDone_iff s).2 hu)] at h
      injection h with h
      exact .inl ⟨hu, h.symm⟩
  · have hlt : s.olen < s.ulen.toNat := Nat.lt_of_not_le hu
    have hd : ¬ outputDone s = true := fun hd => hu ((outputDone_iff s).1 hd)
    refine .inr ?_
    cases hst : s.stage <;> rw [hst] at h <;> dsimp only at h
    · exact absurd hst hs
    · rw [if_neg hd] at h
      unfold fetchRun at h
      rw [fetch_flag] at h
      by_cases hp : s.pp < s.inCount
      · rw [if_pos hp] at h
        exact .inr (.inl ⟨hlt, rfl, hp, h⟩)
      · rw [if_neg hp] at h
        dsimp only at h
        rw [stopOn_default] at h
        injection h with h
        exact .inl ⟨hlt, .inl h.symm⟩
    · rw [if_neg hd] at h
      unfold fetchRun tokenPosition at h
      cases hb : flagBit s.flags s.t
      · rw [hb, if_neg (by decide), fetch_match] at h
        by_cases hp : s.pp + 2 ≤ s.inCount
        · rw [if_pos hp] at h
          exact .inr (.inr (.inr ⟨hlt, rfl, hp, h⟩))
        · rw [if_neg hp] at h
          dsimp only at h
          rw [stopOn_default] at h
          injection h with h
          exact .inl ⟨hlt, .inr h.symm⟩
      · rw [hb, if_pos (by decide), fetch_literal] at h
        by_cases hp : s.pp < s.inCount
        · rw [if_pos hp] at h
          exact .inr (.inr (.inl ⟨hlt, rfl, hp, h⟩))
        · rw [if_neg hp] at h
          dsimp only at h
          rw [stopOn_default] at h
          injection h with h
          exact .inl ⟨hlt, .inl h.symm⟩

end Sys2Proof.Machine
end

