-- ==== Sys2Proof/Tests/Slice0.lean ====
section
/-! SUPPORT. The model's own tests, with values written out from the spec's encodings and from its vectors
(spec/95_test_vectors.md), and for every statement that has hypotheses a state that meets them. -/

namespace Sys2Proof.Tests

open Sys2Proof.Machine

/-! ## Builders -/

/-- The block after reset, with these bytes loaded into IN. -/
def loaded (bs : List Byte) : State :=
  { State.reset with inp := Memory.writeSeq [] 0 bs, inLen := BitVec.ofNat 32 bs.length }

/-- DECOMPRESS just started on these bytes. -/
def dec (bs : List Byte) : State := startOp .decompress (loaded bs)

/-- DECOMPRESS at a stage of its payload, with `n` output bytes wanted and `w` already decoded. -/
def decAt (st : Stage) (n : Nat) (w payload : List Byte) : State :=
  let s := dec (headerBytes (BitVec.ofNat 32 n) ++ payload)
  let s1 := putWinSeq w (emitSeq w s)
  { s1 with stage := st, ulen := BitVec.ofNat 32 n, ulenReg := BitVec.ofNat 32 n, pp := 16, olen := w.length }

/-- COMPRESS just started on these bytes. -/
def enc (bs : List Byte) : State := startOp .compress (loaded bs)

/-- COMPRESS inside its first chunk, the first `k` input bytes encoded as Literals. -/
def encAt (bs : List Byte) (k : Nat) : State :=
  let s := putWinSeq (bs.take k) (enc bs)
  { s with stage := .token, di := k, tcnt := k, tblen := k, tokbuf := Memory.writeSeq [] 0 (bs.take k),
           flags := BitVec.ofNat 8 (2 ^ k - 1) }

/-- The state a meaning answers, or the one it was given where it stops. -/
def after (i : Instr) (s : State) : State :=
  match exec i s with
  | .next t => t
  | _ => s

/-- The state after one step, or the one before where it stops. -/
def stepped (s : State) : State :=
  match step s with
  | .next t => t
  | _ => s

/-- The bytes of the output. -/
def outBytes (s : State) : List Byte := s.out.slice 0 s.outLen

/-! ## WellFormed refuses each ill-formed operand (R14, R125) -/

theorem test_wf_accepts_the_ends :
    (Instr.matchTok 0 3).wf = true ∧ (Instr.matchTok 1023 66).wf = true := by decide
theorem test_wf_refuses_offset_1024 : (Instr.matchTok 1024 3).wf = false := by decide
theorem test_wf_refuses_length_2 : (Instr.matchTok 0 2).wf = false := by decide
theorem test_wf_refuses_length_67 : (Instr.matchTok 0 67).wf = false := by decide

/-! ## Words written out from the spec's encodings -/

/-- R81, R141: `len = 200`. -/
theorem test_decode_header :
    decode Params.default .header [0x00, 0x00, 0x00, 0x01, 0x00, 0x00, 0x00, 0x08, 0x00, 0x00, 0x00, 0xC8,
      0x00, 0x00, 0x00, 0x01, 0xAA] = .ok (.header 200, [0xAA]) := by rfl
/-- R171's example: `magic_a = 2`. -/
theorem test_decode_header_magic_a :
    decode Params.default .header [0x00, 0x00, 0x00, 0x02, 0x00, 0x00, 0x00, 0x08, 0x00, 0x00, 0x00, 0x00,
      0x00, 0x00, 0x00, 0x01] = .error .badMagicA := by rfl
/-- R83: bits 0..2 are Literals. -/
theorem test_decode_flag : decode Params.default .flag [0x07, 0x41] = .ok (.flag 0x07, [0x41]) := by rfl
/-- R84. -/
theorem test_decode_lit : decode Params.default .literal [0x41] = .ok (.lit 0x41, []) := by rfl
/-- R85, section 3 of the vectors: 958, 6 is `BE C3`, 564, 21 is `34 92`. -/
theorem test_decode_match :
    decode Params.default .matchTok [0xBE, 0xC3] = .ok (.matchTok 958 6, []) ∧
    decode Params.default .matchTok [0x34, 0x92] = .ok (.matchTok 564 21, []) := by constructor <;> rfl
/-- R123. -/
theorem test_decode_match_short : decode Params.default .matchTok [0xBE] = .error .shortMatch := by rfl
/-- R92. -/
theorem test_decode_commands :
    decode Params.default .command [0x00] = .ok (.cmdClear, []) ∧
    decode Params.default .command [0x01] = .ok (.cmdCompress, []) ∧
    decode Params.default .command [0x02] = .ok (.cmdDecompress, []) ∧
    decode Params.default .command [0x03] = .error (.ignoredCommand 0x03) := ⟨rfl, rfl, rfl, rfl⟩
/-- The table's words: `0xBEC3` is `BE C3`. -/
theorem test_decode_table_words :
    decodeTableWord 16 0xBEC3 = some (.matchTok 958 6) ∧ decodeTableWord 8 0x07 = some (.flag 0x07) ∧
    decodeTableWord 8 0x01 = some .cmdCompress ∧
    decodeTableWord 128 0x00000001000000080000000900000001 = some (.header 9) := by decide
/-- Section 3 of the vectors. -/
theorem test_encode_match :
    encode (.matchTok 1023 66) = [0xFF, 0xFF] ∧ encode (.matchTok 256 3) = [0x00, 0x40] ∧
    encode (.matchTok 512 3) = [0x00, 0x80] ∧ encode (.matchTok 768 5) = [0x00, 0xC2] ∧
    encode (.matchTok 0 66) = [0x00, 0x3F] := by decide

/-! ## The window (vectors W2 to W5) -/

/-- W2 and W3. -/
theorem test_window_first_write :
    (winWrite 0x41 (dec [])).1 = 958 ∧ (putWin 0x41 (dec [])).cur = 959 ∧
    winRead 1982 (putWin 0x41 (dec [])) = 0x41 ∧ winRead (-66) (putWin 0x41 (dec [])) = 0x41 ∧
    winRead 959 (putWin 0x41 (dec [])) = 0x00 := by decide
/-- W5: the cursor wraps from 1023 to 0. -/
theorem test_window_wraps :
    let s := putWinSeq [0x57, 0x58, 0x59, 0x5A] { dec [] with cur := 1022 }
    s.cur = 2 ∧ s.win.read 1022 = 0x57 ∧ s.win.read 1023 = 0x58 ∧ s.win.read 0 = 0x59 ∧ s.win.read 1 = 0x5A := by decide

/-! ## One step of each instruction -/

/-- R171: `HDR 9` sets `ulen`, ULEN and `pp`. -/
theorem test_header_parse :
    let s := stepped (dec (headerBytes 9 ++ [0x07]))
    s.ulen = 9 ∧ s.ulenReg = 9 ∧ s.pp = 16 ∧ s.phase = .busy := by decide
/-- R141's example, `len = 200`. -/
theorem test_header_emit :
    outBytes (after (.header 200) (enc [])) =
      [0x00, 0x00, 0x00, 0x01, 0x00, 0x00, 0x00, 0x08, 0x00, 0x00, 0x00, 0xC8, 0x00, 0x00, 0x00, 0x01] := by decide
/-- R172's example. -/
theorem test_flag_fetch :
    let s := stepped (decAt .chunk 9 [] [0x07, 0x41])
    s.flags = 0x07 ∧ s.pp = 17 ∧ s.t = 0 := by decide
/-- R152's example: the flag byte, then the staged bytes. -/
theorem test_chunk_flush :
    outBytes (after (.flag 0x07) (encAt [0x41, 0x42, 0x43] 3)) = [0x07, 0x41, 0x42, 0x43] := by decide
/-- R174's example. -/
theorem test_lit_decode :
    let s := stepped { decAt .token 9 [] [0x41] with flags := 0x01 }
    outBytes s = [0x41] ∧ s.win.read 958 = 0x41 ∧ s.cur = 959 ∧ s.olen = 1 ∧ s.pp = 17 := by decide
/-- R150's example. -/
theorem test_lit_encode :
    let s := after (.lit 0x41) (encAt [0x41, 0x42] 0)
    s.win.read 958 = 0x41 ∧ s.cur = 959 ∧ s.di = 1 ∧ s.flags = 0x01 := by decide
/-- R175's example: the Match overlaps its own destination. -/
theorem test_match_decode_overlaps :
    let s := stepped { decAt .token 9 [0x41, 0x42, 0x43] [0xBE, 0xC3] with t := 3, flags := 0x07 }
    outBytes s = [0x41, 0x42, 0x43, 0x41, 0x42, 0x43, 0x41, 0x42, 0x43] ∧ s.cur = 967 ∧ s.pp = 18 := by decide
/-- R151's corner case: from `cur = 1022` a commit of six bytes leaves `cur = 4`. -/
theorem test_match_encode_wraps :
    let s := after (.matchTok 0 6) { encAt [1, 2, 3, 4, 5, 6] 0 with cur := 1022 }
    s.cur = 4 ∧ s.win.read 1023 = 2 ∧ s.win.read 3 = 6 ∧ s.tokbuf.read 0 = 0x00 ∧ s.tokbuf.read 1 = 0x03 := by decide
/-- R31: CLEAR keeps OP, so STATUS reads 0x04 after a DECOMPRESS. -/
theorem test_clear_keeps_op :
    statusByte (after .cmdClear (finish .truncated (dec []))) = 0x04 := by decide
/-- R231: START from FINISHED. -/
theorem test_start_compress :
    let s := after .cmdCompress (finish .truncated (decAt .token 9 [0x41] []))
    s.phase = .busy ∧ s.op = .compress ∧ s.code = .ok ∧ s.outLen = 0 ∧ s.cur = 958 ∧ s.win = [] := by decide
/-- R31: a START while BUSY is ignored. -/
theorem test_start_decompress_while_busy : after .cmdDecompress (enc [0x41]) = enc [0x41] := by decide

/-! ## The search and the substitution -/

/-- The search from a scratch on, at most `k` trials of one more length. -/
def trials (s : State) : Nat → Search → Search
  | 0, q => q
  | k + 1, q =>
    match searchExtend s q with
    | some q' => trials s k q'
    | none => q

/-- R149's example: after `L 41; L 42; L 43` the only slot that holds 41 is 958, and the token is `M 958,6`. -/
theorem test_search_v1 :
    let s := encAt [0x41, 0x42, 0x43, 0x41, 0x42, 0x43, 0x41, 0x42, 0x43] 3
    searchToken s (trials s 66 { hyp := s.win, cands := [958], len := 0 }) = .matchTok 958 6 := by decide
/-- R147's examples: of 958 and 962 the one that matches longer (V13), and with equal lengths the older (V12). -/
theorem test_search_tie_break :
    (let s := encAt [0x41, 0x42, 0x43, 0x31, 0x41, 0x42, 0x43, 0x44, 0x32, 0x41, 0x42, 0x43, 0x44] 9;
     searchToken s (trials s 66 { hyp := s.win, cands := [958, 962], len := 0 }) = .matchTok 962 4) ∧
    (let s := encAt [0x41, 0x42, 0x43, 0x78, 0x41, 0x42, 0x43, 0x79, 0x41, 0x42, 0x43] 8;
     searchToken s (trials s 66 { hyp := s.win, cands := [958, 962], len := 0 }) = .matchTok 958 3) := by decide
/-- R181: byte 11 of the marker. -/
theorem test_subst :
    let m := [0x61, 0x62] ++ Config.markFrom ++ [0x63, 0x64]
    outBytes (subst (decAt .chunk 28 m [])) = [0x61, 0x62] ++ Config.markTo ++ [0x63, 0x64] := by decide +kernel

/-! ## A state that meets the hypotheses of each statement -/

theorem test_witness_EncodedInstructionDecodesToItself :
    (Instr.matchTok 1023 66).wf = true ∧ (Instr.matchTok 0 3).wf = true ∧ (Instr.header 0xFFFFFFFF).wf = true ∧
    (Instr.flag 0xFF).wf = true ∧ (Instr.lit 0).wf = true ∧ Instr.cmdClear.wf = true ∧ Instr.cmdCompress.wf = true ∧
    Instr.cmdDecompress.wf = true := by decide

theorem test_witness_DecodedBytesEncodeBack :
    decode Params.default .matchTok [0xFF, 0xFF, 0x09] = .ok (.matchTok 1023 66, [0x09]) ∧
    decode Params.default .command [0x02] = .ok (.cmdDecompress, []) ∧
    decode Params.default .header (headerBytes 0xFFFFFFFF) = .ok (.header 0xFFFFFFFF, []) := ⟨rfl, rfl, rfl⟩

theorem test_witness_TokenCodecIsABijection :
    (1023 ≤ 1023 ∧ 3 ≤ 66 ∧ 66 ≤ 66) ∧ encMatch 1023 66 = some (false, [0xFF, 0xFF]) ∧
    encMatch 0 3 = some (false, [0x00, 0x00]) := by decide

theorem test_witness_TokenBytesHoldTheirFields :
    (Instr.matchTok 1023 66).wf = true ∧ (Instr.matchTok 0 3).wf = true ∧ (Instr.matchTok 256 3).wf = true := by decide

theorem test_witness_OutOfRangeTokenRaisesAssert :
    (encAt [1, 2, 3] 0).encoding ∧ ¬ (1024 ≤ 1023 ∧ 3 ≤ 3 ∧ 3 ≤ 66) ∧ ¬ (0 ≤ 1023 ∧ 3 ≤ 2 ∧ 2 ≤ 66) ∧
    ¬ (0 ≤ 1023 ∧ 3 ≤ 67 ∧ 67 ≤ 66) := ⟨⟨rfl, rfl⟩, by decide⟩

/-- One witness for each of the four clauses. -/
theorem test_witness_StepRunsTheDecodedInstruction :
    ((dec (headerBytes 9)).alone = true ∧ (dec (headerBytes 9)).decoding ∧ (dec (headerBytes 9)).stage = .header ∧
      fetch Params.default .header (dec (headerBytes 9)) = .ok (.header 9)) ∧
    ((decAt .chunk 1 [] [0x07]).alone = true ∧ (decAt .chunk 1 [] [0x07]).decoding ∧
      (decAt .chunk 1 [] [0x07]).stage = .chunk ∧ (decAt .chunk 1 [] [0x07]).olen < 1 ∧
      fetch Params.default .flag (decAt .chunk 1 [] [0x07]) = .ok (.flag 0x07)) ∧
    ((decAt .token 1 [] [0xBE, 0xC3]).alone = true ∧ (decAt .token 1 [] [0xBE, 0xC3]).decoding ∧
      (decAt .token 1 [] [0xBE, 0xC3]).flags.getLsbD 0 = false ∧
      fetch Params.default .matchTok (decAt .token 1 [] [0xBE, 0xC3]) = .ok (.matchTok 958 6)) ∧
    (({ State.reset with cmd := some 0x02 } : State).cmd = some 0x02 ∧
      decode Params.default .command [0x02] = .ok (.cmdDecompress, [])) :=
  ⟨⟨rfl, ⟨rfl, rfl⟩, rfl, rfl⟩, ⟨rfl, ⟨rfl, rfl⟩, rfl, by decide, rfl⟩, ⟨rfl, ⟨rfl, rfl⟩, rfl, rfl⟩, rfl, rfl⟩

/-- One witness for each of the six clauses. -/
theorem test_witness_StepRunsTheChosenInstruction :
    ((enc [1]).alone = true ∧ (enc [1]).encoding ∧ (enc [1]).stage = .header) ∧
    (({ enc [1] with stage := .chunk, di := 1 } : State).inCount ≤ 1) ∧
    (0 < ({ enc [1] with stage := .chunk } : State).inCount) ∧
    ((encAt [1] 1).inCount ≤ (encAt [1] 1).di) ∧
    ((encAt [1, 2] 0).search = none ∧ (encAt [1, 2] 0).inCount - (encAt [1, 2] 0).di ≤ 2) ∧
    (searchExtend (encAt [1, 2, 3] 0) { hyp := [], cands := [], len := 3 } = none) :=
  ⟨⟨rfl, ⟨rfl, rfl⟩, rfl⟩, by decide, by decide, by decide, ⟨rfl, by decide⟩, by decide⟩

theorem test_witness_PlacedTableWordIsRun :
    State.reset.inp.wf ∧ decodeTableWord 16 0xBEC3 = some (.matchTok 958 6) ∧
    (stepped (State.reset.withFetchWord 16 0xBEC3)).olen = 6 ∧
    (stepped (State.reset.withFetchWord 8 0x02)).op = .decompress := by decide

theorem test_witness_WinWriteStoresAtTheCursor : (putWin 0x41 (dec [])).win.wf := by decide

theorem test_witness_WinReadReducesItsIndex : 0 < 1024 ∧ 1023 < 1024 := by decide

theorem test_witness_WriteRunFillsSlotsInOrder :
    (dec []).win.wf ∧ 65 < ([0x41] ++ List.replicate 65 0x42 : List Byte).length ∧
    ([0x41] ++ List.replicate 65 0x42 : List Byte).length ≤ 65 + 1024 := by decide

theorem test_witness_ClearReturnsToIdle :
    (finish .ok (enc [])).phase = .finished ∧ State.reset.phase ≠ .finished := by decide

theorem test_witness_StartInitialisesTheOperation :
    State.reset.phase ≠ .busy ∧ (finish .errHeader (dec [])).phase ≠ .busy := by decide

theorem test_witness_IgnoredCommandsChangeNothing :
    ({ enc [1] with host := [.writeCmd 0x02, .pause] } : State).phase = .busy ∧
    ({ enc [1] with host := [.writeCmd 0x02, .pause] } : State).cmd = none ∧
    ({ State.reset with cmd := some 0x03 } : State).cmd = some 0x03 ∧ 3 ≤ (0x03 : Byte).toNat := by decide

theorem test_witness_HardwareResetFromAnyPhase :
    ({ enc [1] with host := [.reset] } : State).cmd = none ∧ ({ enc [1] with host := [.reset] } : State).phase = .busy := by
  decide

/-- Both phases, both writes, and the last address of IN. -/
theorem test_witness_HostLoadsInputOnlyOutsideAnOperation :
    (let s := { State.reset with host := [.writeIn (2 ^ 32 - 2) 0x41] };
      s.host = .writeIn (2 ^ 32 - 2) 0x41 :: [] ∧ s.phase ≠ .busy ∧ s.cmd = none ∧ 2 ^ 32 - 2 < 2 ^ 32 - 1) ∧
    (let s := { State.reset with host := [.writeInLen 0xFFFFFFFF] };
      s.host = .writeInLen 0xFFFFFFFF :: [] ∧ s.phase ≠ .busy ∧ s.cmd = none) ∧
    (let s := { enc [1] with host := [.writeIn 0 0x41] };
      s.host = .writeIn 0 0x41 :: [] ∧ s.phase = .busy ∧ s.cmd = none) ∧
    (let s := { enc [1] with host := [.writeInLen 0] };
      s.host = .writeInLen 0 :: [] ∧ s.phase = .busy ∧ s.cmd = none) ∧
    (let s := { State.reset with host := [.writeCmd 0x02, .await] };
      s.host = .writeCmd 0x02 :: [.await] ∧ s.phase ≠ .busy ∧ s.cmd = none) := by decide

/-- A host's read in each phase, and at both sides of OUT_LEN. -/
theorem test_witness_StatusRegisterFields :
    (let s := finish .ok (decAt .chunk 1 [0x41] []);
      s.phase = .finished ∧ 0 < s.outLen ∧ s.outLen ≤ 1 ∧ hostReadOut 0 s = some 0x41 ∧ hostReadOut 1 s = none) ∧
    ((enc [1]).phase = .busy ∧ State.reset.phase = .idle) ∧
    (let s := { finish .ok (decAt .chunk 1 [0x41] []) with host := [.writeInLen 3] };
      s.phase = .finished ∧ (stepped s).phase = .finished ∧ (stepped s).inLen = 3) := by decide

/-- One witness for each clause, at the bounds: 3 bytes need at most 20, `ulen = 10` at most 75, IN_LEN 4 and IN byte 3 fit
an IN_CAP of 4 and not one of 3. -/
theorem test_witness_CapacityRefusesBeforeAnyOutput :
    (({ Params.default with outCap := some 19 } : Params).outCap = some 19 ∧ Params.default.outCap = none) ∧
    ((loaded [1, 2, 3]).phase ≠ .busy ∧ 19 < 16 + (loaded [1, 2, 3]).inCount + ((loaded [1, 2, 3]).inCount + 7) / 8) ∧
    (16 + (loaded [1, 2, 3]).inCount + ((loaded [1, 2, 3]).inCount + 7) / 8 ≤ 20) ∧
    ((dec (headerBytes 10)).decoding ∧ 16 ≤ (dec (headerBytes 10)).inCount ∧ 74 < (10 : Word32).toNat + 65 ∧
      (10 : Word32).toNat + 65 ≤ 75) ∧
    (({ Params.default with inCap := some 3 } : Params).inCap = some 3 ∧ Params.default.inCap = none) ∧
    (let s := { State.reset with host := [.writeInLen 4] };
      s.phase ≠ .busy ∧ s.cmd = none ∧ s.host = .writeInLen 4 :: [] ∧ 3 < (4 : Word32).toNat ∧ (4 : Word32).toNat ≤ 4) ∧
    (let s := { State.reset with host := [.writeIn 3 0x41] };
      s.phase ≠ .busy ∧ s.cmd = none ∧ s.host = .writeIn 3 0x41 :: [] ∧ 3 < 2 ^ 32 - 1 ∧ 3 ≤ 3 ∧ 3 < 4) :=
  ⟨by decide, by decide, by decide, ⟨⟨rfl, rfl⟩, by decide⟩, by decide, by decide, by decide⟩

theorem test_witness_HeaderFieldIsTaken : (dec (headerBytes 9)).decoding ∧ 16 ≤ (dec (headerBytes 9)).inCount :=
  ⟨⟨rfl, rfl⟩, by decide⟩

/-- A container of 15 bytes, one with `magic_a = 2`, and a good one of exactly 16. -/
theorem test_witness_HeaderParseAcceptsOrRaises :
    ((dec ((headerBytes 9).take 15)).alone = true ∧ (dec ((headerBytes 9).take 15)).decoding ∧
      (dec ((headerBytes 9).take 15)).stage = .header ∧ (dec ((headerBytes 9).take 15)).inCount < 16) ∧
    (let s := dec ([0, 0, 0, 2] ++ (headerBytes 9).drop 4);
      be32 (s.inAt 0) (s.inAt 1) (s.inAt 2) (s.inAt 3) ≠ 1) ∧
    (let s := dec (headerBytes 9);
      16 ≤ s.inCount ∧ be32 (s.inAt 0) (s.inAt 1) (s.inAt 2) (s.inAt 3) = 1 ∧
        be32 (s.inAt 4) (s.inAt 5) (s.inAt 6) (s.inAt 7) = 8 ∧
        be32 (s.inAt 12) (s.inAt 13) (s.inAt 14) (s.inAt 15) = 1) :=
  ⟨⟨rfl, ⟨rfl, rfl⟩, rfl, by decide⟩, by decide, by decide⟩

theorem test_witness_FlagFetchTakesTheByte :
    ((decAt .chunk 9 [] [0x07]).decoding ∧ (decAt .chunk 9 [] [0x07]).pp < (decAt .chunk 9 [] [0x07]).inCount) ∧
    ((decAt .chunk 9 [] []).decoding ∧ (decAt .chunk 9 [] []).inCount ≤ (decAt .chunk 9 [] []).pp) :=
  ⟨⟨⟨rfl, rfl⟩, by decide⟩, ⟨rfl, rfl⟩, by decide⟩

theorem test_witness_LiteralIsAppendedAndWritten :
    let s := decAt .token 9 [0x41] [0x42]
    s.decoding ∧ s.win.wf ∧ s.out.wf ∧ s.pp < s.inCount := ⟨⟨rfl, rfl⟩, by decide⟩

theorem test_witness_ExhaustedPayloadRaises :
    (let s := decAt .chunk 9 [0x41] [];
      s.alone = true ∧ s.decoding ∧ s.olen < s.ulen.toNat ∧ s.inCount ≤ s.pp ∧ s.stage = .chunk) ∧
    (let s := { decAt .token 9 [0x41] [] with flags := 0x80, t := 7 };
      s.alone = true ∧ s.decoding ∧ s.olen < s.ulen.toNat ∧ s.inCount ≤ s.pp ∧ s.stage = .token ∧
        s.flags.getLsbD s.t = true) :=
  ⟨⟨rfl, ⟨rfl, rfl⟩, by decide⟩, rfl, ⟨rfl, rfl⟩, by decide⟩

theorem test_witness_MatchCopiesByteSerially :
    let s := decAt .token 9 [0x41, 0x42, 0x43] [0xBE, 0xC3]
    s.decoding ∧ s.win.wf ∧ s.out.wf ∧ (Instr.matchTok 1023 66).wf = true ∧ s.pp + 2 ≤ s.inCount :=
  ⟨⟨rfl, rfl⟩, by decide⟩

/-- R176's examples: `e = 1`, `e = 0`, and `e = len`, from the cursor 961. -/
theorem test_witness_OverlappingMatchRepeats :
    let s := decAt .token 9 [0x41, 0x42, 0x43] [0xBE, 0xC3]
    s.decoding ∧ s.win.wf ∧ s.out.wf ∧ s.pp + 2 ≤ s.inCount ∧
    ((Instr.matchTok 960 10).wf = true ∧ (960 + 1) % 1024 = s.cur.toNat ∧ 1 < 10) ∧
    ((Instr.matchTok 961 3).wf = true ∧ (961 + 0) % 1024 = s.cur.toNat) ∧
    ((Instr.matchTok 958 3).wf = true ∧ (958 + 3) % 1024 = s.cur.toNat ∧ 3 ≤ 3) ∧
    (after (.matchTok 960 10) s).olen = 13 := ⟨⟨rfl, rfl⟩, by decide⟩

/-- No byte and one byte left (R177's example). -/
theorem test_witness_TruncatedMatchKeepsPartialOutput :
    (let s := { decAt .token 9 [0x41, 0x42, 0x43] [] with flags := 0x07, t := 3 };
      s.alone = true ∧ s.decoding ∧ s.stage = .token ∧ s.olen < s.ulen.toNat ∧ s.flags.getLsbD s.t = false ∧
        s.inCount < s.pp + 2) ∧
    (let s := { decAt .token 9 [0x41, 0x42, 0x43] [0xBE] with flags := 0x07, t := 3 };
      s.alone = true ∧ s.decoding ∧ s.stage = .token ∧ s.olen < s.ulen.toNat ∧ s.flags.getLsbD s.t = false ∧
        s.inCount < s.pp + 2) :=
  ⟨⟨rfl, ⟨rfl, rfl⟩, by decide⟩, rfl, ⟨rfl, rfl⟩, by decide⟩

/-- Between chunks with `ulen = 0`, and between tokens with the length just reached and bytes left. -/
theorem test_witness_CompleteOutputEndsTheOperation :
    (let s := decAt .chunk 0 [] [];
      s.alone = true ∧ s.decoding ∧ s.stage ≠ .header ∧ s.ulen.toNat ≤ s.olen) ∧
    (let s := decAt .token 2 [0x41, 0x42] [0x43];
      s.alone = true ∧ s.decoding ∧ s.stage ≠ .header ∧ s.ulen.toNat ≤ s.olen) :=
  ⟨⟨rfl, ⟨rfl, rfl⟩, by decide⟩, rfl, ⟨rfl, rfl⟩, by decide⟩

/-- A flag byte, a Literal at bit 0, and a Match at bit 7. -/
theorem test_witness_FlagBitsAreTakenInOrder :
    ((decAt .chunk 9 [] [0x07]).decoding ∧ (after (.flag 0x07) (decAt .chunk 9 [] [0x07])).phase = .busy) ∧
    (after (.lit 0x41) (decAt .token 9 [] [0x41])).phase = .busy ∧
    (after (.matchTok 958 6) { decAt .token 9 [] [0xBE, 0xC3] with t := 7 }).stage = .chunk :=
  ⟨⟨⟨rfl, rfl⟩, by decide⟩, by decide⟩

theorem test_witness_SubstReplacesEveryMarker :
    let s := decAt .chunk 28 ([0x61, 0x62] ++ Config.markFrom ++ [0x63, 0x64]) []
    s.out.wf ∧ 2 + 24 ≤ s.olen ∧ 13 = 2 + 11 ∧ s.out.slice 2 24 = Config.markFrom ∧
    s.out.slice 3 24 ≠ Config.markFrom := by decide

/-- A step that ends the operation, one that a CMD write takes, and one instruction of each size. -/
theorem test_witness_PayloadPointerOnlyAdvances :
    (let s := decAt .chunk 0 [] [0x41];
      s.decoding ∧ s.stage ≠ .header ∧ (∀ es, s.host ≠ .reset :: es) ∧ (stepped s).phase = .finished) ∧
    (let s := { decAt .token 9 [] [0xBE, 0xC3] with host := [.writeCmd 0x01] };
      s.decoding ∧ s.stage ≠ .header ∧ (∀ es, s.host ≠ .reset :: es) ∧ (stepped s).host = []) ∧
    (decAt .token 9 [] [0x41, 0x42]).decoding ∧ (after (.lit 0x41) (decAt .token 9 [] [0x41, 0x42])).phase = .busy ∧
    (after (.matchTok 958 3) (decAt .token 9 [] [0x41, 0x42])).phase = .busy ∧
    (after (.flag 0x41) (decAt .chunk 9 [] [0x41, 0x42])).phase = .busy :=
  ⟨⟨⟨rfl, rfl⟩, by decide, fun _ h => (by cases h), by decide⟩,
    ⟨⟨rfl, rfl⟩, by decide, fun _ h => (by cases h), by decide⟩, ⟨rfl, rfl⟩, by decide⟩

/-- The hypothesis of DecompressAlwaysFinishes and of CompressAlwaysFinishesOk, in IDLE and in FINISHED. -/
theorem test_witness_AlwaysFinishes : (loaded (headerBytes 9)).alone = true ∧ (finish .ok (enc [1, 2, 3])).alone = true := by decide

theorem test_witness_ClippingStopsAtTheLength :
    let s := decAt .token 4 [0x41] [0xBE, 0xC7]
    s.decoding ∧ s.pp + 2 ≤ s.inCount ∧ s.olen ≤ s.ulen.toNat ∧
    (∃ t, execWith { Params.default with clipAtUlen := true } (.matchTok 958 10) s = .next t ∧ t.olen = 4) ∧
    (∃ t, execWith Params.default (.matchTok 958 10) s = .next t ∧ t.olen = 11) :=
  ⟨⟨rfl, rfl⟩, by decide, by decide, ⟨_, rfl, by decide⟩, ⟨_, rfl, by decide⟩⟩

/-- One witness for each clause: a short chunk and one of eight tokens to flush; a container of 15 bytes, one with
`magic_b = 9`, a good one; a Match with one byte left, a flag byte and a Literal with none; a complete output. -/
theorem test_witness_ParametersActWhereTheyAreNamed :
    (let s := encAt [1, 2, 3] 3;
      s.alone = true ∧ s.encoding ∧ s.stage = .token ∧ s.inCount ≤ s.di ∧ s.tblen ≤ 16 ∧ s.out.wf) ∧
    (let s := encAt [1, 2, 3, 4, 5, 6, 7, 8, 9] 8;
      s.alone = true ∧ s.encoding ∧ s.stage = .token ∧ 8 ≤ s.tcnt ∧ s.tblen ≤ 16 ∧ s.out.wf) ∧
    (let s := dec ((headerBytes 9).take 15);
      s.alone = true ∧ s.decoding ∧ s.stage = .header ∧ s.inCount < 16) ∧
    (let s := dec ([0, 0, 0, 1, 0, 0, 0, 9] ++ (headerBytes 9).drop 8);
      s.alone = true ∧ s.decoding ∧ s.stage = .header ∧ Params.default.strictMagic = true ∧
        ({ Params.default with strictMagic := false } : Params).strictMagic = false ∧ Params.default.outCap = none ∧
        16 ≤ s.inCount ∧ be32 (s.inAt 4) (s.inAt 5) (s.inAt 6) (s.inAt 7) ≠ 8) ∧
    (let s := dec (headerBytes 9);
      s.alone = true ∧ s.decoding ∧ s.stage = .header ∧ 16 ≤ s.inCount ∧
        be32 (s.inAt 0) (s.inAt 1) (s.inAt 2) (s.inAt 3) = 1 ∧ be32 (s.inAt 4) (s.inAt 5) (s.inAt 6) (s.inAt 7) = 8 ∧
        be32 (s.inAt 12) (s.inAt 13) (s.inAt 14) (s.inAt 15) = 1) ∧
    (let s := { decAt .token 9 [0x41, 0x42, 0x43] [0xBE] with flags := 0x07, t := 3 };
      s.alone = true ∧ s.decoding ∧ s.olen < s.ulen.toNat ∧ s.stage = .token ∧ s.flags.getLsbD s.t = false ∧
        s.inCount < s.pp + 2) ∧
    (let s := decAt .chunk 9 [0x41] [];
      s.alone = true ∧ s.decoding ∧ s.olen < s.ulen.toNat ∧ s.stage = .chunk ∧ s.inCount ≤ s.pp) ∧
    (let s := { decAt .token 9 [0x41] [] with flags := 0x80, t := 7 };
      s.alone = true ∧ s.decoding ∧ s.olen < s.ulen.toNat ∧ s.stage = .token ∧ s.flags.getLsbD s.t = true ∧
        s.inCount ≤ s.pp) ∧
    (let s := decAt .token 2 [0x41, 0x42] [0x43];
      s.alone = true ∧ s.decoding ∧ s.stage ≠ .header ∧ s.ulen.toNat ≤ s.olen) :=
  ⟨⟨rfl, ⟨rfl, rfl⟩, by decide⟩, ⟨rfl, ⟨rfl, rfl⟩, by decide⟩, ⟨rfl, ⟨rfl, rfl⟩, by decide⟩,
    ⟨rfl, ⟨rfl, rfl⟩, by decide⟩, ⟨rfl, ⟨rfl, rfl⟩, by decide⟩, ⟨rfl, ⟨rfl, rfl⟩, by decide⟩,
    ⟨rfl, ⟨rfl, rfl⟩, by decide⟩, ⟨rfl, ⟨rfl, rfl⟩, by decide⟩, rfl, ⟨rfl, rfl⟩, by decide⟩

theorem test_witness_HeaderEmitAppendsSixteenBytes : (enc [1]).encoding ∧ (enc [1]).out.wf := ⟨⟨rfl, rfl⟩, by decide⟩

/-- The eighth token of a chunk of seven Literals. -/
theorem test_witness_LiteralIsStagedAndCommitted :
    let s := encAt [1, 2, 3, 4, 5, 6, 7, 8] 7
    s.encoding ∧ s.win.wf ∧ s.tokbuf.wf ∧ s.tcnt < 8 ∧ s.tblen + 1 ≤ 16 ∧ s.di < s.inCount := ⟨⟨rfl, rfl⟩, by decide⟩

/-- A Match that ends with the input, and the last two places of `tokbuf`. -/
theorem test_witness_MatchIsStagedAndCommitted :
    let s := { encAt [1, 2, 3] 0 with tblen := 14, tcnt := 7 }
    s.encoding ∧ s.win.wf ∧ s.tokbuf.wf ∧ (Instr.matchTok 0 3).wf = true ∧ s.tcnt < 8 ∧ s.tblen + 2 ≤ 16 ∧
      s.di + 3 ≤ s.inCount := ⟨⟨rfl, rfl⟩, by decide⟩

theorem test_witness_ChunkFlushEmitsFlagThenTokens :
    let s := { encAt [1, 2, 3] 3 with tblen := 16 }
    s.encoding ∧ s.out.wf ∧ s.tblen ≤ 16 := ⟨⟨rfl, rfl⟩, by decide⟩

/-- A token with exactly three bytes left, before its search and in it. -/
theorem test_witness_SearchLeavesTheWindowAlone :
    let s := encAt [0, 0, 0] 0
    s.alone = true ∧ s.encoding ∧ s.stage = .token ∧ s.di + 2 < s.inCount ∧ s.tcnt < 8 ∧ s.search = none ∧
      ({ s with search := some { hyp := [], cands := [958], len := 2 } } : State).search =
        some { hyp := [], cands := [958], len := 2 } ∧
      searchExtend s { hyp := [], cands := [958], len := 2 } = some { hyp := [], cands := [958], len := 3 } :=
  ⟨rfl, ⟨rfl, rfl⟩, rfl, by decide, by decide, rfl, rfl, by decide⟩

/-- V9: no slot holds the next byte. -/
theorem test_witness_InitialCandidatesInScanOrder : initialCands (encAt [0x41, 0x41, 0x41] 0) = [] := by
  unfold initialCands
  rw [List.filter_eq_nil_iff]
  intro c _ h
  cases (show (false = true) from h)

theorem test_witness_HypotheticalWindowHoldsHRead : (encAt [1, 2, 3] 1).win.wf ∧ 1023 < 1024 ∧ 66 ≤ 66 := by decide

/-- Both answers of the search: every slot matches V6's three zeros, so the first in scan order is taken; no slot holds V9's
first byte. -/
theorem test_witness_MatchSearchIsLongestThenOldest :
    matchSearch (encAt [0, 0, 0] 0) = some (958, 3) ∧ matchSearch (encAt [0x41, 0x41, 0x41] 0) = none := by
  have zeros : ∀ l : List Nat, ∀ c, bestOf (encAt [0, 0, 0] 0) (c :: l) = (c, 3) := by
    have len3 : ∀ c, matchLen (encAt [0, 0, 0] 0) c = 3 := by
      intro c
      have read0 : ∀ k, hRead (encAt [0, 0, 0] 0) c k = 0 := by
        intro k
        simp only [hRead]
        split <;> rfl
      show matchRun (encAt [0, 0, 0] 0) c 3 0 = 3
      simp only [matchRun, read0]
      rfl
    intro l
    induction l with
    | nil => intro c; simp only [bestOf, len3]; rfl
    | cons d l ih => intro c; rw [bestOf, ih]; simp only [len3]; rfl
  have none0 : ∀ l : List Nat, (bestOf (encAt [0x41, 0x41, 0x41] 0) l).2 = 0 := by
    have len0 : ∀ c, matchLen (encAt [0x41, 0x41, 0x41] 0) c = 0 := by
      intro c
      have read0 : hRead (encAt [0x41, 0x41, 0x41] 0) c 0 = 0 := by
        simp only [hRead, Nat.not_lt_zero, if_false]
        rfl
      show matchRun (encAt [0x41, 0x41, 0x41] 0) c 3 0 = 0
      rw [matchRun, read0]
      rfl
    intro l
    induction l with
    | nil => rfl
    | cons c l ih => simp only [bestOf, ih, len0]; rfl
  constructor
  · rw [matchSearch, scanOrder, List.range_succ_eq_map, List.map_cons, zeros]
    rfl
  · simp only [matchSearch, none0]
    rfl

theorem test_witness_StepwiseSearchEqualsClosedForm :
    let s := encAt [0, 0, 0] 0
    s.alone = true ∧ s.encoding ∧ s.stage = .token ∧ s.search = none ∧ s.win.wf ∧ s.di + 2 < s.inCount ∧ s.tcnt < 8 :=
  ⟨rfl, ⟨rfl, rfl⟩, rfl, rfl, by decide⟩

/-- A Literal for the last byte, and V6's Match, which covers the input to its end. -/
theorem test_witness_ChosenTokenIsInRange :
    ((encAt [1] 0).di < (encAt [1] 0).inCount ∧ tokenChoose (encAt [1] 0) = .lit 1) ∧
    ((encAt [0, 0, 0] 0).di < (encAt [0, 0, 0] 0).inCount ∧ tokenChoose (encAt [0, 0, 0] 0) = .matchTok 958 3) := by
  refine ⟨by decide, by decide, ?_⟩
  simp only [tokenChoose, test_witness_MatchSearchIsLongestThenOldest.1]
  rfl

theorem test_witness_EmptyInputGivesHeaderOnly : State.reset.alone = true ∧ State.reset.inLen = 0 := by decide

theorem test_witness_ShortInputsBecomeLiterals :
    ((loaded [7]).alone = true ∧ (loaded [7]).tokbuf.wf ∧ (loaded [7]).inLen = 1) ∧
    ((loaded [7, 7]).alone = true ∧ (loaded [7, 7]).tokbuf.wf ∧ (loaded [7, 7]).inLen = 2) := by decide

/-- A busy state that meets the invariant, and the host move that resets it. -/
theorem test_witness_StepKeepsTheInvariant :
    State.Inv { startOp .decompress State.reset with host := [.reset] } ∧
    ∃ t, step { startOp .decompress State.reset with host := [.reset] } = .next t := by
  have idle : ¬ ({ startOp .decompress State.reset with host := [.reset] } : State).encoding :=
    fun h => absurd h.2 (by decide)
  refine ⟨⟨⟨⟨by decide, by decide⟩, ⟨by decide, by decide⟩, ⟨by decide, by decide⟩, ⟨by decide, by decide⟩,
      fun q h => (by cases h)⟩, ⟨by decide, by decide, by decide, by decide, by decide, fun h => absurd h idle⟩,
    ⟨fun h => absurd h idle, fun q h => (by cases h)⟩, fun _ => ⟨rfl, by decide, ?_, fun _ => ⟨rfl, rfl⟩,
      fun h => absurd rfl h, fun h => absurd h (by decide)⟩, fun _ => rfl, fun h => absurd h (by decide), fun _ => rfl,
    by decide, fun h => absurd h (by decide), fun h => absurd h (by decide)⟩, _, rfl⟩
  exact ⟨fun j h => absurd h (Nat.not_lt_zero j), fun _ _ _ => rfl⟩

/-- The move at the head is no write of IN or IN_LEN. -/
theorem test_witness_OnlyBadHostWritesStop :
    (∀ a v es, ({ startOp .decompress State.reset with host := [.reset] } : State).host ≠ .writeIn a v :: es) ∧
    (∀ n es, ({ startOp .decompress State.reset with host := [.reset] } : State).host ≠ .writeInLen n :: es) :=
  ⟨fun _ _ _ h => (by cases h), fun _ _ h => (by cases h)⟩

theorem test_witness_NothingRunsOutsideAnOperation :
    State.reset.phase ≠ .busy ∧ State.reset.alone = true ∧ (Instr.lit 0x41).position ≠ .command := by decide

/-- A command from IDLE, and a reset from FINISHED. -/
theorem test_witness_PhaseChangesOnlyByCommandOrReset :
    ({ State.reset with cmd := some 0x01 } : State).phase ≠ .busy ∧
    (stepped { State.reset with cmd := some 0x01 }).phase ≠ State.reset.phase ∧
    (stepped { finish .ok (enc []) with host := [.reset] }).phase ≠ .finished := by decide

theorem test_witness_BusyEndsOnlyByFinishOrReset :
    (enc [1]).phase = .busy ∧ (stepped (enc [1])).phase = .busy ∧ (stepped (dec [])).phase = .finished ∧
    (∀ es, (enc [1]).host ≠ .reset :: es) ∧
    (let s := { enc [1] with cmd := some 0x00 };
      s.phase = .busy ∧ s.cmd ≠ none ∧ (stepped s).cmd = none) ∧
    (let s := { enc [1] with host := [.writeCmd 0x02] };
      s.phase = .busy ∧ s.host = .writeCmd 0x02 :: [] ∧ (stepped s).host = []) :=
  ⟨rfl, by decide, by decide, fun _ h => (by cases h), by decide, by decide⟩

theorem test_witness_BlockNeverWritesItsInput :
    (∃ t, exec (.lit 1) (encAt [1] 0) = .next t ∧ t.di = 1) ∧ (∃ t, step (encAt [1] 0) = .next t ∧ t.di = 1) ∧
    (∀ a v es, (encAt [1] 0).host ≠ .writeIn a v :: es) ∧ (∀ n es, (encAt [1] 0).host ≠ .writeInLen n :: es) ∧
    (∀ es, (encAt [1] 0).host ≠ .reset :: es) :=
  ⟨⟨_, rfl, by decide⟩, ⟨_, rfl, by decide⟩, fun _ _ _ h => (by cases h), fun _ _ h => (by cases h), fun _ h => (by cases h)⟩

/-- Two instances with one input byte, one of them after another operation. -/
theorem test_witness_ResultDependsOnInputAlone :
    let s1 := loaded [7]
    let s2 := { finish .ok (encAt [7] 1) with pp := 99, mlen := 3, ulen := 5 }
    s1.alone = true ∧ s2.alone = true ∧ s1.tokbuf.wf ∧ s2.tokbuf.wf ∧ s1.inLen = s2.inLen ∧
    (∀ a, a < s1.inCount → s1.inAt a = s2.inAt a) ∧
    ∃ t1, Reaches 1 (startOp .compress s1) t1 ∧ t1.outLen = 16 :=
  ⟨rfl, rfl, by decide, by decide, rfl, fun _ _ => rfl, _, rfl, by decide⟩

theorem test_witness_DecompressUndoesCompress :
    (loaded Config.markFrom).alone = true ∧ (loaded Config.markFrom).tokbuf.wf ∧
    0 + 24 ≤ (loaded Config.markFrom).inCount ∧ (loaded Config.markFrom).inp.slice 0 24 = Config.markFrom := by decide

end Sys2Proof.Tests
end

section
/-! PROOF. The bytes of the two tokens, field by field (R84, R85). The masks of R85 are read off by dividing and taking
remainders: `&&&` and `|||` commute with `/ 2 ^ n` and `% 2 ^ n`, so each field of byte 1 is computed on its own. -/

namespace Sys2Proof

/-! ## The two fields of a Match's second byte (R85) -/

/-- Bits 7:6 are the offset's two high bits: below 64, the length field does not reach them. -/
theorem matchByte1_div (off r : Nat) (hr : r < 64) : (((off >>> 2) &&& 0xC0) ||| r) / 64 = off / 256 % 4 := by
  have hmask : ((off >>> 2) &&& 0xC0) / 64 = (off >>> 2) / 64 % 4 :=
    (Nat.and_div_two_pow (n := 6)).trans (Nat.and_two_pow_sub_one_eq_mod _ 2)
  calc (((off >>> 2) &&& 0xC0) ||| r) / 64
      = ((off >>> 2) &&& 0xC0) / 64 ||| r / 64 := Nat.or_div_two_pow (n := 6)
    _ = off / 256 % 4 := by
      rw [hmask, Nat.div_eq_of_lt hr, Nat.or_zero, Nat.shiftRight_eq_div_pow, Nat.div_div_eq_div_mul]

/-- Bits 5:0 are the length field: the mask `0xC0` clears the offset's bits there. -/
theorem matchByte1_mod (off r : Nat) (hr : r < 64) : (((off >>> 2) &&& 0xC0) ||| r) % 64 = r := by
  have hmask : ((off >>> 2) &&& 0xC0) % 64 = 0 :=
    (Nat.and_mod_two_pow (n := 6)).trans (Nat.and_zero _)
  calc (((off >>> 2) &&& 0xC0) ||| r) % 64
      = ((off >>> 2) &&& 0xC0) % 64 ||| r % 64 := Nat.or_mod_two_pow (n := 6)
    _ = r := by rw [hmask, Nat.mod_eq_of_lt hr, Nat.zero_or]

/-! ## The encodings -/

@[simp] theorem encode_lit (b : Byte) : encode (.lit b) = [b] := rfl

@[simp] theorem encode_matchTok (off len : Nat) : encode (.matchTok off len) = matchBytes off len := rfl

/-- EncMatch answers flag bit 0 and the bytes of R85 for an operand in range (R121). -/
theorem encMatch_of_wf {off len : Nat} (h : (Instr.matchTok off len).wf = true) :
    encMatch off len = some (false, matchBytes off len) := if_pos h

/-- The two bytes of a Match in range hold its offset and its length, each in its own bits (R85). -/
theorem matchBytes_fields {off len : Nat} (h : (Instr.matchTok off len).wf = true) :
    ∃ b0 b1 : Byte, matchBytes off len = [b0, b1] ∧
      b0.toNat = off % 256 ∧ b1.toNat / 64 = off / 256 ∧ b1.toNat % 64 = len - 3 := by
  obtain ⟨hoff, hmin, hmax⟩ := (Machine.wf_matchTok off len).mp h
  have hlow : off &&& 0xFF = off % 256 := Nat.and_two_pow_sub_one_eq_mod off 8
  have hdiv := matchByte1_div off (len - 3) (by omega)
  have hmod := matchByte1_mod off (len - 3) (by omega)
  refine ⟨_, _, rfl, ?_, ?_, ?_⟩
  · rw [BitVec.toNat_ofNat, hlow, Nat.mod_mod]
  · rw [BitVec.toNat_ofNat]; omega
  · rw [BitVec.toNat_ofNat]; omega

/-- Settles O4: it holds, by the encoder's own equations and `matchBytes_fields`. -/
theorem tokenBytesHoldTheirFields : Obligations.TokenBytesHoldTheirFields := by
  refine ⟨fun b => ⟨encode_lit b, rfl⟩, fun off len h => ?_⟩
  obtain ⟨b0, b1, hbytes, hfields⟩ := matchBytes_fields h
  exact ⟨b0, b1, (encode_matchTok off len).trans hbytes, hbytes ▸ encMatch_of_wf h, hfields⟩

end Sys2Proof
end

section
/-! PROOF. The sliding window's write and read (R111, R112). A write is one write of the window's memory at the cursor, and a
read is one read of it at the index reduced modulo 1024, so both statements come down to the memory's read-after-write law. -/

namespace Sys2Proof.Machine

/-! ## WinWrite (R111) -/

@[simp] theorem winWrite_index (b : Byte) (s : State) : (winWrite b s).1 = s.cur := rfl

@[simp] theorem winWrite_win (b : Byte) (s : State) :
    (winWrite b s).2.win = s.win.write s.cur.toNat b := rfl

@[simp] theorem winWrite_cur (b : Byte) (s : State) : (winWrite b s).2.cur = s.cur + 1 := rfl

/-- WinWrite changes the window and the cursor alone. -/
theorem winWrite_frame (b : Byte) (s : State) :
    (winWrite b s).2 = { s with win := (winWrite b s).2.win, cur := (winWrite b s).2.cur } := rfl

/-! ## WinRead (R112) -/

/-- An index that is congruent to a slot modulo 1024 reads that slot. -/
theorem winRead_of_emod_eq {a : Int} {c : Nat} (h : a % 1024 = c) (s : State) : winRead a s = s.win.read c := by
  have hslot : (a % 1024).toNat = c := by omega
  exact congrArg s.win.read hslot

/-- Every integer index has its slot: the reduction modulo 1024 is a natural number. -/
theorem exists_slot_of_index (a : Int) : ∃ c : Nat, a % 1024 = c :=
  Int.eq_ofNat_of_zero_le (Int.emod_nonneg a (by decide))

/-- The cursor is a slot: read as an index, it is already reduced (R113). -/
theorem cur_emod (s : State) : (s.cur.toNat : Int) % 1024 = s.cur.toNat := by
  have hlt : s.cur.toNat < 1024 := s.cur.isLt
  omega

/-- After WinInit every index reads the blank byte, whatever the window held (R110). -/
@[simp] theorem winRead_winInit (a : Int) (s : State) : winRead a (winInit s) = 0x00 := Memory.read_nil _

/-- The read-after-write law of the window: the indices congruent to the old cursor read the byte written, every other index
reads what it read before. -/
theorem winRead_winWrite {s : State} (h : s.win.wf) (a : Int) (b : Byte) :
    winRead a (winWrite b s).2 = if a % 1024 = s.cur.toNat then b else winRead a s := by
  obtain ⟨c, hc⟩ := exists_slot_of_index a
  rw [winRead_of_emod_eq hc, winRead_of_emod_eq hc, winWrite_win, Memory.read_write h, hc]
  simp only [Int.natCast_inj]

/-! ## The obligations -/

/-- Settles O13: it holds, by the window's read-after-write law and the cursor's width of 10 bits. -/
theorem winWriteStoresAtTheCursor : Obligations.WinWriteStoresAtTheCursor := by
  intro s b hwf
  refine ⟨winWrite_index b s, ?stored, ?advanced, fun a ha => ?others, winWrite_frame b s⟩
  case stored => rw [winRead_winWrite hwf, if_pos (cur_emod s)]
  case advanced => rw [winWrite_cur, BitVec.toNat_add]; rfl
  case others => rw [winRead_winWrite hwf, if_neg ha]

/-- Settles O14: it holds, since WinRead sees its index modulo 1024 only. -/
theorem winReadReducesItsIndex : Obligations.WinReadReducesItsIndex := by
  intro s
  refine ⟨fun a ha => ?inRange, fun a k => ?periodic, fun a => winRead_winInit a s⟩
  case inRange =>
    have hslot : (a : Int) % 1024 = a := by omega
    exact winRead_of_emod_eq hslot s
  case periodic =>
    obtain ⟨c, hc⟩ := exists_slot_of_index a
    have hsame : (a + 1024 * k) % 1024 = c := (Int.add_mul_emod_self_left a 1024 k).trans hc
    rw [winRead_of_emod_eq hsame, winRead_of_emod_eq hc]

end Sys2Proof.Machine
end

section
/-! PROOF. The encoder's slots and its closed-form match search (R16, R144, R147 to R149). A slot and its distance from the
cursor are inverse to each other, so the scan order lists every slot once, oldest first. `mlen(c)` is characterised by what
lies below it (`le_matchLen_iff`), and `bestOf` by membership, greatest length and first place. -/

namespace Sys2Proof.Machine

/-! ## Slots and distances (R16) -/

theorem slotAt_lt (s : State) (d : Nat) : slotAt s d < 1024 := Nat.mod_lt _ (by decide)

theorem distance_slotAt (s : State) {d : Nat} (hd : d < 1024) : distance s (slotAt s d) = d := by
  have hcur : s.cur.toNat < 1024 := s.cur.isLt
  simp only [distance, slotAt, Config.winSize]
  omega

theorem slotAt_distance (s : State) {c : Nat} (hc : c < 1024) : slotAt s (distance s c) = c := by
  have hcur : s.cur.toNat < 1024 := s.cur.isLt
  simp only [distance, slotAt, Config.winSize]
  omega

@[simp] theorem mem_scanOrder {s : State} {c : Nat} : c ∈ scanOrder s ↔ c < 1024 := by
  refine ⟨scanOrder_bound, fun hc => ?_⟩
  have hdist : distance s c < 1024 := Nat.mod_lt _ (by decide)
  exact List.mem_map.mpr ⟨distance s c, List.mem_range.mpr hdist, slotAt_distance s hc⟩

/-- The scan runs from the oldest slot to the newest (R144). -/
theorem scanOrder_pairwise (s : State) : (scanOrder s).Pairwise (fun c d => distance s c < distance s d) := by
  refine List.pairwise_map.mpr (List.pairwise_lt_range.imp_of_mem fun {d e} hd he hlt => ?_)
  rwa [distance_slotAt s (List.mem_range.mp hd), distance_slotAt s (List.mem_range.mp he)]

/-! ## The initial candidates (R144) -/

theorem winRead_slot (s : State) {c : Nat} (hc : c < 1024) : winRead (c : Int) s = s.win.read c := by
  rw [winRead_nat, Nat.mod_eq_of_lt hc]

theorem mem_initialCands {s : State} {c : Nat} :
    c ∈ initialCands s ↔ c < 1024 ∧ s.win.read c = lookAhead s 0 := by
  rw [initialCands, List.mem_filter, mem_scanOrder, beq_iff_eq]
  exact and_congr_right fun hc => by rw [winRead_slot s hc]

/-- The first byte of a candidate is read from the window alone: no byte has been written yet (R148). -/
theorem hRead_zero (s : State) {c : Nat} (hc : c < 1024) : hRead s c 0 = s.win.read c := by
  rw [hRead, if_neg (Nat.not_lt_zero _), Nat.add_zero, winRead_slot s hc]

/-! ## `mlen(c)` (R149) -/

/-- A run of matching bytes is as long as it can be: it has `m` bytes exactly when the next `m` bytes match. -/
theorem le_matchRun_iff (s : State) (c n k m : Nat) :
    m ≤ matchRun s c n k ↔ m ≤ n ∧ ∀ j, j < m → hRead s c (k + j) = lookAhead s (k + j) := by
  induction n generalizing k m with
  | zero => simp +contextual [matchRun]
  | succ n ih =>
    cases m with
    | zero => simp
    | succ m =>
      rw [matchRun, Nat.forall_lt_succ_left]
      split
      · next hmatch =>
        simp only [Nat.add_le_add_iff_right, ih, hmatch, Nat.add_zero, true_and, Nat.add_assoc, Nat.add_comm 1]
      · next hmismatch => simp [hmismatch]

/-- `m ≤ mlen(c)` exactly when `m` is a length R149 admits: not above `maxL`, and every byte below it matches. -/
theorem le_matchLen_iff {s : State} {c m : Nat} :
    m ≤ matchLen s c ↔ m ≤ maxLen s ∧ ∀ k, k < m → hRead s c k = lookAhead s k := by
  simp only [matchLen, le_matchRun_iff, Nat.zero_add]

theorem le_maxLen_iff {s : State} {m : Nat} : m ≤ maxLen s ↔ m ≤ 66 ∧ m ≤ s.inCount - s.di := Nat.le_min

/-! ## The best slot of a list -/

theorem bestOf_cons_of_le {s : State} {c : Nat} {cs : List Nat} (h : (bestOf s cs).2 ≤ matchLen s c) :
    bestOf s (c :: cs) = (c, matchLen s c) := if_pos h

theorem bestOf_cons_of_lt {s : State} {c : Nat} {cs : List Nat} (h : matchLen s c < (bestOf s cs).2) :
    bestOf s (c :: cs) = bestOf s cs := if_neg (Nat.not_le.mpr h)

/-- No slot of the list matches more bytes than the best one. -/
theorem matchLen_le_bestOf {s : State} {cs : List Nat} {d : Nat} (hd : d ∈ cs) :
    matchLen s d ≤ (bestOf s cs).2 := by
  induction cs with
  | nil => cases hd
  | cons c cs ih =>
    rcases Nat.lt_or_ge (matchLen s c) (bestOf s cs).2 with hlt | hle
    · rw [bestOf_cons_of_lt hlt]
      rcases List.mem_cons.mp hd with rfl | hd
      · exact Nat.le_of_lt hlt
      · exact ih hd
    · rw [bestOf_cons_of_le hle]
      rcases List.mem_cons.mp hd with rfl | hd
      · exact Nat.le_refl _
      · exact Nat.le_trans (ih hd) hle

/-- A best length above 0 is the length of a slot of the list. -/
theorem bestOf_mem {s : State} {cs : List Nat} (hpos : 0 < (bestOf s cs).2) :
    (bestOf s cs).1 ∈ cs ∧ matchLen s (bestOf s cs).1 = (bestOf s cs).2 := by
  induction cs with
  | nil => cases hpos
  | cons c cs ih =>
    rcases Nat.lt_or_ge (matchLen s c) (bestOf s cs).2 with hlt | hle
    · rw [bestOf_cons_of_lt hlt]
      exact (ih (by omega)).imp_left (List.mem_cons_of_mem c)
    · rw [bestOf_cons_of_le hle]
      exact ⟨List.mem_cons_self, rfl⟩

/-- The best slot comes first among those of its length: in a list with rising distances, it is the oldest. -/
theorem bestOf_oldest {s : State} {cs : List Nat} (hsorted : cs.Pairwise (fun c d => distance s c < distance s d))
    {d : Nat} (hd : d ∈ cs) (hbest : matchLen s d = (bestOf s cs).2) :
    distance s (bestOf s cs).1 ≤ distance s d := by
  induction cs with
  | nil => cases hd
  | cons c cs ih =>
    obtain ⟨hhead, htail⟩ := List.pairwise_cons.mp hsorted
    rcases Nat.lt_or_ge (matchLen s c) (bestOf s cs).2 with hlt | hle
    · rw [bestOf_cons_of_lt hlt] at hbest ⊢
      rcases List.mem_cons.mp hd with rfl | hd
      · omega
      · exact ih htail hd hbest
    · rw [bestOf_cons_of_le hle]
      rcases List.mem_cons.mp hd with rfl | hd
      · exact Nat.le_refl _
      · exact Nat.le_of_lt (hhead d hd)

/-! ## MatchSearch (R147, R149) -/

theorem matchSearch_eq_some_iff {s : State} {r : Nat × Nat} :
    matchSearch s = some r ↔ bestOf s (scanOrder s) = r ∧ 3 ≤ r.2 := by
  simp only [matchSearch, Config.minMatch]
  split
  · next hlt => exact ⟨fun h => (by cases h), fun ⟨hr, hge⟩ => absurd (hr ▸ hlt) (Nat.not_lt.mpr hge)⟩
  · next hge => exact ⟨fun h => Option.some.inj h ▸ ⟨rfl, Nat.not_lt.mp hge⟩, fun ⟨hr, _⟩ => congrArg some hr⟩

/-- NONE exactly when every slot matches fewer than three bytes. -/
theorem matchSearch_eq_none_iff {s : State} : matchSearch s = none ↔ ∀ c, c < 1024 → matchLen s c < 3 := by
  simp only [matchSearch, Config.minMatch, ite_eq_left_iff, Nat.not_lt, reduceCtorEq, imp_false, Nat.not_le]
  refine ⟨fun hshort c hc => Nat.lt_of_le_of_lt (matchLen_le_bestOf (mem_scanOrder.mpr hc)) hshort, fun hshort => ?_⟩
  rcases Nat.eq_zero_or_pos (bestOf s (scanOrder s)).2 with hzero | hpos
  · omega
  · obtain ⟨hmem, hlen⟩ := bestOf_mem hpos
    exact hlen ▸ hshort _ (mem_scanOrder.mp hmem)

/-- The search's answer is a slot, and its length is that slot's `mlen`; no slot has a longer one, and none of that length is
older. -/
theorem matchSearch_some {s : State} {r : Nat × Nat} (h : matchSearch s = some r) :
    r.1 < 1024 ∧ 3 ≤ r.2 ∧ matchLen s r.1 = r.2 ∧
      ∀ c, c < 1024 → matchLen s c ≤ r.2 ∧ (matchLen s c = r.2 → distance s r.1 ≤ distance s c) := by
  obtain ⟨rfl, hmin⟩ := matchSearch_eq_some_iff.mp h
  obtain ⟨hmem, hlen⟩ := bestOf_mem (Nat.zero_lt_of_lt hmin)
  refine ⟨mem_scanOrder.mp hmem, hmin, hlen, fun c hc => ?_⟩
  have hscan : c ∈ scanOrder s := mem_scanOrder.mpr hc
  exact ⟨matchLen_le_bestOf hscan, bestOf_oldest (scanOrder_pairwise s) hscan⟩

/-! ## The obligations -/

/-- Settles O44: it holds. The candidates are a sublist of the scan order, and a slot that is none of them mismatches at its
first byte, so with no candidate every `mlen` is 0. -/
theorem initialCandidatesInScanOrder : Obligations.InitialCandidatesInScanOrder := by
  intro s
  refine ⟨fun c => mem_initialCands, (scanOrder_pairwise s).sublist (initialCands_sublist s), fun hnone => ?_⟩
  refine matchSearch_eq_none_iff.mpr fun c hc => ?_
  have hmiss : ¬ 1 ≤ matchLen s c := fun hone => by
    have hfirst : hRead s c 0 = lookAhead s 0 := (le_matchLen_iff.mp hone).2 0 Nat.one_pos
    have hcand : c ∈ initialCands s := mem_initialCands.mpr ⟨hc, (hRead_zero s hc).symm.trans hfirst⟩
    rw [hnone] at hcand
    cases hcand
  omega

/-- Settles O46: it holds. The answer's length is the greatest `mlen` (`matchSearch_some`), and a slot that matches `m` bytes
has `m ≤ mlen` (`le_matchLen_iff`). -/
theorem matchSearchIsLongestThenOldest : Obligations.MatchSearchIsLongestThenOldest := by
  intro s
  refine ⟨fun off len h => ?found, fun h c hc hroom => ?none⟩
  case found =>
    obtain ⟨hoff, hmin, hlen, hbest⟩ := matchSearch_some h
    obtain ⟨hmax, hbytes⟩ := le_matchLen_iff.mp (Nat.le_of_eq hlen.symm)
    obtain ⟨h66, hinput⟩ := le_maxLen_iff.mp hmax
    refine ⟨hoff, hmin, h66, hinput, hbytes, fun c m hc hm66 hminput hmatch => ?_⟩
    have hm : m ≤ matchLen s c := le_matchLen_iff.mpr ⟨le_maxLen_iff.mpr ⟨hm66, hminput⟩, hmatch⟩
    obtain ⟨hle, holdest⟩ := hbest c hc
    exact ⟨Nat.le_trans hm hle, fun heq => holdest (Nat.le_antisymm hle (heq ▸ hm))⟩
  case none =>
    have hshort : ¬ 3 ≤ matchLen s c := Nat.not_le.mpr (matchSearch_eq_none_iff.mp h c hc)
    have hmax : 3 ≤ maxLen s := le_maxLen_iff.mpr ⟨by decide, hroom⟩
    refine Classical.byContradiction fun hall => hshort (le_matchLen_iff.mpr ⟨hmax, fun k hk => ?_⟩)
    exact Classical.byContradiction fun hne => hall ⟨k, hk, hne⟩

end Sys2Proof.Machine
end

section
/-! PROOF. MATCH while COMPRESS runs (R121, R142, R151). The instruction stages its two bytes and then commits its input bytes;
each half is one run of writes, so the statement is read off from one law for each: `Memory.read_writeSeq` for `tokbuf`, and
`putWinSeq_read` for the window, whose addresses wrap. -/

namespace Sys2Proof.Machine

/-! ## A run of WinWrite calls (R114) -/

/-- A write moves the cursor on by one slot, so every distance shrinks by one. -/
theorem slotAt_putWin (b : Byte) (s : State) (d : Nat) : slotAt (putWin b s) d = slotAt s (d + 1) := by
  have hcur : (putWin b s).cur.toNat = (s.cur.toNat + 1) % 1024 := by rw [putWin_cur, BitVec.toNat_add]; rfl
  simp only [slotAt, hcur, Config.winSize]
  omega

theorem slotAt_eq_cur_iff (s : State) {d : Nat} (hd : d < 1024) : slotAt s d = s.cur.toNat ↔ d = 0 := by
  have hcur : s.cur.toNat < 1024 := s.cur.isLt
  simp only [slotAt, Config.winSize]
  omega

/-- The slot written is the one at distance 0; the others keep their bytes. -/
theorem putWin_read {s : State} (hwf : s.win.wf) (b : Byte) {d : Nat} (hd : d < 1024) :
    (putWin b s).win.read (slotAt s d) = if d = 0 then b else s.win.read (slotAt s d) := by
  rw [putWin_win, Memory.read_write hwf]
  simp only [slotAt_eq_cur_iff s hd]

/-- A run of at most 1024 writes fills the slots from the cursor on in order and keeps the others. -/
theorem putWinSeq_read {s : State} (hwf : s.win.wf) {bs : List Byte} (hlen : bs.length ≤ 1024) {d : Nat}
    (hd : d < 1024) :
    (putWinSeq bs s).win.read (slotAt s d) = if d < bs.length then bs.getD d 0 else s.win.read (slotAt s d) := by
  induction bs generalizing s d with
  | nil => rfl
  | cons b bs ih =>
    rw [List.length_cons] at hlen ⊢
    have hwf' : (putWin b s).win.wf := Memory.write_wf hwf _ _
    rw [putWinSeq]
    cases d with
    | zero =>
      have hlast : slotAt s 0 = slotAt (putWin b s) 1023 := by
        rw [slotAt_putWin]; simp only [slotAt, Config.winSize]; omega
      rw [hlast, ih hwf' (by omega) (by decide), if_neg (by omega), if_pos (by omega), ← hlast,
        putWin_read hwf b (by decide)]
      rfl
    | succ d =>
      rw [← slotAt_putWin b, ih hwf' (by omega) (by omega), slotAt_putWin, putWin_read hwf b hd,
        if_neg (Nat.succ_ne_zero d)]
      simp only [Nat.add_lt_add_iff_right, List.getD_cons_succ]

/-! ## CommitMatch (R151) -/

@[simp] theorem commitMatch_win (len : Nat) (s : State) :
    (commitMatch len s).win = (putWinSeq (s.inp.slice s.di len) s).win := rfl
@[simp] theorem commitMatch_cur (len : Nat) (s : State) : (commitMatch len s).cur = s.cur + BitVec.ofNat 10 len := by
  simp only [commitMatch_eq, putWinSeq_cur, Memory.slice_length]
@[simp] theorem commitMatch_di (len : Nat) (s : State) : (commitMatch len s).di = s.di + len := by
  rw [commitMatch_eq]
@[simp] theorem commitMatch_tokbuf (len : Nat) (s : State) : (commitMatch len s).tokbuf = s.tokbuf := by
  simp only [commitMatch_eq, putWinSeq_tokbuf]
@[simp] theorem commitMatch_tblen (len : Nat) (s : State) : (commitMatch len s).tblen = s.tblen := by
  simp only [commitMatch_eq, putWinSeq_tblen]
@[simp] theorem commitMatch_tcnt (len : Nat) (s : State) : (commitMatch len s).tcnt = s.tcnt := by
  simp only [commitMatch_eq, putWinSeq_tcnt]

/-- CommitMatch changes the window, the cursor and `di` alone. -/
theorem commitMatch_frame (len : Nat) (s : State) :
    commitMatch len s =
      { s with win := (commitMatch len s).win, cur := (commitMatch len s).cur, di := (commitMatch len s).di } := by
  rw [commitMatch_cur, commitMatch_di, commitMatch_win, commitMatch_eq]
  conv => lhs; rw [putWinSeq_eq, Memory.slice_length]

/-- The slots from the cursor on hold the committed input bytes; the others keep theirs. -/
theorem commitMatch_read {s : State} (hwf : s.win.wf) {len : Nat} (hlen : len ≤ 1024) {d : Nat} (hd : d < 1024) :
    (commitMatch len s).win.read (slotAt s d) =
      if d < len then s.inAt (s.di + d) else s.win.read (slotAt s d) := by
  rw [commitMatch_win, putWinSeq_read hwf (by rwa [Memory.slice_length]) hd, Memory.slice_length]
  split
  · next hlt => exact Memory.slice_getD _ _ _ _ hlt
  · rfl

/-! ## MATCH in COMPRESS (R142) -/

/-- With room in the chunk and in the input, MATCH in range stages its bytes and commits. -/
theorem exec_matchTok_encoding {s : State} {off len : Nat} (henc : s.encoding) (hwf : (Instr.matchTok off len).wf = true)
    (hstage : stagingRoom 2 s = true) (hinput : inputRoom len s = true) :
    exec (.matchTok off len) s = .next (commitMatch len (stageToken false (matchBytes off len) s)) := by
  obtain ⟨hbusy, hop⟩ := henc
  calc exec (.matchTok off len) s
      = matchEncode off len s := running_compress hbusy hop
    _ = .next (commitMatch len (stageToken false (matchBytes off len) s)) := by
      simp [matchEncode, encMatch_of_wf hwf, hstage, hinput]

/-! ## The obligation -/

/-- Settles O41: it holds, by the read laws of the two runs of writes and the frame of each half. -/
theorem matchIsStagedAndCommitted : Obligations.MatchIsStagedAndCommitted := by
  intro s off len henc hwin htok hwf htcnt htblen hinput
  obtain ⟨b0, b1, hbytes, -⟩ := matchBytes_fields hwf
  obtain ⟨-, -, hmax⟩ := (wf_matchTok off len).mp hwf
  have hexec := exec_matchTok_encoding henc hwf ((stagingRoom_iff 2 s).mpr ⟨htcnt, htblen⟩)
    ((inputRoom_iff len s).mpr hinput)
  have hencoded := encMatch_of_wf hwf
  rw [hbytes] at hexec hencoded
  have hread {d : Nat} (hd : d < 1024) :=
    commitMatch_read (s := stageToken false [b0, b1] s) (len := len) hwin (by omega) hd
  refine ⟨_, b0, b1, hexec, hencoded, ?byte0, ?byte1, commitMatch_tblen .., commitMatch_tcnt .., commitMatch_di ..,
    ?cursor, fun k hk => ?committed, fun k hk hk' => ?kept, fun a ha => ?staged, ?frame⟩
  case byte0 => simp [Memory.read_writeSeq htok]
  case byte1 => simp [Memory.read_writeSeq htok]
  case cursor => rw [commitMatch_cur, stageToken_cur, BitVec.toNat_add, BitVec.toNat_ofNat, Nat.add_mod_mod]
  case committed => exact (hread (by omega)).trans (if_pos hk)
  case kept => exact (hread hk').trans (if_neg (by omega))
  case staged =>
    rw [commitMatch_tokbuf, stageToken_tokbuf, Memory.read_writeSeq htok, if_neg]
    simp only [List.length_cons, List.length_nil]
    omega
  case frame =>
    rw [commitMatch_tokbuf, commitMatch_tblen, commitMatch_tcnt]
    exact commitMatch_frame len _

end Sys2Proof.Machine
end

section
/-! PROOF. What the round trip (R183) needs of runs and of memories: runs compose, and a stretch of memory is read as a list
of bytes that splits where two stretches meet. -/

namespace Sys2Proof.Machine

/-! ## Runs -/

/-- The block gets from `s` to `t` in some number of steps. -/
def Runs (s t : State) : Prop := ∃ k, Reaches k s t

theorem Runs.refl (s : State) : Runs s s := ⟨0, rfl⟩

/-- On any machine, a run of `k + 1` steps is one step and a run of `k`. -/
theorem run_succ_eq_next_iff (M : Host.Core) {k : Nat} {s u : M.State} :
    M.run (k + 1) s = .next u ↔ ∃ t, M.step s = .next t ∧ M.run k t = .next u := by
  rw [Host.Core.run]
  cases M.step s with
  | next t => simp
  | fault r => simp
  | refused r => simp

theorem reaches_succ_iff {k : Nat} {s u : State} :
    Reaches (k + 1) s u ↔ ∃ t, step s = .next t ∧ Reaches k t u := run_succ_eq_next_iff core

/-- A run may begin with one more step. -/
theorem Runs.head {s t u : State} (hstep : step s = .next t) (hrun : Runs t u) : Runs s u := by
  obtain ⟨k, hk⟩ := hrun
  exact ⟨k + 1, reaches_succ_iff.mpr ⟨t, hstep, hk⟩⟩

theorem Runs.single {s t : State} (hstep : step s = .next t) : Runs s t := .head hstep (.refl t)

theorem Reaches.runs {k : Nat} {s t u : State} (hk : Reaches k s t) (hrun : Runs t u) : Runs s u := by
  induction k generalizing s with
  | zero =>
    cases hk
    exact hrun
  | succ k ih =>
    obtain ⟨s', hstep, hk'⟩ := reaches_succ_iff.mp hk
    exact .head hstep (ih hk')

theorem Runs.trans {s t u : State} (h1 : Runs s t) (h2 : Runs t u) : Runs s u := by
  obtain ⟨k, hk⟩ := h1
  exact hk.runs h2

/-! ## Stretches of memory -/

namespace Memory

@[simp] theorem slice_one (m : Memory) (a : Nat) : m.slice a 1 = [m.read a] := rfl

theorem slice_add (m : Memory) (a j k : Nat) : m.slice a (j + k) = m.slice a j ++ m.slice (a + j) k := by
  simp only [slice, List.range_add, List.map_append, List.map_map, Function.comp_def, Nat.add_assoc]

theorem slice_succ (m : Memory) (a k : Nat) : m.slice a (k + 1) = m.read a :: m.slice (a + 1) k := by
  rw [Nat.add_comm, slice_add, slice_one, List.singleton_append]

/-- Two stretches agree exactly when their bytes do. -/
theorem slice_eq_iff {m n : Memory} {a b k : Nat} :
    m.slice a k = n.slice b k ↔ ∀ j, j < k → m.read (a + j) = n.read (b + j) := by
  simp only [slice, List.map_inj_left, List.mem_range]

/-- A stretch that holds two lists in a row holds each in its place. -/
theorem slice_eq_append_iff {m : Memory} {a : Nat} {bs cs : List Byte} :
    m.slice a (bs ++ cs).length = bs ++ cs ↔
      m.slice a bs.length = bs ∧ m.slice (a + bs.length) cs.length = cs := by
  rw [List.length_append, slice_add]
  exact ⟨fun h => List.append_inj h (slice_length ..), fun ⟨hl, hr⟩ => by rw [hl, hr]⟩

/-- Writing at the end of a stretch appends to it. -/
theorem slice_writeSeq {m : Memory} (hm : m.wf) (k : Nat) (bs : List Byte) :
    (m.writeSeq k bs).slice 0 (k + bs.length) = m.slice 0 k ++ bs := by
  rw [slice_add]
  congr 1
  · refine slice_eq_iff.mpr fun j hj => ?_
    rw [read_writeSeq hm, if_neg (by omega)]
  · refine List.ext_getElem (by simp) fun j hj hj' => ?_
    simp only [slice, List.getElem_map, List.getElem_range, read_writeSeq hm]
    have hindex : 0 + k + j - k = j := by omega
    rw [if_pos (by omega), hindex, ← List.getElem_eq_getD]

end Memory

end Sys2Proof.Machine
end

section
/-! PROOF. Decoding undoes encoding (R86, R87), and the decoder fetches what stands at its place: while the container holds
an instruction's bytes at `pp`, the fetch at its position answers it. -/

namespace Sys2Proof

/-! ## Operand assembly of a MATCH (R86) -/

theorem matchLength_eq (b1 : Byte) : matchLength b1 = b1.toNat % 64 + 3 :=
  congrArg (· + 3) (Nat.and_two_pow_sub_one_eq_mod _ 6)

/-- The mask `0xC0` keeps a byte's two high bits and clears the rest. -/
theorem byte_and_highMask (b : Byte) : b.toNat &&& 0xC0 = b.toNat / 64 * 64 := by
  have hlt : b.toNat < 256 := b.isLt
  have hdiv : (b.toNat &&& 0xC0) / 64 = b.toNat / 64 % 4 :=
    (Nat.and_div_two_pow (n := 6)).trans (Nat.and_two_pow_sub_one_eq_mod _ 2)
  have hmod : (b.toNat &&& 0xC0) % 64 = 0 := (Nat.and_mod_two_pow (n := 6)).trans (Nat.and_zero _)
  omega

theorem matchOffset_eq (b0 b1 : Byte) : matchOffset b0 b1 = b1.toNat / 64 * 256 + b0.toNat := by
  have hshift : (b1.toNat / 64 * 64) <<< 2 = 2 ^ 8 * (b1.toNat / 64) := by rw [Nat.shiftLeft_eq]; omega
  rw [matchOffset, byte_and_highMask, hshift, Nat.or_comm, ← Nat.two_pow_add_eq_or_of_lt b0.isLt]
  omega

/-- The bytes of a Match in range decode to it (R86). -/
theorem decodeMatch_matchBytes {off len : Nat} (h : (Instr.matchTok off len).wf = true) (rest : List Byte) :
    decodeMatch (matchBytes off len ++ rest) = .ok (.matchTok off len, rest) := by
  obtain ⟨b0, b1, hbytes, h0, hhigh, hlow⟩ := matchBytes_fields h
  obtain ⟨hoff, hmin, hmax⟩ := (Machine.wf_matchTok off len).mp h
  have hoffset : matchOffset b0 b1 = off := by rw [matchOffset_eq]; omega
  have hlength : matchLength b1 = len := by rw [matchLength_eq]; omega
  simp only [hbytes, List.cons_append, List.nil_append, decodeMatch, hoffset, hlength]

/-! ## The header's field (R11, R81) -/

theorem be32_bytesBE32 (v : Word32) :
    be32 (v.extractLsb' 24 8) (v.extractLsb' 16 8) (v.extractLsb' 8 8) (v.extractLsb' 0 8) = v := by
  apply BitVec.eq_of_toNat_eq
  have hlt : v.toNat < 2 ^ 32 := v.isLt
  simp only [be32, BitVec.toNat_ofNat, BitVec.extractLsb'_toNat, Nat.shiftRight_eq_div_pow]
  omega

theorem decodeHeader_headerBytes (p : Params) (n : Word32) (rest : List Byte) :
    decodeHeader p (headerBytes n ++ rest) = .ok (.header n, rest) := by
  have hfield : headerField (headerBytes n ++ rest) 2 = n := be32_bytesBE32 n
  have hA : headerField (headerBytes n ++ rest) 0 = Config.magicA := be32_bytesBE32 Config.magicA
  have hB : headerField (headerBytes n ++ rest) 1 = Config.magicB := be32_bytesBE32 Config.magicB
  have hC : headerField (headerBytes n ++ rest) 3 = Config.magicC := be32_bytesBE32 Config.magicC
  have hlen : Config.hdrLen ≤ (headerBytes n ++ rest).length := Nat.le_add_left 16 rest.length
  have hrest : (headerBytes n ++ rest).drop Config.hdrLen = rest := rfl
  rw [decodeHeader, if_neg (Nat.not_lt.mpr hlen), hfield, hA, hB, hC, hrest]
  simp

/-! ## The round trip of one instruction -/

theorem decode_encode_append (p : Params) {i : Instr} (h : i.wf = true) (rest : List Byte) :
    decode p i.position (encode i ++ rest) = .ok (i, rest) := by
  cases i with
  | header n => exact decodeHeader_headerBytes p n rest
  | flag f => rfl
  | lit b => rfl
  | matchTok off len => exact decodeMatch_matchBytes h rest
  | cmdClear => rfl
  | cmdCompress => rfl
  | cmdDecompress => rfl

namespace Machine

/-! ## What stands at the payload pointer -/

/-- The container holds these bytes from the payload pointer on. -/
def State.supplies (s : State) (bs : List Byte) : Prop :=
  s.pp + bs.length ≤ s.inCount ∧ s.inp.slice s.pp bs.length = bs

/-- Reading the first of two lists of bytes leaves the second at the payload pointer. -/
theorem State.supplies.advance {s t : State} {bs cs : List Byte} (h : s.supplies (bs ++ cs)) (hinp : t.inp = s.inp)
    (hlen : t.inLen = s.inLen) (hpp : t.pp = s.pp + bs.length) : t.supplies cs := by
  obtain ⟨hroom, hbytes⟩ := h
  rw [List.length_append] at hroom
  refine ⟨?_, ?_⟩
  · rw [hpp, State.inCount, hlen]
    exact (Nat.add_assoc ..).symm ▸ hroom
  · rw [hinp, hpp]
    exact (Memory.slice_eq_append_iff.mp hbytes).2

/-- The fetch reads as many bytes at an instruction's position as its encoding has. -/
theorem length_encode (i : Instr) : (encode i).length = Position.maxBytes i.position := by
  cases i with
  | header n => exact Laws.ByteCount.header n
  | flag f => exact Laws.ByteCount.flag f
  | lit b => exact Laws.ByteCount.lit b
  | matchTok off len => exact Laws.ByteCount.matchTok off len
  | cmdClear => exact Laws.ByteCount.cmdClear
  | cmdCompress => exact Laws.ByteCount.cmdCompress
  | cmdDecompress => exact Laws.ByteCount.cmdDecompress

theorem fetchBytes_payload {pos : Position} (hpos : pos ≠ .header) (s : State) :
    fetchBytes pos s = inBytes s s.pp (Position.maxBytes pos) := by
  cases pos with
  | header => exact absurd rfl hpos
  | _ => rfl

/-- The bytes of a payload object, standing at `pp`, are fetched as that object. -/
theorem fetch_of_supplies (p : Params) {s : State} {i : Instr} {rest : List Byte} (hwf : i.wf = true)
    (hpos : i.position ≠ .header) (h : s.supplies (encode i ++ rest)) : fetch p i.position s = .ok i := by
  obtain ⟨hroom, hbytes⟩ := h
  rw [List.length_append] at hroom
  have hfetch : fetchBytes i.position s = encode i := by
    rw [fetchBytes_payload hpos, inBytes, ← length_encode, Nat.min_eq_left (by omega)]
    exact (Memory.slice_eq_append_iff.mp hbytes).1
  have hdecode := decode_encode_append p hwf []
  rw [List.append_nil] at hdecode
  simp only [fetch, hfetch, hdecode]

end Machine

end Sys2Proof
end

section
/-! PROOF. Subst (R181). Only the first byte of MARK_FROM among its first twelve is `<`, so no marker begins inside the part of
a marker that is scanned before its byte 11 is behind the scan: replacing that byte neither destroys a later marker nor makes
one, and the scan finds exactly the markers of the output it was given. -/

namespace Sys2Proof.Machine

theorem markerAt_iff {m : Memory} {p : Nat} : markerAt m p = true ↔ m.slice p 24 = Config.markFrom := beq_iff_eq

theorem read_of_markerAt {m : Memory} {p j : Nat} (h : markerAt m p = true) (hj : j < 24) :
    m.read (p + j) = Config.markFrom.getD j 0 := by
  rw [← markerAt_iff.mp h, Memory.slice_getD _ _ _ _ hj]

/-- A marker begins with `<`. -/
theorem markerAt_eq_false {m : Memory} {p : Nat} (h : m.read p ≠ 0x3C) : markerAt m p = false :=
  Bool.eq_false_iff.mpr fun hmark => h (read_of_markerAt hmark (j := 0) (by decide))

theorem markFrom_inner_ne : ∀ j, j < 12 → 0 < j → Config.markFrom.getD j 0 ≠ 0x3C := by decide

/-- Replacing byte 11 of a marker leaves every later position a marker or none, as it was. -/
theorem markerAt_write {m : Memory} (hm : m.wf) {p q : Nat} (hp : markerAt m p = true) (hq : p < q) :
    markerAt (m.write (p + 11) 0x32) q = markerAt m q := by
  rcases Nat.lt_or_ge (p + 11) q with hfar | hnear
  · have hsame : (m.write (p + 11) 0x32).slice q 24 = m.slice q 24 :=
      Memory.slice_eq_iff.mpr fun j _ => Memory.read_write_other m (by omega) _
    exact congrArg (· == Config.markFrom) hsame
  · have hold : m.read q ≠ 0x3C := by
      have hread := read_of_markerAt hp (j := q - p) (by omega)
      rw [Nat.add_sub_cancel' (by omega)] at hread
      exact hread ▸ markFrom_inner_ne (q - p) (by omega) (by omega)
    have hnew : (m.write (p + 11) 0x32).read q ≠ 0x3C := by
      rw [Memory.read_write hm]
      split
      · decide
      · exact hold
    rw [markerAt_eq_false hold, markerAt_eq_false hnew]

/-- A byte that is no marker's byte 11 is kept. -/
theorem substScan_read_other {k p a : Nat} {m : Memory} (hm : m.wf)
    (ha : ∀ q, p ≤ q → q < p + k → markerAt m q = true → a ≠ q + 11) : (substScan k p m).read a = m.read a := by
  induction k generalizing p m with
  | zero => rfl
  | succ k ih =>
    rw [substScan]
    split
    · next hmark =>
      rw [ih (Memory.write_wf hm _ _), Memory.read_write_other]
      · exact ha p (Nat.le_refl p) (by omega) hmark
      · intro q hq hqk hmarkq
        rw [markerAt_write hm hmark hq] at hmarkq
        exact ha q (by omega) (by omega) hmarkq
    · exact ih hm fun q hq hqk => ha q (by omega) (by omega)

/-- Byte 11 of a marker in the scanned range becomes 0x32. -/
theorem substScan_read_marker {k p q : Nat} {m : Memory} (hm : m.wf) (hp : p ≤ q) (hk : q < p + k)
    (hmark : markerAt m q = true) : (substScan k p m).read (q + 11) = 0x32 := by
  induction k generalizing p m with
  | zero => omega
  | succ k ih =>
    rw [substScan]
    rcases Nat.eq_or_lt_of_le hp with rfl | hlt
    · rw [if_pos hmark, substScan_read_other (Memory.write_wf hm _ _) (fun r hr _ _ => by omega)]
      exact Memory.read_write_same hm _ _
    · split
      · next hmarkp =>
        exact ih (Memory.write_wf hm _ _) hlt (by omega) ((markerAt_write hm hmarkp hlt).trans hmark)
      · exact ih hm hlt (by omega) hmark

/-- Every marker of the output has its byte 11 replaced (R181). -/
theorem subst_read_marker {s : State} (hout : s.out.wf) {p : Nat} (hp : p + 24 ≤ s.olen)
    (hmark : s.out.slice p 24 = Config.markFrom) : (subst s).out.read (p + 11) = 0x32 := by
  rw [subst_out]
  exact substScan_read_marker hout (Nat.zero_le p) (by simp only [Config.markLen]; omega) (markerAt_iff.mpr hmark)

/-- Every byte of the output that is no marker's byte 11 is kept (R181). -/
theorem subst_read_other {s : State} (hout : s.out.wf) {a : Nat}
    (ha : ∀ p, p + 24 ≤ s.olen → a = p + 11 → s.out.slice p 24 ≠ Config.markFrom) :
    (subst s).out.read a = s.out.read a := by
  rw [subst_out]
  refine substScan_read_other hout fun q _ hq hmark heq => ha q ?_ heq (markerAt_iff.mp hmark)
  simp only [Config.markLen] at hq
  omega

end Sys2Proof.Machine
end

section
/-! PROOF. What ties the two operations together. Each of them, after `k` bytes of the input, has a window that depends on those
bytes alone (`winAfter`, R23): the encoder's after committing them, the decoder's after producing them, and the search's
hypothetical window after its look-ahead. A payload that spells the input (`Payload`) speaks of that window only, so the encoder
is proved to emit one and the decoder to follow one, each on its own. -/

namespace Sys2Proof.Machine

/-! ## The window after `k` bytes -/

/-- What slot `c` holds once the first `k` bytes of `x` have been written into a fresh window. -/
def winAfter (x : Memory) : Nat → Nat → Byte
  | 0, _ => Memory.blank
  | k + 1, c => if c = (Config.curInit + k) % Config.winSize then x.read k else winAfter x k c

/-- A window and its cursor after the first `k` bytes of `x`. -/
structure Tracks (x : Memory) (k : Nat) (w : Memory) (c : Slot) : Prop where
  wf : w.wf
  read : ∀ a, w.read a = winAfter x k a
  cursor : c.toNat = (Config.curInit + k) % Config.winSize

/-- WinInit makes the window of no bytes (R110). -/
theorem Tracks.init (x : Memory) : Tracks x 0 [] (BitVec.ofNat 10 Config.curInit) :=
  ⟨Memory.wf_nil, fun _ => rfl, rfl⟩

/-- Writing the next byte of `x` at the cursor makes the window of one byte more (R111). -/
theorem Tracks.write {x : Memory} {k : Nat} {w : Memory} {c : Slot} (h : Tracks x k w c) :
    Tracks x (k + 1) (w.write c.toNat (x.read k)) (c + 1) where
  wf := Memory.write_wf h.wf _ _
  read a := by rw [Memory.read_write h.wf, h.read, h.cursor, winAfter]
  cursor := by
    have hcur := h.cursor
    rw [BitVec.toNat_add, show (1 : Slot).toNat = 1 from rfl, hcur]
    simp only [Config.winSize, Config.curInit]
    omega

/-- A run of WinWrite calls with the next bytes of `x` (R114). -/
theorem Tracks.putWinSeq {x : Memory} {k : Nat} {s : State} (h : Tracks x k s.win s.cur) (n : Nat) :
    Tracks x (k + n) (putWinSeq (x.slice k n) s).win (putWinSeq (x.slice k n) s).cur := by
  induction n generalizing k s with
  | zero => exact h
  | succ n ih =>
    rw [Memory.slice_succ, show k + (n + 1) = k + 1 + n by omega]
    exact ih (s := putWin (x.read k) s) h.write

/-! ## Tokens that spell the input -/

/-- A token stands for the next bytes of `x` at position `k`: a Literal for the one byte it carries, a Match for the bytes its
source slots hold, each at the moment it is copied (R175). -/
def Spelt (x : Memory) (k : Nat) : Instr → Prop
  | .lit b => b = x.read k
  | .matchTok off len =>
    (Instr.matchTok off len).wf = true ∧ ∀ j, j < len → winAfter x (k + j) ((off + j) % Config.winSize) = x.read (k + j)
  | _ => False

/-- How many bytes a token stands for. -/
def tokenSpan : Instr → Nat
  | .lit _ => 1
  | .matchTok _ len => len
  | _ => 0

/-- The flag bit of a token (R83). -/
def tokenBit : Instr → Bool
  | .lit _ => true
  | _ => false

section
variable {x : Memory} {k : Nat} {i : Instr}

theorem Spelt.wf (h : Spelt x k i) : i.wf = true := by
  cases i with
  | lit b => rfl
  | matchTok off len => exact h.1
  | _ => exact h.elim

theorem Spelt.span_pos (h : Spelt x k i) : 0 < tokenSpan i := by
  cases i with
  | lit b => exact Nat.one_pos
  | matchTok off len =>
    obtain ⟨-, hmin, -⟩ := (wf_matchTok off len).mp h.1
    exact Nat.zero_lt_of_lt hmin
  | _ => exact h.elim

/-- The flag bit selects the token's format (R83, R87). -/
theorem Spelt.tokenPosition_bit (h : Spelt x k i) : tokenPosition (tokenBit i) = i.position := by
  cases i with
  | lit b => rfl
  | matchTok off len => rfl
  | _ => exact h.elim

theorem Spelt.position_ne_header (h : Spelt x k i) : i.position ≠ .header := by
  rw [← h.tokenPosition_bit, tokenPosition]
  split <;> decide

theorem Spelt.length_encode_le (h : Spelt x k i) : (encode i).length ≤ 2 := by
  rw [length_encode, ← h.tokenPosition_bit, tokenPosition]
  split <;> decide

end

/-- Tokens that spell `x` from position `k` to position `k'`. -/
inductive Spells (x : Memory) : Nat → List Instr → Nat → Prop
  | nil (k : Nat) : Spells x k [] k
  | cons {k k' : Nat} {i : Instr} {ts : List Instr} (head : Spelt x k i) (tail : Spells x (k + tokenSpan i) ts k') :
    Spells x k (i :: ts) k'

section
variable {x : Memory} {k k' : Nat} {ts : List Instr}

theorem Spells.snoc (h : Spells x k ts k') {i : Instr} (hi : Spelt x k' i) :
    Spells x k (ts ++ [i]) (k' + tokenSpan i) := by
  induction h with
  | nil k => exact .cons hi (.nil _)
  | cons head tail ih => exact .cons head (ih hi)

/-- Every token stands for a byte at least. -/
theorem Spells.length_le (h : Spells x k ts k') : k + ts.length ≤ k' := by
  induction h with
  | nil k => exact Nat.le_refl k
  | cons head tail ih =>
    have hpos := head.span_pos
    rw [List.length_cons]
    omega

/-- Eight tokens fill `tokbuf` at most (R27). -/
theorem Spells.length_bytes_le (h : Spells x k ts k') : (ts.flatMap encode).length ≤ 2 * ts.length := by
  induction h with
  | nil k => exact Nat.le_refl _
  | cons head tail ih =>
    have hle := head.length_encode_le
    rw [List.flatMap_cons, List.length_append, List.length_cons]
    omega

end

/-- A flag byte whose bit `j` is the flag bit of token `j`, the bits above the last token being 0 (R83). -/
def FlagsOf (f : Byte) (ts : List Instr) : Prop := ∀ j, flagBit f j = (ts[j]?).any tokenBit

/-- The payload bytes of chunks that spell `x` from position `k` to its end `n`: only a chunk that reaches the end may hold
fewer than eight tokens (R142). -/
inductive Payload (x : Memory) (n : Nat) : Nat → List Byte → Prop
  | done : Payload x n n []
  | chunk {k k' : Nat} {f : Byte} {ts : List Instr} {rest : List Byte} (more : k < n) (flags : FlagsOf f ts)
    (spells : Spells x k ts k') (count : ts.length ≤ 8) (full : ts.length = 8 ∨ k' = n) (tail : Payload x n k' rest) :
    Payload x n k (f :: ts.flatMap encode ++ rest)

theorem Payload.le {x : Memory} {n k : Nat} {bs : List Byte} (h : Payload x n k bs) : k ≤ n := by
  cases h with
  | done => exact Nat.le_refl n
  | chunk more => exact Nat.le_of_lt more

end Sys2Proof.Machine
end

section
/-! PROOF. DECOMPRESS follows a payload that spells the input: token by token, chunk by chunk, and to its end (R170 to R175). -/

namespace Sys2Proof.Machine

/-- DECOMPRESS runs alone and has produced the first `k` bytes of `x`, of the `l` that are wanted. -/
structure Follows (x : Memory) (l : Word32) (k : Nat) (d : State) : Prop where
  alone : d.alone = true
  busy : d.phase = .busy
  op : d.op = .decompress
  ulen : d.ulen = l
  outLen : d.outLen = k
  olen : d.olen = k
  tracks : Tracks x k d.win d.cur
  outWf : d.out.wf
  outRead : ∀ a, a < k → d.out.read a = x.read a

section
variable {x : Memory} {l : Word32} {k : Nat} {d : State}

/-! ## One byte (R174, R175) -/

/-- Appending the next byte of `x` and writing it into the window. -/
theorem Follows.produce (h : Follows x l k d) :
    Follows x l (k + 1) (putWin (x.read k) { emit (x.read k) d with olen := d.olen + 1 }) where
  alone := h.alone
  busy := h.busy
  op := h.op
  ulen := h.ulen
  outLen := congrArg (· + 1) h.outLen
  olen := congrArg (· + 1) h.olen
  tracks := h.tracks.write
  outWf := Memory.write_wf h.outWf _ _
  outRead a ha := by
    simp only [putWin_out, emit_out, h.outLen, Memory.read_write h.outWf]
    split
    · next heq => rw [heq]
    · next hne => exact h.outRead a (by omega)

/-- One step of a Match copy whose source slot holds the next byte of `x`. -/
theorem Follows.copyStep (h : Follows x l k d)
    (hsrc : winAfter x k ((d.off.toNat + d.i) % Config.winSize) = x.read k) : Follows x l (k + 1) (copyStep d) := by
  have hbyte : winRead ((d.off.toNat : Int) + (d.i : Int)) d = x.read k := by
    rw [← hsrc, ← h.tracks.read, ← winRead_nat, Int.natCast_add]
  rw [Machine.copyStep, hbyte]
  exact { h.produce with }

/-- Without CLIP_AT_ULEN the copy is never cut (R8). -/
theorem copyLoop_default_succ (n : Nat) (d : State) :
    copyLoop Params.default (n + 1) d = copyLoop Params.default n (copyStep d) := rfl

/-- The copy of a Match whose source slots hold the next bytes of `x`, each when its turn comes. -/
theorem Follows.copyLoop (h : Follows x l k d) (n : Nat)
    (hsrc : ∀ j, j < n → winAfter x (k + j) ((d.off.toNat + d.i + j) % Config.winSize) = x.read (k + j)) :
    Follows x l (k + n) (copyLoop Params.default n d) := by
  induction n generalizing k d with
  | zero => exact h
  | succ n ih =>
    have hfirst := h.copyStep (hsrc 0 (Nat.succ_pos n))
    rw [copyLoop_default_succ, show k + (n + 1) = k + 1 + n by omega]
    refine ih hfirst fun j hj => ?_
    have hnext := hsrc (j + 1) (Nat.succ_lt_succ hj)
    rw [copyStep_off, copyStep_i, show k + 1 + j = k + (j + 1) by omega,
      show d.off.toNat + (d.i + 1) + j = d.off.toNat + d.i + (j + 1) by omega]
    exact hnext

/-! ## One token -/

theorem exec_lit_decoding {b : Byte} (hbusy : d.phase = .busy) (hop : d.op = .decompress) (hpp : d.pp + 1 ≤ d.inCount) :
    exec (.lit b) d =
      .next (nextBit (putWin b { emit b { d with pp := d.pp + 1 } with olen := d.olen + 1 })) := by
  have hroom : ¬ payloadShort 1 d = true := by rw [payloadShort_iff]; omega
  calc exec (.lit b) d
      = litDecode Params.default b d := running_decompress hbusy hop
    _ = _ := if_neg hroom

theorem exec_matchTok_decoding {off len : Nat} (hbusy : d.phase = .busy) (hop : d.op = .decompress)
    (hpp : d.pp + 2 ≤ d.inCount) :
    exec (.matchTok off len) d = .next (nextBit (copyLoop Params.default len (matchBegin off len d))) := by
  have hroom : ¬ payloadShort 2 d = true := by rw [payloadShort_iff]; omega
  calc exec (.matchTok off len) d
      = matchDecode Params.default off len d := running_decompress hbusy hop
    _ = _ := if_neg hroom

/-- A token that spells the next bytes, standing at `pp`, is consumed and produces them. -/
theorem Follows.exec_token (h : Follows x l k d) {i : Instr} {rest : List Byte} (hi : Spelt x k i)
    (hsup : d.supplies (encode i ++ rest)) :
    ∃ e, exec i d = .next (nextBit e) ∧ Follows x l (k + tokenSpan i) e ∧ e.supplies rest ∧
      e.t = d.t ∧ e.flags = d.flags := by
  have hroom : d.pp + (encode i).length ≤ d.inCount := by
    have hboth := hsup.1
    rw [List.length_append] at hboth
    omega
  cases i with
  | lit b =>
    obtain rfl : b = x.read k := hi
    have hat : Follows x l k { d with pp := d.pp + 1 } := { h with }
    exact ⟨_, exec_lit_decoding h.busy h.op hroom, hat.produce, hsup.advance rfl rfl rfl, rfl, rfl⟩
  | matchTok off len =>
    obtain ⟨hwf, hsrc⟩ := hi
    obtain ⟨hoff, -, -⟩ := (wf_matchTok off len).mp hwf
    have hat : Follows x l k (matchBegin off len d) := { h with }
    have hoffset : (matchBegin off len d).off.toNat = off := Nat.mod_eq_of_lt (by omega)
    have hcopy := hat.copyLoop len fun j hj => by
      rw [hoffset, matchBegin_i, Nat.add_zero]
      exact hsrc j hj
    obtain ⟨w, o, n, -, -, hloop⟩ := copyLoop_eq Params.default len (matchBegin off len d)
    refine ⟨_, exec_matchTok_decoding h.busy h.op hroom, hcopy, hsup.advance ?_ ?_ ?_, ?_, ?_⟩
    all_goals rw [hloop]; rfl
  | _ => exact hi.elim

/-! ## The places of DECOMPRESS -/

theorem Follows.step_eq (h : Follows x l k d) : step d = decompressStep Params.default exec d :=
  (step_alone h.alone).trans (sequencer_decompress h.busy h.op)

theorem Follows.not_outputDone (h : Follows x l k d) (hmore : k < l.toNat) : ¬ outputDone d = true := by
  rw [outputDone_iff, h.ulen, h.olen]
  omega

/-- Between chunks the flag byte at `pp` is fetched (R172). -/
theorem Follows.step_flag (h : Follows x l k d) (hmore : k < l.toNat) (hstage : d.stage = .chunk) {f : Byte}
    {rest : List Byte} (hsup : d.supplies (f :: rest)) :
    step d = .next { d with flags := f, pp := d.pp + 1, t := 0, stage := .token } := by
  have hfetch : fetch Params.default .flag d = .ok (.flag f) :=
    fetch_of_supplies Params.default (i := .flag f) rfl Position.noConfusion hsup
  have hroom : ¬ payloadShort 1 d = true := by
    have hall := hsup.1
    rw [List.length_cons] at hall
    rw [payloadShort_iff]
    omega
  calc step d
      = decompressStep Params.default exec d := h.step_eq
    _ = fetchRun Params.default exec .flag d := by simp only [decompressStep, hstage, if_neg (h.not_outputDone hmore)]
    _ = exec (.flag f) d := by simp only [fetchRun, hfetch]
    _ = flagFetch Params.default f d := running_decompress h.busy h.op
    _ = _ := if_neg hroom

/-- Inside a chunk the token at `pp` runs, when the flag byte's bit `t` is the token's (R173). -/
theorem Follows.step_token (h : Follows x l k d) (hmore : k < l.toNat) (hstage : d.stage = .token) {i : Instr}
    {rest : List Byte} (hi : Spelt x k i) (hbit : flagBit d.flags d.t = tokenBit i)
    (hsup : d.supplies (encode i ++ rest)) : step d = exec i d := by
  have hfetch := fetch_of_supplies Params.default hi.wf hi.position_ne_header hsup
  calc step d
      = decompressStep Params.default exec d := h.step_eq
    _ = fetchRun Params.default exec (tokenPosition (flagBit d.flags d.t)) d := by
      simp only [decompressStep, hstage, if_neg (h.not_outputDone hmore)]
    _ = exec i d := by simp only [hbit, hi.tokenPosition_bit, fetchRun, hfetch]

/-- The decoder's place when the next flag bit is `t`: inside the chunk up to bit 7, between chunks after it (R173). -/
def bitStage (t : Nat) : Stage := if t < Config.chunkTokens then .token else .chunk

theorem bitStage_ne_header (t : Nat) : bitStage t ≠ .header := by
  rw [bitStage]
  split <;> decide

/-- The tokens of a chunk run one after the other, each under its flag bit. -/
theorem Follows.run_tokens (h : Follows x l k d) {ts : List Instr} {k' : Nat} {rest : List Byte}
    (hspell : Spells x k ts k') (hend : k' ≤ l.toNat) (hcount : d.t + ts.length ≤ 8)
    (hflags : ∀ j, flagBit d.flags (d.t + j) = (ts[j]?).any tokenBit) (hstage : d.stage = bitStage d.t)
    (hsup : d.supplies (ts.flatMap encode ++ rest)) :
    ∃ e, Runs d e ∧ Follows x l k' e ∧ e.supplies rest ∧ e.stage = bitStage (d.t + ts.length) := by
  induction hspell generalizing d with
  | nil k => exact ⟨d, .refl d, h, hsup, hstage⟩
  | @cons k k' i ts head tail ih =>
    rw [List.length_cons] at hcount ⊢
    rw [List.flatMap_cons, List.append_assoc] at hsup
    have hmore : k < l.toNat := by
      have hpos := head.span_pos
      have hle := tail.length_le
      omega
    have hinside : d.stage = .token := hstage.trans (if_pos (by simp only [Config.chunkTokens]; omega))
    have hstep := h.step_token hmore hinside head (hflags 0) hsup
    obtain ⟨e, hexec, hfollow, hrest, ht, hf⟩ := h.exec_token head hsup
    have hnext : Follows x l (k + tokenSpan i) (nextBit e) := { hfollow with }
    have hsucc : (nextBit e).t = d.t + 1 := congrArg (· + 1) ht
    have hshift (j : Nat) : (nextBit e).t + j = d.t + (j + 1) := by omega
    obtain ⟨e', hrun, hfollow', hrest', hstage'⟩ := ih hnext hend (by omega)
      (fun j => by rw [hshift, nextBit_flags, hf]; exact hflags (j + 1)) rfl hrest
    exact ⟨e', .head (hstep.trans hexec) hrun, hfollow', hrest', by rw [hstage', hshift]⟩

/-! ## The payload and the end -/

/-- A payload that spells the rest of the input is followed to the input's end. -/
theorem Follows.run_payload (h : Follows x l k d) {bs : List Byte} (hpay : Payload x l.toNat k bs)
    (hsup : d.supplies bs) (hstage : d.stage = .chunk ∨ (d.stage ≠ .header ∧ k = l.toNat)) :
    ∃ e, Runs d e ∧ Follows x l l.toNat e ∧ e.stage ≠ .header := by
  induction hpay generalizing d with
  | done =>
    refine ⟨d, .refl d, h, ?_⟩
    rcases hstage with hchunk | ⟨hne, -⟩
    · rw [hchunk]; decide
    · exact hne
  | @chunk k k' f ts rest more flags spells count full tail ih =>
    have hchunk : d.stage = .chunk := hstage.resolve_right fun ⟨_, heq⟩ => Nat.ne_of_lt more heq
    have hstep := h.step_flag more hchunk hsup
    have hfollow : Follows x l k { d with flags := f, pp := d.pp + 1, t := 0, stage := .token } := { h with }
    obtain ⟨e, hrun, hfollow', hrest, hstage'⟩ := hfollow.run_tokens spells tail.le (by simpa using count)
      (fun j => by rw [Nat.zero_add]; exact flags j) rfl
      (hsup.advance (bs := [f]) (cs := ts.flatMap encode ++ rest) rfl rfl rfl)
    have hplace : e.stage = .chunk ∨ (e.stage ≠ .header ∧ k' = l.toNat) := by
      rw [hstage', Nat.zero_add]
      exact full.imp (fun hfull => by rw [hfull]; rfl) fun hend => ⟨bitStage_ne_header _, hend⟩
    obtain ⟨e', hrun', hend⟩ := ih hfollow' hrest hplace
    exact ⟨e', .head hstep (hrun.trans hrun'), hend⟩

/-- With every wanted byte produced the operation ends (R173). -/
theorem Follows.step_complete (h : Follows x l l.toNat d) (hstage : d.stage ≠ .header) :
    step d = .next (complete d) := by
  have hdone : outputDone d = true :=
    (outputDone_iff d).mpr (Nat.le_of_eq ((congrArg BitVec.toNat h.ulen).trans h.olen.symm))
  rw [h.step_eq, decompressStep]
  split
  · next hst => exact absurd hst hstage
  · exact if_pos hdone
  · exact if_pos hdone

end

/-! ## The whole operation -/

/-- The two parts of a container that holds a header and a payload. -/
theorem container_split {s : State} {l : Word32} {bs : List Byte}
    (hin : s.inp.slice 0 s.inCount = headerBytes l ++ bs) :
    s.inCount = 16 + bs.length ∧ s.inp.slice 0 16 = headerBytes l ∧ s.inp.slice 16 bs.length = bs := by
  have hlen : s.inCount = 16 + bs.length := by
    have hlength := congrArg List.length hin
    rwa [Memory.slice_length, List.length_append] at hlength
  rw [hlen, Memory.slice_add, Nat.zero_add] at hin
  exact ⟨hlen, List.append_inj hin (Memory.slice_length ..)⟩

/-- DECOMPRESS as START leaves it, once it has taken the header's field (R171). -/
def headerTaken (l : Word32) (s : State) : State :=
  { startOp .decompress s with ulen := l, ulenReg := l, pp := Config.hdrLen, stage := .chunk }

/-- The first step after START takes the header's field (R171, R231). -/
theorem step_start_decompress {s : State} {l : Word32} {bs : List Byte} (halone : s.alone = true)
    (hin : s.inp.slice 0 s.inCount = headerBytes l ++ bs) : step (startOp .decompress s) = .next (headerTaken l s) := by
  obtain ⟨hlen, hheader, -⟩ := container_split hin
  have hlong : 16 ≤ s.inCount := by omega
  have hbytes : fetchBytes .header (startOp .decompress s) = headerBytes l := by
    rw [← hheader]
    exact congrArg (s.inp.slice 0) (Nat.min_eq_left hlong)
  have hdecode : decodeHeader Params.default (headerBytes l) = .ok (.header l, []) :=
    decodeHeader_headerBytes Params.default l []
  have hfetch : fetch Params.default .header (startOp .decompress s) = .ok (.header l) := by
    simp only [fetch, hbytes, decode, hdecode]
  calc step (startOp .decompress s)
      = decompressStep Params.default exec (startOp .decompress s) :=
        (step_alone (s := startOp .decompress s) halone).trans (sequencer_decompress rfl rfl)
    _ = exec (.header l) (startOp .decompress s) := by
      simp only [decompressStep, startOp_stage, fetchRun, hfetch]
    _ = headerParse Params.default l (startOp .decompress s) := rfl
    _ = .next (headerTaken l s) := if_neg (Nat.not_lt.mpr hlong)

/-- DECOMPRESS of a container that spells `x` produces it, and then ends (R170). -/
theorem decompress_runs {s : State} {x : Memory} {l : Word32} {bs : List Byte} (halone : s.alone = true)
    (hin : s.inp.slice 0 s.inCount = headerBytes l ++ bs) (hpay : Payload x l.toNat 0 bs) :
    ∃ d, Runs (startOp .decompress s) (complete d) ∧ Follows x l l.toNat d := by
  obtain ⟨hlen, -, hpayload⟩ := container_split hin
  have hstart : Follows x l 0 (headerTaken l s) :=
    { alone := halone, busy := rfl, op := rfl, ulen := rfl, outLen := rfl, olen := rfl, tracks := .init x,
      outWf := Memory.wf_nil, outRead := fun a ha => absurd ha (Nat.not_lt_zero a) }
  have hsup : (headerTaken l s).supplies bs := ⟨Nat.le_of_eq hlen.symm, hpayload⟩
  obtain ⟨d, hrun, hfollow, hstage⟩ := hstart.run_payload hpay hsup (.inl rfl)
  have hend := Runs.single (hfollow.step_complete hstage)
  exact ⟨d, .head (step_start_decompress halone hin) (hrun.trans hend), hfollow⟩

end Sys2Proof.Machine
end

section
/-! PROOF. COMPRESS emits a container whose payload spells its input: the search's candidates are slots whose bytes the decoder
will find there, so the token it gives stands for the next input bytes (R144 to R147); the chunk under construction holds such
tokens under their flag bits (R142); and the run ends with every input byte spelt (R140, R155). -/

namespace Sys2Proof.Machine

/-- COMPRESS runs alone on the input `x` of `l` bytes, has encoded the first `k` of them, and is at no search. -/
structure Encodes (x : Memory) (l : Word32) (k : Nat) (s : State) : Prop where
  alone : s.alone = true
  busy : s.phase = .busy
  op : s.op = .compress
  inp : s.inp = x
  inLen : s.inLen = l
  di : s.di = k
  search : s.search = none
  tracks : Tracks x k s.win s.cur
  outWf : s.out.wf
  tokWf : s.tokbuf.wf

/-- A search under way at input position `k` (R28, R145, R146): the hypothetical window is the one after the bytes confirmed so
far, and every candidate matches them. -/
structure Searching (x : Memory) (k : Nat) (s : State) (q : Search) : Prop where
  wf : q.hyp.wf
  hyp : ∀ a, (hypWrite s q).read a = winAfter x (k + q.len) a
  len : q.len ≤ maxLen s
  cands : ∀ c, c ∈ q.cands → c < 1024 ∧
    ∀ j, j < q.len → winAfter x (k + j) ((c + j) % Config.winSize) = x.read (k + j)

theorem hypWrite_wf {s : State} {q : Search} (h : q.hyp.wf) : (hypWrite s q).wf := by
  rw [hypWrite]
  split
  · exact h
  · exact Memory.write_wf h _ _

section
variable {x : Memory} {l : Word32} {k : Nat} {s : State}

theorem Encodes.inCount (h : Encodes x l k s) : s.inCount = l.toNat := congrArg BitVec.toNat h.inLen

theorem Encodes.lookAhead (h : Encodes x l k s) (j : Nat) : lookAhead s j = x.read (k + j) := by
  rw [Machine.lookAhead, State.inAt, h.inp, h.di]

/-- The slot that will hold look-ahead byte `j`. -/
theorem Encodes.slotAt (h : Encodes x l k s) (j : Nat) : slotAt s j = (Config.curInit + (k + j)) % Config.winSize := by
  rw [Machine.slotAt, h.tracks.cursor, Nat.mod_add_mod, Nat.add_assoc]

/-! ## The search (R144 to R147) -/

theorem Encodes.searchBegin (h : Encodes x l k s) : Searching x k s (searchBegin s) where
  wf := by rw [searchBegin_hyp]; exact h.tracks.wf
  hyp a := by
    simp only [hypWrite, searchBegin_len, searchBegin_hyp]
    exact h.tracks.read a
  len := by rw [searchBegin_len]; exact Nat.zero_le _
  cands c hc := by
    rw [searchBegin_cands] at hc
    rw [searchBegin_len]
    exact ⟨(mem_initialCands.mp hc).1, fun j hj => absurd hj (Nat.not_lt_zero j)⟩

/-- A trial that keeps candidates confirms one byte more. -/
theorem Searching.extend (h : Encodes x l k s) {q q' : Search} (hq : Searching x k s q)
    (hext : searchExtend s q = some q') : Searching x k s q' := by
  obtain ⟨hlen, -, rfl⟩ := searchExtend_cases hext
  refine ⟨hypWrite_wf hq.wf, fun a => ?hyp, hlen, fun c hc => ?cands⟩
  case hyp =>
    have hwrite : hypWrite s { hyp := hypWrite s q, cands := narrow s q, len := q.len + 1 } =
      (hypWrite s q).write (Machine.slotAt s q.len) (Machine.lookAhead s q.len) := rfl
    rw [hwrite, Memory.read_write (hypWrite_wf hq.wf), hq.hyp, h.slotAt, h.lookAhead]
    rfl
  case cands =>
    obtain ⟨hmem, hmatch⟩ := List.mem_filter.mp hc
    obtain ⟨hc1024, hbytes⟩ := hq.cands c hmem
    rw [beq_iff_eq, hq.hyp, h.lookAhead] at hmatch
    refine ⟨hc1024, fun j hj => ?_⟩
    rcases Nat.lt_succ_iff_lt_or_eq.mp hj with hlt | rfl
    · exact hbytes j hlt
    · exact hmatch

/-- The Literal of the next input byte spells it. -/
theorem Encodes.spelt_lit (h : Encodes x l k s) : Spelt x k (.lit (Machine.lookAhead s 0)) := h.lookAhead 0

/-- The token a search gives spells the next input bytes, within the input. -/
theorem Searching.spelt_token (h : Encodes x l k s) {q : Search} (hq : Searching x k s q) (hmore : k < l.toNat) :
    Spelt x k (searchToken s q) ∧ k + tokenSpan (searchToken s q) ≤ l.toNat := by
  have hlit : Spelt x k (.lit (Machine.lookAhead s 0)) ∧ k + tokenSpan (.lit (Machine.lookAhead s 0)) ≤ l.toNat :=
    ⟨h.spelt_lit, hmore⟩
  rw [searchToken]
  split
  · exact hlit
  · next c cs hcands =>
    split
    · exact hlit
    · next hlong =>
      obtain ⟨hc, hbytes⟩ := hq.cands c (hcands ▸ List.mem_cons_self)
      obtain ⟨h66, hinput⟩ := le_maxLen_iff.mp hq.len
      rw [h.inCount, h.di] at hinput
      have hmin : 3 ≤ q.len := Nat.not_lt.mp hlong
      refine ⟨⟨(wf_matchTok c q.len).mpr ⟨by omega, hmin, h66⟩, hbytes⟩, ?_⟩
      simp only [tokenSpan]
      omega

/-! ## Inside a chunk: a token is chosen (R142, R143) -/

theorem Encodes.step_eq (h : Encodes x l k s) : step s = compressStep Params.default exec s :=
  (step_alone h.alone).trans (sequencer_compress h.busy h.op)

/-- At the search `q`. -/
def atSearch (q : Search) (s : State) : State := { s with search := some q }

theorem Encodes.atSearch_none (h : Encodes x l k s) (q : Search) : { atSearch q s with search := none } = s := by
  rw [← h.search]
  rfl

theorem Encodes.step_atSearch (h : Encodes x l k s) (hstage : s.stage = .token) (q : Search) :
    step (atSearch q s) = chunkStep Params.default exec (atSearch q s) := by
  have halone : (atSearch q s).alone = true := h.alone
  have hbusy : (atSearch q s).phase = .busy := h.busy
  have hop : (atSearch q s).op = .compress := h.op
  have hplace : (atSearch q s).stage = .token := hstage
  rw [step_alone halone, sequencer_compress hbusy hop, compressStep, hplace]

/-- A trial that keeps candidates is one step. -/
theorem Encodes.step_extend (h : Encodes x l k s) (hstage : s.stage = .token) (hopen : ¬ chunkOver s = true)
    {q q' : Search} (hext : searchExtend s q = some q') : step (atSearch q s) = .next (atSearch q' s) := by
  have hext' : searchExtend (atSearch q s) q = some q' := hext
  have hopen' : ¬ chunkOver (atSearch q s) = true := hopen
  have hsearch : (atSearch q s).search = some q := rfl
  rw [h.step_atSearch hstage, chunkStep, if_neg hopen', hsearch]
  simp only [hext']
  rfl

/-- A trial that keeps none ends the search, and its token runs. -/
theorem Encodes.step_searchEnd (h : Encodes x l k s) (hstage : s.stage = .token) (hopen : ¬ chunkOver s = true)
    {q : Search} (hext : searchExtend s q = none) : step (atSearch q s) = exec (searchToken s q) s := by
  have hext' : searchExtend (atSearch q s) q = none := hext
  have hopen' : ¬ chunkOver (atSearch q s) = true := hopen
  have hsearch : (atSearch q s).search = some q := rfl
  have htoken : searchToken (atSearch q s) q = searchToken s q := rfl
  rw [h.step_atSearch hstage, chunkStep, if_neg hopen', hsearch]
  simp only [hext', h.atSearch_none, htoken]

/-- A search ends with a token that spells the next bytes, and runs it. -/
theorem Encodes.run_search (h : Encodes x l k s) (hstage : s.stage = .token) (hopen : ¬ chunkOver s = true)
    (hmore : k < l.toNat) {q : Search} (hq : Searching x k s q) :
    ∃ i, Spelt x k i ∧ k + tokenSpan i ≤ l.toNat ∧ ∀ t, exec i s = .next t → Runs (atSearch q s) t := by
  induction hroom : maxLen s - q.len using Nat.strongRecOn generalizing q with
  | _ n ih =>
    cases hext : searchExtend s q with
    | none =>
      obtain ⟨hspelt, hspan⟩ := hq.spelt_token h hmore
      exact ⟨_, hspelt, hspan, fun t ht => .single ((h.step_searchEnd hstage hopen hext).trans ht)⟩
    | some q' =>
      have hshrinks : maxLen s - q'.len < n := by
        obtain ⟨hlt, -, rfl⟩ := searchExtend_cases hext
        simp only
        omega
      obtain ⟨i, hspelt, hspan, hrun⟩ := ih _ hshrinks (hq.extend h hext) rfl
      exact ⟨i, hspelt, hspan, fun t ht => .head (h.step_extend hstage hopen hext) (hrun t ht)⟩

/-- While the chunk is open a token that spells the next bytes is chosen, and runs. -/
theorem Encodes.run_choose (h : Encodes x l k s) (hstage : s.stage = .token) (hopen : ¬ chunkOver s = true)
    (hmore : k < l.toNat) :
    ∃ i, Spelt x k i ∧ k + tokenSpan i ≤ l.toNat ∧ ∀ t, exec i s = .next t → Runs s t := by
  have hstep : step s = chunkStep Params.default exec s := by rw [h.step_eq, compressStep, hstage]
  rw [chunkStep, if_neg hopen, h.search] at hstep
  dsimp only at hstep
  split at hstep
  · exact ⟨_, h.spelt_lit, hmore, fun t ht => .single (hstep.trans ht)⟩
  · obtain ⟨i, hspelt, hspan, hrun⟩ := h.run_search hstage hopen hmore h.searchBegin
    exact ⟨i, hspelt, hspan, fun t ht => .head hstep (hrun t ht)⟩

/-! ## Inside a chunk: a token is staged and committed (R142, R150, R151) -/

/-- The chunk being built holds the tokens `ts`, which spell the input from `k₀` to `k`. -/
structure Staged (x : Memory) (k₀ : Nat) (ts : List Instr) (k : Nat) (s : State) : Prop where
  tcnt : s.tcnt = ts.length
  count : ts.length ≤ 8
  flags : FlagsOf s.flags ts
  bytes : s.tokbuf.slice 0 s.tblen = ts.flatMap encode
  spells : Spells x k₀ ts k

theorem Staged.tblen {k₀ : Nat} {ts : List Instr} (h : Staged x k₀ ts k s) : s.tblen = (ts.flatMap encode).length := by
  rw [← h.bytes, Memory.slice_length]

theorem Staged.tblen_le {k₀ : Nat} {ts : List Instr} (h : Staged x k₀ ts k s) : s.tblen ≤ 2 * s.tcnt := by
  rw [h.tblen, h.tcnt]
  exact h.spells.length_bytes_le

/-- A token run by COMPRESS: staged, and the bytes it stands for committed. -/
def stageAndCommit (i : Instr) (s : State) : State :=
  commitMatch (tokenSpan i) (stageToken (tokenBit i) (encode i) s)

/-- CommitLit of the next input byte is CommitMatch of length 1. -/
theorem commitLit_next (s : State) : commitLit (s.inp.read s.di) s = commitMatch 1 s := rfl

theorem exec_lit_encoding {b : Byte} (hbusy : s.phase = .busy) (hop : s.op = .compress)
    (hstage : stagingRoom 1 s = true) (hinput : inputRoom 1 s = true) :
    exec (.lit b) s = .next (commitLit b (stageToken true [b] s)) := by
  calc exec (.lit b) s
      = litEncode b s := running_compress hbusy hop
    _ = _ := by simp [litEncode, hstage, hinput, encLit]

theorem Encodes.exec_token (h : Encodes x l k s) {k₀ : Nat} {ts : List Instr} (hs : Staged x k₀ ts k s)
    (hroom : ts.length < 8) {i : Instr} (hi : Spelt x k i) (hspan : k + tokenSpan i ≤ l.toNat) :
    exec i s = .next (stageAndCommit i s) := by
  have htcnt : s.tcnt < 8 := hs.tcnt ▸ hroom
  have htblen : s.tblen + 2 ≤ 16 := by
    have hbytes := hs.tblen_le
    omega
  have hstage : stagingRoom 2 s = true := (stagingRoom_iff 2 s).mpr ⟨htcnt, htblen⟩
  have hinput : inputRoom (tokenSpan i) s = true := by rwa [inputRoom_iff, h.di, h.inCount]
  cases i with
  | lit b =>
    obtain rfl : b = x.read k := hi
    have hstage1 : stagingRoom 1 s = true := (stagingRoom_iff 1 s).mpr ⟨htcnt, Nat.le_of_succ_le htblen⟩
    rw [exec_lit_encoding h.busy h.op hstage1 hinput, ← h.inp, ← h.di]
    exact congrArg Host.Outcome.next (commitLit_next _)
  | matchTok off len => exact exec_matchTok_encoding ⟨h.busy, h.op⟩ hi.1 hstage hinput
  | _ => exact hi.elim

theorem Encodes.stageToken (h : Encodes x l k s) (bit : Bool) (bs : List Byte) :
    Encodes x l k (stageToken bit bs s) :=
  { h with tokWf := Memory.writeSeq_wf h.tokWf _ _ }

theorem Encodes.commitMatch (h : Encodes x l k s) (n : Nat) : Encodes x l (k + n) (commitMatch n s) := by
  have htracks := h.tracks.putWinSeq n
  rw [← h.inp, ← h.di] at htracks
  rw [commitMatch_eq, ← h.di, ← h.inp]
  exact {
    alone := by
      simp only [State.alone, putWinSeq_cmd, putWinSeq_host]
      exact h.alone
    busy := (putWinSeq_phase ..).trans h.busy
    op := (putWinSeq_op ..).trans h.op
    inp := putWinSeq_inp ..
    inLen := (putWinSeq_inLen ..).trans h.inLen
    di := rfl
    search := (putWinSeq_search ..).trans h.search
    tracks := htracks
    outWf := (putWinSeq_out (s.inp.slice s.di n) s).symm ▸ h.outWf
    tokWf := (putWinSeq_tokbuf (s.inp.slice s.di n) s).symm ▸ h.tokWf }

theorem Encodes.stageAndCommit (h : Encodes x l k s) (i : Instr) :
    Encodes x l (k + tokenSpan i) (stageAndCommit i s) :=
  (h.stageToken (tokenBit i) (encode i)).commitMatch (tokenSpan i)

/-- Staging sets the token's own flag bit and no other (R142). -/
theorem flagBit_stageToken (bit : Bool) (bs : List Byte) (htcnt : s.tcnt < 8) (j : Nat) :
    flagBit (Machine.stageToken bit bs s).flags j = (flagBit s.flags j || (bit && decide (j = s.tcnt))) := by
  cases bit with
  | false => simp
  | true =>
    have hown : (1#8 <<< s.tcnt).getLsbD j = decide (j = s.tcnt) := by
      rw [Bool.eq_iff_iff]
      simp only [BitVec.getLsbD_shiftLeft, BitVec.getLsbD_one, Bool.and_eq_true, Bool.not_eq_true', decide_eq_true_eq,
        decide_eq_false_iff_not]
      omega
    simp [flagBit, hown]

/-- The flag bits of one more token. -/
theorem any_getElem?_snoc (ts : List Instr) (i : Instr) (j : Nat) :
    ((ts ++ [i])[j]?).any tokenBit = ((ts[j]?).any tokenBit || (tokenBit i && decide (j = ts.length))) := by
  rcases Nat.lt_trichotomy j ts.length with hlt | rfl | hgt
  · simp [List.getElem?_append_left hlt, Nat.ne_of_lt hlt]
  · simp
  · have hend : (ts ++ [i]).length ≤ j := by
      rw [List.length_append, List.length_singleton]
      exact hgt
    rw [List.getElem?_eq_none hend, List.getElem?_eq_none (Nat.le_of_lt hgt)]
    simp [Nat.ne_of_gt hgt]

/-- One more token spells the input one token further. -/
theorem Staged.snoc (h : Encodes x l k s) {k₀ : Nat} {ts : List Instr} (hs : Staged x k₀ ts k s)
    (hroom : ts.length < 8) {i : Instr} (hi : Spelt x k i) :
    Staged x k₀ (ts ++ [i]) (k + tokenSpan i) (Machine.stageAndCommit i s) where
  tcnt := by
    rw [Machine.stageAndCommit, commitMatch_tcnt, stageToken_tcnt, hs.tcnt, List.length_append, List.length_singleton]
  count := by
    rw [List.length_append, List.length_singleton]
    exact hroom
  flags j := by
    have hkept : (Machine.stageAndCommit i s).flags = (Machine.stageToken (tokenBit i) (encode i) s).flags := by
      rw [Machine.stageAndCommit, commitMatch_eq]
      exact putWinSeq_flags ..
    rw [hkept, flagBit_stageToken _ _ (hs.tcnt ▸ hroom), hs.flags j, hs.tcnt, any_getElem?_snoc]
  bytes := by
    rw [Machine.stageAndCommit, commitMatch_tokbuf, commitMatch_tblen, stageToken_tokbuf, stageToken_tblen,
      Memory.slice_writeSeq h.tokWf, hs.bytes, List.flatMap_append, List.flatMap_singleton]
  spells := hs.spells.snoc hi

theorem stageAndCommit_stage (i : Instr) (s : State) : (Machine.stageAndCommit i s).stage = s.stage := by
  rw [Machine.stageAndCommit, commitMatch_eq]
  exact putWinSeq_stage ..

/-! ## OUT -/

/-- The bytes of OUT so far. -/
def State.outBytes (s : State) : List Byte := s.out.slice 0 s.outLen

theorem outBytes_emitSeq (hwf : s.out.wf) (bs : List Byte) : (emitSeq bs s).outBytes = s.outBytes ++ bs := by
  rw [emitSeq_eq]
  exact Memory.slice_writeSeq hwf s.outLen bs

/-- A token leaves OUT as it is: its bytes are staged only. -/
theorem stageAndCommit_outBytes (i : Instr) (s : State) : (Machine.stageAndCommit i s).outBytes = s.outBytes := by
  rw [Machine.stageAndCommit, commitMatch_eq, State.outBytes, State.outBytes, putWinSeq_out, putWinSeq_outLen]
  rfl

theorem Encodes.emitSeq (h : Encodes x l k s) (bs : List Byte) : Encodes x l k (emitSeq bs s) := by
  rw [emitSeq_eq]
  exact { h with outWf := Memory.writeSeq_wf h.outWf _ _ }

/-- ULEN and the sequencer's place are no part of what is encoded, nor of OUT. -/
theorem Encodes.withPlace (h : Encodes x l k s) (n : Word32) (st : Stage) :
    Encodes x l k { s with ulenReg := n, stage := st } := { h with }

theorem outBytes_withPlace (s : State) (n : Word32) (st : Stage) :
    State.outBytes { s with ulenReg := n, stage := st } = s.outBytes := rfl

/-! ## The chunk is flushed (R152) -/

/-- The state ChunkFlush leaves. -/
def flushed (s : State) : State := { emitSeq (s.flags :: s.tokbuf.slice 0 s.tblen) s with stage := .chunk }

theorem Encodes.step_flush (h : Encodes x l k s) {k₀ : Nat} {ts : List Instr} (hs : Staged x k₀ ts k s)
    (hstage : s.stage = .token) (hover : chunkOver s = true) : step s = .next (flushed s) := by
  have htblen : s.tblen ≤ Config.tokbufSize := by
    have hcount := hs.tcnt ▸ hs.count
    have hbytes := hs.tblen_le
    simp only [Config.tokbufSize]
    omega
  calc step s
      = chunkStep Params.default exec s := by rw [h.step_eq, compressStep, hstage]
    _ = exec (.flag s.flags) s := by rw [chunkStep, if_pos hover]; rfl
    _ = chunkFlush s.flags s := running_compress h.busy h.op
    _ = .next (flushed s) := if_pos htblen

/-- A chunk is built until it has eight tokens or the input is exhausted, and flushed. -/
theorem Encodes.run_chunk (h : Encodes x l k s) {k₀ : Nat} {ts : List Instr} (hs : Staged x k₀ ts k s)
    (hstage : s.stage = .token) (hend : k ≤ l.toNat) :
    ∃ t k' f ts', Runs s t ∧ Encodes x l k' t ∧ t.stage = .chunk ∧
      t.outBytes = s.outBytes ++ (f :: ts'.flatMap encode) ∧ k' ≤ l.toNat ∧ FlagsOf f ts' ∧ Spells x k₀ ts' k' ∧
      ts'.length ≤ 8 ∧ (ts'.length = 8 ∨ k' = l.toNat) := by
  induction hroom : 8 - ts.length using Nat.strongRecOn generalizing k ts s with
  | _ n ih =>
    by_cases hover : chunkOver s = true
    · have hfull : ts.length = 8 ∨ k = l.toNat := by
        have hcount := hs.count
        rw [chunkOver_iff, h.inCount, h.di, hs.tcnt] at hover
        exact hover.symm.imp (Nat.le_antisymm hcount) (Nat.le_antisymm hend)
      have hemit := h.emitSeq (s.flags :: s.tokbuf.slice 0 s.tblen)
      have hbytes : (flushed s).outBytes = s.outBytes ++ (s.flags :: ts.flatMap encode) := by
        rw [← hs.bytes]
        exact outBytes_emitSeq h.outWf (s.flags :: s.tokbuf.slice 0 s.tblen)
      exact ⟨flushed s, k, s.flags, ts, .single (h.step_flush hs hstage hover), { hemit with }, rfl, hbytes, hend,
        hs.flags, hs.spells, hs.count, hfull⟩
    · obtain ⟨hinput, htokens⟩ : k < l.toNat ∧ ts.length < 8 := by
        rw [chunkOver_iff, h.inCount, h.di, hs.tcnt] at hover
        exact ⟨Nat.lt_of_not_le fun hle => hover (.inl hle), Nat.lt_of_not_le fun hle => hover (.inr hle)⟩
      obtain ⟨i, hspelt, hspan, hrun⟩ := h.run_choose hstage hover hinput
      have hfirst := hrun _ (h.exec_token hs htokens hspelt hspan)
      have hlen : (ts ++ [i]).length = ts.length + 1 := List.length_append
      obtain ⟨t, k', f, ts', hrest, henc, hchunk, hbytes, hfacts⟩ := ih _ (by omega) (h.stageAndCommit i)
        (hs.snoc h htokens hspelt) ((stageAndCommit_stage i s).trans hstage) hspan rfl
      rw [stageAndCommit_outBytes] at hbytes
      exact ⟨t, k', f, ts', hfirst.trans hrest, henc, hchunk, hbytes, hfacts⟩

/-! ## The whole operation -/

/-- A chunk opens empty (R142). -/
theorem Encodes.chunkBegin (h : Encodes x l k s) :
    Encodes x l k (chunkBegin s) ∧ Staged x k [] k (chunkBegin s) := by
  refine ⟨{ h with }, rfl, Nat.zero_le _, fun j => ?_, rfl, .nil k⟩
  rw [chunkBegin_flags]
  simp [flagBit]

/-- Between chunks the operation ends, or a chunk is opened, built and flushed, and the rest follows. -/
theorem Encodes.run_payload (h : Encodes x l k s) (hstage : s.stage = .chunk) (hend : k ≤ l.toNat) :
    ∃ t bs, Runs s t ∧ t.phase = .finished ∧ t.code = .ok ∧ t.outBytes = s.outBytes ++ bs ∧
      Payload x l.toNat k bs := by
  induction hroom : l.toNat - k using Nat.strongRecOn generalizing k s with
  | _ n ih =>
    have hstep := h.step_eq
    rw [compressStep, hstage] at hstep
    dsimp only at hstep
    rw [h.inCount, h.di] at hstep
    rcases Nat.eq_or_lt_of_le hend with rfl | hmore
    · rw [if_pos (Nat.le_refl _)] at hstep
      exact ⟨finish .ok s, [], .single hstep, rfl, rfl, (List.append_nil _).symm, .done⟩
    · rw [if_neg (Nat.not_le.mpr hmore)] at hstep
      obtain ⟨hopened, hempty⟩ := h.chunkBegin
      obtain ⟨t, k', f, ts, hchunk, henc, htstage, hbytes, hend', hflags, hspells, hcount, hfull⟩ :=
        hopened.run_chunk hempty rfl hend
      have hprogress : k < k' := by
        have hle := hspells.length_le
        omega
      obtain ⟨t', bs, hrest, hfin, hok, hbytes', hpay⟩ := ih _ (by omega) henc htstage hend' rfl
      have hout : t'.outBytes = s.outBytes ++ (f :: ts.flatMap encode ++ bs) := by
        rw [hbytes', hbytes, List.append_assoc]
        rfl
      exact ⟨t', f :: ts.flatMap encode ++ bs, .head hstep (hchunk.trans hrest), hfin, hok, hout,
        .chunk hmore hflags hspells hcount hfull hpay⟩

end

/-- COMPRESS once its header is emitted (R141). -/
def headerEmitted (s : State) : State :=
  { emitSeq (headerBytes s.inLen) (startOp .compress s) with ulenReg := s.inLen, stage := .chunk }

/-- The first step after START emits the header of IN_LEN (R140, R141). -/
theorem step_start_compress {s : State} (halone : s.alone = true) :
    step (startOp .compress s) = .next (headerEmitted s) := by
  calc step (startOp .compress s)
      = compressStep Params.default exec (startOp .compress s) :=
        (step_alone (s := startOp .compress s) halone).trans (sequencer_compress rfl rfl)
    _ = exec (.header s.inLen) (startOp .compress s) := rfl
    _ = headerEmit s.inLen (startOp .compress s) := rfl
    _ = .next (headerEmitted s) := rfl

/-- COMPRESS ends OK, and OUT is a header of IN_LEN and a payload that spells the input (R140, R155). -/
theorem compress_runs {s : State} (halone : s.alone = true) (htok : s.tokbuf.wf) :
    ∃ t bs, Runs (startOp .compress s) t ∧ t.phase = .finished ∧ t.code = .ok ∧
      t.outBytes = headerBytes s.inLen ++ bs ∧ Payload s.inp s.inCount 0 bs := by
  have hstart : Encodes s.inp s.inLen 0 (startOp .compress s) :=
    { alone := halone, busy := rfl, op := rfl, inp := rfl, inLen := rfl, di := rfl, search := rfl,
      tracks := .init s.inp, outWf := Memory.wf_nil, tokWf := htok }
  have hheader : Encodes s.inp s.inLen 0 (headerEmitted s) :=
    (hstart.emitSeq (headerBytes s.inLen)).withPlace s.inLen .chunk
  have hempty : (startOp .compress s).outBytes = [] := rfl
  have hbytes : (headerEmitted s).outBytes = headerBytes s.inLen := by
    rw [headerEmitted, outBytes_withPlace, outBytes_emitSeq hstart.outWf, hempty, List.nil_append]
  obtain ⟨t, bs, hrun, hfin, hok, hout, hpay⟩ := hheader.run_payload rfl (Nat.zero_le _)
  exact ⟨t, bs, .head (step_start_compress halone) hrun, hfin, hok, hout.trans (congrArg (· ++ bs) hbytes), hpay⟩

end Sys2Proof.Machine
end

section
/-! PROOF. The round trip (R183): the container COMPRESS leaves is one DECOMPRESS follows, and what it has produced there is
the input, to which Subst is applied. -/

namespace Sys2Proof.Machine

/-- Settles O60: it holds. COMPRESS leaves a payload that spells its input (`compress_runs`), DECOMPRESS follows such a payload to
the input's bytes (`decompress_runs`), and the end replaces the markers among them (`subst_read_marker`, `subst_read_other`). -/
theorem decompressUndoesCompress : Obligations.DecompressUndoesCompress := by
  intro s halone htok
  obtain ⟨t, bs, ⟨k, hk⟩, hfin, hok, hout, hpay⟩ := compress_runs halone htok
  refine ⟨k, t, hk, hfin, hok, fun s2 halone2 hlen hin => ?_⟩
  have hcontainer : s2.inp.slice 0 s2.inCount = headerBytes s.inLen ++ bs := by
    rw [hlen, ← hout]
    exact Memory.slice_eq_iff.mpr fun j hj => by rw [Nat.zero_add]; exact hin j hj
  obtain ⟨d, ⟨k2, hk2⟩, hfollow⟩ := decompress_runs halone2 hcontainer hpay
  have hwindow {p : Nat} (hp : p + 24 ≤ s.inCount) : d.out.slice p 24 = s.inp.slice p 24 :=
    Memory.slice_eq_iff.mpr fun j hj => hfollow.outRead (p + j) (by unfold State.inCount at hp; omega)
  refine ⟨k2, complete d, hk2, rfl, rfl, hfollow.outLen, ?markers, ?others⟩
  case markers =>
    rintro _ p hp rfl hmark
    exact subst_read_marker hfollow.outWf (hfollow.olen ▸ hp) ((hwindow hp).trans hmark)
  case others =>
    intro a ha hnone
    calc (complete d).out.read a
        = d.out.read a := subst_read_other hfollow.outWf fun p hp heq => by
          rw [hfollow.olen] at hp
          rw [hwindow hp]
          exact hnone p hp heq
      _ = s.inAt a := hfollow.outRead a ha

end Sys2Proof.Machine
end

section
/-! PROOF. The codec both ways (R81 to R92, R124). Decoding an encoding is `decode_encode_append`; here encoding undoes decoding:
a field of the header and its four bytes determine each other, and so do the two bytes of a Match and its operands. -/

namespace Sys2Proof

/-! ## The big-endian field (R11, R81) -/

theorem be32_toNat (b0 b1 b2 b3 : Byte) :
    (be32 b0 b1 b2 b3).toNat = b0.toNat * 16777216 + b1.toNat * 65536 + b2.toNat * 256 + b3.toNat := by
  have h0 : b0.toNat < 256 := b0.isLt
  have h1 : b1.toNat < 256 := b1.isLt
  have h2 : b2.toNat < 256 := b2.isLt
  have h3 : b3.toNat < 256 := b3.isLt
  exact (BitVec.toNat_ofNat _ 32).trans (Nat.mod_eq_of_lt (by omega))

/-- Byte `k` of a word, counted from the low end, is `b` when the word's value says so. -/
theorem extractLsb'_eq_of_toNat {v : Word32} {k : Nat} {b : Byte} (h : v.toNat / 2 ^ k % 256 = b.toNat) :
    v.extractLsb' k 8 = b := by
  apply BitVec.eq_of_toNat_eq
  rw [BitVec.extractLsb'_toNat, Nat.shiftRight_eq_div_pow]
  exact h

theorem bytesBE32_be32 (b0 b1 b2 b3 : Byte) : bytesBE32 (be32 b0 b1 b2 b3) = [b0, b1, b2, b3] := by
  have h0 : b0.toNat < 256 := b0.isLt
  have h1 : b1.toNat < 256 := b1.isLt
  have h2 : b2.toNat < 256 := b2.isLt
  have h3 : b3.toNat < 256 := b3.isLt
  have hv := be32_toNat b0 b1 b2 b3
  rw [bytesBE32, extractLsb'_eq_of_toNat (b := b0) (k := 24) (by omega),
    extractLsb'_eq_of_toNat (b := b1) (k := 16) (by omega), extractLsb'_eq_of_toNat (b := b2) (k := 8) (by omega),
    extractLsb'_eq_of_toNat (b := b3) (k := 0) (by omega)]

/-- The four bytes of a header's field, in place. -/
theorem take_drop_eq_bytesBE32 {bs : List Byte} {k : Nat} (h : 4 * k + 4 ≤ bs.length) :
    (bs.drop (4 * k)).take 4 = bytesBE32 (headerField bs k) := by
  rw [headerField, bytesBE32_be32]
  refine List.ext_getElem (by simp; omega) fun j _ hj => ?_
  rw [List.getElem_take, List.getElem_drop, List.getElem_eq_getD 0]
  match j, hj with
  | 0, _ => rfl
  | 1, _ => rfl
  | 2, _ => rfl
  | 3, _ => rfl

/-- A field holds a value exactly when its bytes are the value's. -/
theorem headerField_eq_iff {bs : List Byte} {k : Nat} (h : 4 * k + 4 ≤ bs.length) {v : Word32} :
    headerField bs k = v ↔ (bs.drop (4 * k)).take 4 = bytesBE32 v := by
  rw [take_drop_eq_bytesBE32 h]
  refine ⟨congrArg bytesBE32, fun heq => ?_⟩
  have hfield := be32_bytesBE32 (headerField bs k)
  have hv := be32_bytesBE32 v
  simp only [bytesBE32, List.cons.injEq, and_true] at heq
  obtain ⟨h0, h1, h2, h3⟩ := heq
  rw [← hfield, ← hv, h0, h1, h2, h3]

/-! ## The header (R81, R88) -/

/-- The three magics of R88 stand in their places. -/
def MagicsOk (bs : List Byte) : Prop :=
  headerField bs 0 = Config.magicA ∧ headerField bs 1 = Config.magicB ∧ headerField bs 3 = Config.magicC

/-- Bytes decode as a header exactly when there are 16 and, with STRICT_MAGIC, the magics are right (R88, R202). -/
theorem decodeHeader_eq_ok_iff {p : Params} {bs rest : List Byte} {i : Instr} :
    decodeHeader p bs = .ok (i, rest) ↔
      16 ≤ bs.length ∧ i = .header (headerField bs 2) ∧ rest = bs.drop 16 ∧ (p.strictMagic = true → MagicsOk bs) := by
  refine ⟨Machine.decodeHeader_ok, fun ⟨hlen, hi, hrest, hmagics⟩ => ?_⟩
  have hlong : ¬ bs.length < Config.hdrLen := Nat.not_lt.mpr hlen
  subst hi hrest
  cases hstrict : p.strictMagic with
  | false => simp [decodeHeader, hlong, hstrict]
  | true =>
    obtain ⟨hA, hB, hC⟩ := hmagics hstrict
    simp [decodeHeader, hlong, hA, hB, hC]

/-- The header's bytes are its four fields, one after the other. -/
theorem headerBytes_eq_take {bs : List Byte} (hlen : 16 ≤ bs.length) (hmagics : MagicsOk bs) :
    headerBytes (headerField bs 2) = bs.take 16 := by
  obtain ⟨hA, hB, hC⟩ := hmagics
  have h0 : bs.take 4 = bytesBE32 Config.magicA := (headerField_eq_iff (k := 0) (by omega)).mp hA
  have h1 : (bs.drop 4).take 4 = bytesBE32 Config.magicB := (headerField_eq_iff (k := 1) (by omega)).mp hB
  have h2 : (bs.drop 8).take 4 = bytesBE32 (headerField bs 2) := take_drop_eq_bytesBE32 (k := 2) (by omega)
  have h3 : (bs.drop 12).take 4 = bytesBE32 Config.magicC := (headerField_eq_iff (k := 3) (by omega)).mp hC
  calc headerBytes (headerField bs 2)
      = bs.take 4 ++ (bs.drop 4).take 4 ++ (bs.drop 8).take 4 ++ (bs.drop 12).take 4 := by rw [h0, h1, h2, h3]; rfl
    _ = bs.take 16 := by simp only [← List.take_add, Nat.reduceAdd]

/-! ## The Match's bytes (R85, R86) -/

/-- Any two bytes decode to operands in range (R89). -/
theorem matchTok_of_bytes_wf (b0 b1 : Byte) : (Instr.matchTok (matchOffset b0 b1) (matchLength b1)).wf = true := by
  have h0 : b0.toNat < 256 := b0.isLt
  have h1 : b1.toNat < 256 := b1.isLt
  rw [Machine.wf_matchTok, matchOffset_eq, matchLength_eq]
  omega

/-- Two bytes are those of the Match they decode to (R124). -/
theorem matchBytes_of_bytes (b0 b1 : Byte) : matchBytes (matchOffset b0 b1) (matchLength b1) = [b0, b1] := by
  obtain ⟨c0, c1, hbytes, hlow, hhigh, hlen⟩ := matchBytes_fields (matchTok_of_bytes_wf b0 b1)
  have h0 : b0.toNat < 256 := b0.isLt
  rw [matchOffset_eq] at hlow hhigh
  rw [matchLength_eq] at hlen
  have hc0 : c0 = b0 := BitVec.eq_of_toNat_eq (by omega)
  have hc1 : c1 = b1 := BitVec.eq_of_toNat_eq (by omega)
  rw [hbytes, hc0, hc1]

/-! ## The obligations -/

/-- Settles O1: it holds, `decode_encode_append` says it for each instruction. -/
theorem encodedInstructionDecodesToItself : Obligations.EncodedInstructionDecodesToItself :=
  fun p _ rest h => decode_encode_append p h rest

/-- Settles O2: it holds, position by position; the header by its four fields, the Match by its two bytes. -/
theorem decodedBytesEncodeBack : Obligations.DecodedBytesEncodeBack := by
  intro pos bs i rest h
  cases pos with
  | command =>
    match bs, h with
    | v :: _, h =>
      simp only [decode, decodeCommand] at h
      split at h
      · next hv => cases h; exact ⟨rfl, rfl, hv ▸ rfl⟩
      · split at h
        · next hv => cases h; exact ⟨rfl, rfl, hv ▸ rfl⟩
        · split at h
          · next hv => cases h; exact ⟨rfl, rfl, hv ▸ rfl⟩
          · cases h
  | header =>
    obtain ⟨hlen, rfl, rfl, hmagics⟩ := decodeHeader_eq_ok_iff.mp h
    refine ⟨rfl, rfl, ?_⟩
    exact (congrArg (· ++ bs.drop 16) (headerBytes_eq_take hlen (hmagics rfl))).trans (List.take_append_drop 16 bs)
  | flag =>
    match bs, h with
    | _ :: _, h => cases h; exact ⟨rfl, rfl, rfl⟩
  | literal =>
    match bs, h with
    | _ :: _, h => cases h; exact ⟨rfl, rfl, rfl⟩
  | matchTok =>
    match bs, h with
    | b0 :: b1 :: _, h =>
      cases h
      exact ⟨matchTok_of_bytes_wf b0 b1, rfl, congrArg (· ++ rest) (matchBytes_of_bytes b0 b1)⟩

/-- Settles O3: it holds. One direction is `decodeMatch_matchBytes`, the other `matchBytes_of_bytes`. -/
theorem tokenCodecIsABijection : Obligations.TokenCodecIsABijection := by
  refine ⟨fun off len hoff hmin hmax => ?_, fun b0 b1 => ⟨rfl, ?_⟩, fun b => ⟨rfl, rfl⟩⟩
  · have hwf : (Instr.matchTok off len).wf = true := (Machine.wf_matchTok off len).mpr ⟨hoff, hmin, hmax⟩
    obtain ⟨b0, b1, hbytes, -⟩ := matchBytes_fields hwf
    have hdecode := decodeMatch_matchBytes hwf []
    rw [hbytes] at hdecode
    exact ⟨b0, b1, hbytes ▸ encMatch_of_wf hwf, hdecode⟩
  · rw [encMatch_of_wf (matchTok_of_bytes_wf b0 b1), matchBytes_of_bytes]

/-- Settles O6: it holds, by `decodeHeader_eq_ok_iff` with each field read off as its four bytes. -/
theorem headerDecodesExactlyWithItsMagics : Obligations.HeaderDecodesExactlyWithItsMagics := by
  intro bs n rest
  refine decodeHeader_eq_ok_iff.trans (and_congr_right fun hlen => ?_)
  have h0 := headerField_eq_iff (bs := bs) (k := 0) (v := Config.magicA) (by omega)
  have h1 := headerField_eq_iff (bs := bs) (k := 1) (v := Config.magicB) (by omega)
  have h2 := headerField_eq_iff (bs := bs) (k := 2) (v := n) (by omega)
  have h3 := headerField_eq_iff (bs := bs) (k := 3) (v := Config.magicC) (by omega)
  rw [MagicsOk, h0, h1, h3, Instr.header.injEq, eq_comm (a := n), h2]
  constructor
  · rintro ⟨hn, hrest, hmagics⟩
    obtain ⟨hA, hB, hC⟩ := hmagics rfl
    exact ⟨hrest, hA, hB, hC, hn⟩
  · rintro ⟨hrest, hA, hB, hC, hn⟩
    exact ⟨hn, hrest, fun _ => ⟨hA, hB, hC⟩⟩

/-- Settles O7: it holds; the decoder has no test there, and a decoded Match is in range (`matchTok_of_bytes_wf`). -/
theorem everyTokenEncodingIsLegal : Obligations.EveryTokenEncodingIsLegal :=
  fun _ _ b0 b1 _ => ⟨rfl, rfl, matchOffset b0 b1, matchLength b1, rfl,
    (Machine.wf_matchTok _ _).mp (matchTok_of_bytes_wf b0 b1)⟩

/-- Settles O8: it holds, by running the decoder on each word. -/
theorem writtenOutWordsDecode : Obligations.WrittenOutWordsDecode :=
  ⟨rfl, rfl, rfl, rfl, rfl, rfl, rfl, rfl⟩

end Sys2Proof
end

section
/-! PROOF. What the sequencer does at each of its places, and what each stored object does in each operation: one equation a case.
They are stated for any parameters and any meaning `ex` of the instructions, so that they serve `step` and `stepWith` alike. -/

namespace Sys2Proof.Machine

section
variable {p : Params} {ex : Instr → State → Host.Outcome State Fault Refusal} {s : State}

theorem exec_eq : exec = execWith Params.default := funext fun i => funext fun s => exec_eq_execWith i s

/-! ## One step of a block left alone (log entry 4) -/

theorem alone_iff : s.alone = true ↔ s.cmd = none ∧ s.host = [] := by
  simp only [State.alone, Bool.and_eq_true, Option.isNone_iff_eq_none, List.isEmpty_iff]

theorem stepBy_alone (h : s.alone = true) : stepBy p ex s = sequencerStep p ex s := by
  obtain ⟨hcmd, hhost⟩ := alone_iff.mp h
  simp only [stepBy, hcmd, hhost]

theorem stepBy_encoding (h : s.alone = true) (henc : s.encoding) : stepBy p ex s = compressStep p ex s :=
  (stepBy_alone h).trans (sequencer_compress henc.1 henc.2)

theorem stepBy_decoding (h : s.alone = true) (hdec : s.decoding) : stepBy p ex s = decompressStep p ex s :=
  (stepBy_alone h).trans (sequencer_decompress hdec.1 hdec.2)

/-! ## One move of the host (log entry 4) -/

theorem stepBy_move {e : HostEvent} {es : List HostEvent} (hcmd : s.cmd = none) (hhost : s.host = e :: es)
    (hpause : e ≠ .pause) (hawait : e ≠ .await) : stepBy p ex s = hostMove p e { s with host := es } := by
  have hpop : popHost s = { s with host := es } := by rw [popHost, hhost, List.tail_cons]
  have hstep : stepBy p ex s = hostStep p ex e s := by simp only [stepBy, hcmd, hhost]
  rw [hstep, ← hpop]
  cases e with
  | pause => exact absurd rfl hpause
  | await => exact absurd rfl hawait
  | _ => rfl

theorem hostMove_writeCmd_busy (h : s.phase = .busy) (v : Byte) : hostMove p (.writeCmd v) s = .next s := if_pos h

theorem hostMove_writeCmd (h : s.phase ≠ .busy) (v : Byte) :
    hostMove p (.writeCmd v) s = .next { s with cmd := some v } := if_neg h

theorem hostMove_writeIn_busy (h : s.phase = .busy) (a : Nat) (v : Byte) :
    hostMove p (.writeIn a v) s = .fault .hostWriteWhileBusy := if_pos h

theorem hostMove_writeIn (h : s.phase ≠ .busy) (a : Nat) (v : Byte) :
    hostMove p (.writeIn a v) s =
      if inAddressOk p a then .next { s with inp := s.inp.write a v } else .fault .noSuchInAddress := if_neg h

theorem hostMove_writeInLen_busy (h : s.phase = .busy) (n : Word32) :
    hostMove p (.writeInLen n) s = .fault .hostWriteWhileBusy := if_pos h

theorem hostMove_writeInLen (h : s.phase ≠ .busy) (n : Word32) :
    hostMove p (.writeInLen n) s =
      if exceeds p.inCap n.toNat then .refused .inLenAboveInCap else .next { s with inLen := n } := if_neg h

/-! ## The places of COMPRESS (R140, R142, R143) -/

theorem compressStep_header (hst : s.stage = .header) : compressStep p ex s = ex (.header s.inLen) s := by
  simp only [compressStep, hst]

theorem compressStep_finish (hst : s.stage = .chunk) (hend : s.inCount ≤ s.di) :
    compressStep p ex s = .next (finish .ok s) := by
  simp only [compressStep, hst, if_pos hend]

theorem compressStep_open (hst : s.stage = .chunk) (hmore : s.di < s.inCount) :
    compressStep p ex s = .next (chunkBegin s) := by
  simp only [compressStep, hst, if_neg (Nat.not_le.mpr hmore)]

theorem compressStep_token (hst : s.stage = .token) : compressStep p ex s = chunkStep p ex s := by
  simp only [compressStep, hst]

theorem chunkOver_eq_false_iff : chunkOver s = false ↔ s.di < s.inCount ∧ s.tcnt < 8 := by
  rw [← Bool.not_eq_true, chunkOver_iff, not_or, Nat.not_le, Nat.not_le]

theorem chunkStep_flush (hover : chunkOver s = true) :
    chunkStep p ex s = ex (.flag (paddedFlags p s.flags s.tcnt)) s := if_pos hover

section
variable (hopen : chunkOver s = false)
include hopen

theorem chunkStep_tail (hsearch : s.search = none) (htail : remaining s ≤ 2) :
    chunkStep p ex s = ex (.lit (lookAhead s 0)) s := by
  simp only [chunkStep, hopen, hsearch, if_pos htail, Bool.false_eq_true, if_false]

theorem chunkStep_begin (hsearch : s.search = none) (hmore : 2 < remaining s) :
    chunkStep p ex s = .next { s with search := some (searchBegin s) } := by
  simp only [chunkStep, hopen, hsearch, if_neg (Nat.not_le.mpr hmore), Bool.false_eq_true, if_false]

theorem chunkStep_extend {q q' : Search} (hsearch : s.search = some q) (hext : searchExtend s q = some q') :
    chunkStep p ex s = .next { s with search := some q' } := by
  simp only [chunkStep, hopen, hsearch, hext, Bool.false_eq_true, if_false]

theorem chunkStep_found {q : Search} (hsearch : s.search = some q) (hext : searchExtend s q = none) :
    chunkStep p ex s = ex (searchToken s q) { s with search := none } := by
  simp only [chunkStep, hopen, hsearch, hext, Bool.false_eq_true, if_false]

end

/-! ## The places of DECOMPRESS (R170, R173) -/

theorem fetchRun_ok {pos : Position} {i : Instr} (h : fetch p pos s = .ok i) : fetchRun p ex pos s = ex i s := by
  simp only [fetchRun, h]

theorem fetchRun_error {pos : Position} {e : DecodeError} (h : fetch p pos s = .error e) :
    fetchRun p ex pos s = .next (stopOn p e s) := by
  simp only [fetchRun, h]

theorem decompressStep_header (hst : s.stage = .header) : decompressStep p ex s = fetchRun p ex .header s := by
  simp only [decompressStep, hst]

theorem decompressStep_complete (hst : s.stage ≠ .header) (hdone : s.ulen.toNat ≤ s.olen) :
    decompressStep p ex s = .next (complete s) := by
  rw [decompressStep]
  split
  · next h => exact absurd h hst
  · exact if_pos ((outputDone_iff s).mpr hdone)
  · exact if_pos ((outputDone_iff s).mpr hdone)

theorem outputDone_eq_false (hmore : s.olen < s.ulen.toNat) : outputDone s = false :=
  Bool.eq_false_iff.mpr fun hdone => Nat.not_le.mpr hmore ((outputDone_iff s).mp hdone)

theorem decompressStep_flag (hst : s.stage = .chunk) (hmore : s.olen < s.ulen.toNat) :
    decompressStep p ex s = fetchRun p ex .flag s := by
  simp only [decompressStep, hst, outputDone_eq_false hmore, Bool.false_eq_true, if_false]

theorem decompressStep_token (hst : s.stage = .token) (hmore : s.olen < s.ulen.toNat) :
    decompressStep p ex s = fetchRun p ex (tokenPosition (flagBit s.flags s.t)) s := by
  simp only [decompressStep, hst, outputDone_eq_false hmore, Bool.false_eq_true, if_false]

/-! ## The stored objects while DECOMPRESS runs (R171 to R178) -/

/-- Once the header's field is taken (R171). -/
def fieldTaken (n : Word32) (s : State) : State :=
  { s with ulen := n, ulenReg := n, pp := Config.hdrLen, stage := .chunk }

/-- Once a flag byte is fetched (R172). -/
def flagTaken (f : Byte) (s : State) : State := { s with flags := f, pp := s.pp + 1, t := 0, stage := .token }

/-- Once a Literal is executed (R174). -/
def litTaken (b : Byte) (s : State) : State :=
  nextBit (putWin b { emit b { s with pp := s.pp + 1 } with olen := s.olen + 1 })

/-- Once a Match is executed (R175). -/
def matchTaken (p : Params) (off len : Nat) (s : State) : State := nextBit (copyLoop p len (matchBegin off len s))

/-- A Match moves its registers and `k` output bytes, all `len` of them without CLIP_AT_ULEN, and nothing else (R175, R179). -/
theorem matchTaken_eq (p : Params) (off len : Nat) (s : State) :
    ∃ w o k, k ≤ len ∧ (p.clipAtUlen = false → k = len) ∧
      matchTaken p off len s = nextBit { s with
        pp := s.pp + 2, off := BitVec.ofNat 10 off, mlen := len, i := 0 + k, win := w,
        cur := s.cur + BitVec.ofNat 10 k, out := o, outLen := s.outLen + k, olen := s.olen + k } := by
  obtain ⟨w, o, k, hk, hfull, hloop⟩ := copyLoop_eq p len (matchBegin off len s)
  exact ⟨w, o, k, hk, hfull, by rw [matchTaken, hloop]; rfl⟩

section
variable (hdec : s.decoding)
include hdec

theorem execWith_header_short {n : Word32} (hshort : s.inCount < 16) :
    execWith p (.header n) s = .next (finish .errHeader s) :=
  (running_decompress hdec.1 hdec.2).trans (if_pos hshort)

theorem execWith_header_decoding {n : Word32} (hlong : 16 ≤ s.inCount) :
    execWith p (.header n) s =
      .next (if exceeds p.outCap (decompressBound n.toNat) then finish .refused (fieldTaken n s) else fieldTaken n s) := by
  have hshort : ¬ s.inCount < Config.hdrLen := Nat.not_lt.mpr hlong
  calc execWith p (.header n) s
      = headerParse p n s := running_decompress hdec.1 hdec.2
    _ = _ := by
      simp only [headerParse, if_neg hshort, fieldTaken]
      split <;> rfl

theorem execWith_flag_decoding {f : Byte} (hpp : s.pp < s.inCount) :
    execWith p (.flag f) s = .next (flagTaken f s) := by
  have hroom : ¬ payloadShort 1 s = true := by rw [payloadShort_iff]; omega
  exact (running_decompress hdec.1 hdec.2).trans (if_neg hroom)

theorem execWith_flag_exhausted {f : Byte} (hpp : s.inCount ≤ s.pp) :
    execWith p (.flag f) s = .next (endEarly p .errExhausted s) := by
  have hshort : payloadShort 1 s = true := by rw [payloadShort_iff]; omega
  exact (running_decompress hdec.1 hdec.2).trans (if_pos hshort)

theorem execWith_lit_decoding {b : Byte} (hpp : s.pp < s.inCount) :
    execWith p (.lit b) s = .next (litTaken b s) := by
  have hroom : ¬ payloadShort 1 s = true := by rw [payloadShort_iff]; omega
  exact (running_decompress hdec.1 hdec.2).trans (if_neg hroom)

theorem execWith_lit_exhausted {b : Byte} (hpp : s.inCount ≤ s.pp) :
    execWith p (.lit b) s = .next (endEarly p .errExhausted s) := by
  have hshort : payloadShort 1 s = true := by rw [payloadShort_iff]; omega
  exact (running_decompress hdec.1 hdec.2).trans (if_pos hshort)

theorem execWith_matchTok_decoding {off len : Nat} (hpp : s.pp + 2 ≤ s.inCount) :
    execWith p (.matchTok off len) s = .next (matchTaken p off len s) := by
  have hroom : ¬ payloadShort 2 s = true := by rw [payloadShort_iff]; omega
  exact (running_decompress hdec.1 hdec.2).trans (if_neg hroom)

theorem execWith_matchTok_truncated {off len : Nat} (hpp : s.inCount < s.pp + 2) :
    execWith p (.matchTok off len) s = .next (endEarly p .truncated s) := by
  have hshort : payloadShort 2 s = true := by rw [payloadShort_iff]; omega
  exact (running_decompress hdec.1 hdec.2).trans (if_pos hshort)

/-- While DECOMPRESS runs no instruction stops the machine. -/
theorem execWith_decoding_next (i : Instr) : ∃ t, execWith p i s = .next t := by
  cases i with
  | header n =>
    rcases Nat.lt_or_ge s.inCount 16 with hshort | hlong
    · exact ⟨_, execWith_header_short hdec hshort⟩
    · exact ⟨_, execWith_header_decoding hdec hlong⟩
  | flag f =>
    rcases Nat.lt_or_ge s.pp s.inCount with hmore | hend
    · exact ⟨_, execWith_flag_decoding hdec hmore⟩
    · exact ⟨_, execWith_flag_exhausted hdec hend⟩
  | lit b =>
    rcases Nat.lt_or_ge s.pp s.inCount with hmore | hend
    · exact ⟨_, execWith_lit_decoding hdec hmore⟩
    · exact ⟨_, execWith_lit_exhausted hdec hend⟩
  | matchTok off len =>
    rcases Nat.lt_or_ge s.inCount (s.pp + 2) with hend | hmore
    · exact ⟨_, execWith_matchTok_truncated hdec hend⟩
    · exact ⟨_, execWith_matchTok_decoding hdec hmore⟩
  | cmdClear => exact ⟨_, meaningClear_eq s⟩
  | cmdCompress => exact ⟨_, meaningCompress_eq p s⟩
  | cmdDecompress => exact ⟨_, meaningDecompress_eq s⟩

/-- No step of DECOMPRESS stops the machine: bytes that are no instruction end the operation (R13, R209). -/
theorem decompressStep_next : ∃ t, decompressStep p (execWith p) s = .next t := by
  have hfetch (pos : Position) : ∃ t, fetchRun p (execWith p) pos s = .next t := by
    cases hf : fetch p pos s with
    | ok i => rw [fetchRun_ok hf]; exact execWith_decoding_next hdec i
    | error e => exact ⟨_, fetchRun_error hf⟩
  rw [decompressStep]
  split
  · exact hfetch _
  · split
    · exact ⟨_, rfl⟩
    · exact hfetch _
  · split
    · exact ⟨_, rfl⟩
    · exact hfetch _

end

/-! ## The stored objects while COMPRESS runs (R141, R142, R150 to R152) -/

/-- Once a header is emitted (R141). -/
def headerPut (n : Word32) (s : State) : State := { emitSeq (headerBytes n) s with ulenReg := n, stage := .chunk }

/-- Once a chunk is flushed (R152). -/
def chunkPut (f : Byte) (s : State) : State := { emitSeq (f :: s.tokbuf.slice 0 s.tblen) s with stage := .chunk }

@[simp] theorem length_headerBytes (n : Word32) : (headerBytes n).length = 16 := rfl

theorem headerPut_eq (n : Word32) (s : State) :
    headerPut n s = { s with
      out := s.out.writeSeq s.outLen (headerBytes n), outLen := s.outLen + 16, ulenReg := n, stage := .chunk } := by
  rw [headerPut, emitSeq_eq, length_headerBytes]

theorem chunkPut_eq (f : Byte) (s : State) :
    chunkPut f s = { s with
      out := s.out.writeSeq s.outLen (f :: s.tokbuf.slice 0 s.tblen), outLen := s.outLen + (s.tblen + 1),
      stage := .chunk } := by
  rw [chunkPut, emitSeq_eq, List.length_cons, Memory.slice_length]

section
variable (henc : s.encoding)
include henc

theorem execWith_header_encoding (n : Word32) : execWith p (.header n) s = .next (headerPut n s) :=
  running_compress henc.1 henc.2

theorem execWith_flag_encoding (f : Byte) (htblen : s.tblen ≤ 16) : execWith p (.flag f) s = .next (chunkPut f s) :=
  (running_compress henc.1 henc.2).trans (if_pos htblen)

theorem exec_lit_room {b : Byte} (htcnt : s.tcnt < 8) (htblen : s.tblen + 1 ≤ 16) (hinput : s.di < s.inCount) :
    exec (.lit b) s = .next (commitLit b (stageToken true [b] s)) :=
  exec_lit_encoding henc.1 henc.2 ((stagingRoom_iff 1 s).mpr ⟨htcnt, htblen⟩) ((inputRoom_iff 1 s).mpr hinput)

theorem exec_matchTok_room {off len : Nat} (hwf : (Instr.matchTok off len).wf = true) (htcnt : s.tcnt < 8)
    (htblen : s.tblen + 2 ≤ 16) (hinput : s.di + len ≤ s.inCount) :
    exec (.matchTok off len) s = .next (stageAndCommit (.matchTok off len) s) :=
  exec_matchTok_encoding henc hwf ((stagingRoom_iff 2 s).mpr ⟨htcnt, htblen⟩) ((inputRoom_iff len s).mpr hinput)

/-- A Match out of range raises ERR_ASSERT (R121, R125). -/
theorem exec_matchTok_assert {off len : Nat} (hwf : (Instr.matchTok off len).wf = false) :
    exec (.matchTok off len) s = .next (finish .errAssert s) := by
  have hnone : encMatch off len = none := if_neg (Bool.eq_false_iff.mp hwf)
  calc exec (.matchTok off len) s
      = matchEncode off len s := running_compress henc.1 henc.2
    _ = .next (finish .errAssert s) := by simp only [matchEncode, hnone]

end

end

end Sys2Proof.Machine
end

section
/-! PROOF. The stepwise search against the closed form (R143 to R149). With `L` bytes confirmed the hypothetical window is the
window after `L` look-ahead writes, so it holds HRead (R148), and the candidates are the slots that match `L` bytes, in scan
order. A search ends at the greatest such `L`, and then its first candidate is the oldest of the longest. -/

namespace Sys2Proof.Machine

/-! ## The hypothetical window (R145, R148) -/

/-- The window after the first `k` look-ahead bytes have been written at and after the cursor (R145, D6). -/
def hypAfter (s : State) (k : Nat) : Memory :=
  (List.range k).foldl (fun m j => m.write (slotAt s j) (lookAhead s j)) s.win

theorem hypAfter_zero (s : State) : hypAfter s 0 = s.win := rfl

theorem hypAfter_succ (s : State) (k : Nat) :
    hypAfter s (k + 1) = (hypAfter s k).write (slotAt s k) (lookAhead s k) := by
  simp only [hypAfter, List.range_succ, List.foldl_append, List.foldl_cons, List.foldl_nil]

theorem hypAfter_wf {s : State} (hwf : s.win.wf) (k : Nat) : (hypAfter s k).wf := by
  induction k with
  | zero => exact hwf
  | succ k ih => rw [hypAfter_succ]; exact Memory.write_wf ih _ _

/-- Two distances below 1024 with the same slot are the same. -/
theorem slotAt_inj {s : State} {d e : Nat} (hd : d < 1024) (he : e < 1024) : slotAt s d = slotAt s e ↔ d = e := by
  refine ⟨fun h => ?_, congrArg (slotAt s)⟩
  rw [← distance_slotAt s hd, ← distance_slotAt s he, h]

/-- The slots at distances below `k` hold the look-ahead bytes, the others what the window holds. -/
theorem hypAfter_read {s : State} (hwf : s.win.wf) {k d : Nat} (hk : k ≤ 1024) (hd : d < 1024) :
    (hypAfter s k).read (slotAt s d) = if d < k then lookAhead s d else s.win.read (slotAt s d) := by
  induction k with
  | zero => rfl
  | succ k ih =>
    rw [hypAfter_succ, Memory.read_write (hypAfter_wf hwf k), ih (by omega)]
    simp only [slotAt_inj hd (show k < 1024 by omega)]
    rcases Nat.lt_trichotomy d k with hlt | rfl | hgt
    · rw [if_neg (by omega), if_pos hlt, if_pos (by omega)]
    · rw [if_pos rfl, if_pos (by omega)]
    · rw [if_neg (by omega), if_neg (by omega), if_neg (by omega)]

/-- The slot at an index's distance is that index modulo 1024. -/
theorem slotAt_distance_mod (s : State) (a : Nat) : slotAt s (distance s a) = a % 1024 := by
  have hcur : s.cur.toNat < 1024 := s.cur.isLt
  simp only [slotAt, distance, Config.winSize]
  omega

/-- The hypothetical window holds HRead(c, k) at the `k`-th source slot of `c` (R148). -/
theorem hypAfter_read_eq_hRead {s : State} (hwf : s.win.wf) (c : Nat) {k : Nat} (hk : k ≤ 1024) :
    (hypAfter s k).read ((c + k) % 1024) = hRead s c k := by
  have hdist : distance s (c + k) < 1024 := Nat.mod_lt _ (by decide)
  rw [← slotAt_distance_mod s (c + k), hypAfter_read hwf hk hdist, slotAt_distance_mod]
  simp only [hRead, winRead_nat, Config.winSize]

/-! ## One byte more (R149) -/

theorem matchLen_le_maxLen (s : State) (c : Nat) : matchLen s c ≤ maxLen s := (le_matchLen_iff.mp (Nat.le_refl _)).1

/-- A slot matches `m + 1` bytes exactly when it matches `m` and then byte `m`. -/
theorem succ_le_matchLen_iff {s : State} {c m : Nat} (hm : m < maxLen s) :
    m + 1 ≤ matchLen s c ↔ m ≤ matchLen s c ∧ hRead s c m = lookAhead s m := by
  simp only [le_matchLen_iff, Nat.forall_lt_succ_right]
  constructor
  · rintro ⟨-, hbelow, hlast⟩
    exact ⟨⟨Nat.le_of_lt hm, hbelow⟩, hlast⟩
  · rintro ⟨⟨-, hbelow⟩, hlast⟩
    exact ⟨hm, hbelow, hlast⟩

/-! ## A search under way -/

/-- The slots that match at least `m` bytes, in scan order. -/
def matching (s : State) (m : Nat) : List Nat := (scanOrder s).filter fun c => decide (m ≤ matchLen s c)

/-- The scratch with `q.len` bytes confirmed. The first byte is confirmed by the choice of the candidates already. -/
structure Confirmed (s : State) (q : Search) : Prop where
  hyp : hypWrite s q = hypAfter s q.len
  cands : q.cands = matching s (max 1 q.len)
  found : 0 < q.len → q.cands ≠ []
  len : q.len ≤ maxLen s

theorem initialCands_eq_matching {s : State} (hmore : 0 < maxLen s) : initialCands s = matching s 1 := by
  refine List.filter_congr fun c hc => ?_
  have hc1024 : c < 1024 := mem_scanOrder.mp hc
  have hone := succ_le_matchLen_iff (c := c) hmore
  rw [hRead_zero s hc1024] at hone
  simp only [Bool.beq_eq_decide_eq, winRead_slot s hc1024, hone, Nat.zero_le, true_and]

theorem Confirmed.searchBegin {s : State} (hmore : 0 < maxLen s) : Confirmed s (searchBegin s) where
  hyp := by simp only [hypWrite, searchBegin_len, searchBegin_hyp, hypAfter_zero]
  cands := by rw [searchBegin_cands, searchBegin_len, initialCands_eq_matching hmore]; rfl
  found h := by rw [searchBegin_len] at h; exact absurd h (Nat.lt_irrefl 0)
  len := by rw [searchBegin_len]; exact Nat.zero_le _

/-- A trial keeps the candidates that match one byte more (R145). -/
theorem Confirmed.narrow_eq {s : State} (hwf : s.win.wf) {q : Search} (h : Confirmed s q) (hlt : q.len < maxLen s) :
    narrow s q = matching s (q.len + 1) := by
  have h66 : q.len ≤ 66 := Nat.le_trans h.len (Nat.min_le_left _ _)
  rw [narrow, h.cands, matching, List.filter_filter]
  refine List.filter_congr fun c _ => ?_
  have hread : (hypWrite s q).read ((c + q.len) % Config.winSize) = hRead s c q.len := by
    rw [h.hyp]
    exact hypAfter_read_eq_hRead hwf c (by omega)
  have hsucc := succ_le_matchLen_iff (c := c) hlt
  rw [hread, Bool.eq_iff_iff, Bool.and_eq_true, beq_iff_eq, decide_eq_true_iff, decide_eq_true_iff]
  constructor
  · rintro ⟨hbyte, hle⟩
    exact hsucc.mpr ⟨by omega, hbyte⟩
  · intro hle
    exact ⟨(hsucc.mp hle).2, by omega⟩

theorem Confirmed.extend {s : State} (hwf : s.win.wf) {q q' : Search} (h : Confirmed s q)
    (hext : searchExtend s q = some q') : Confirmed s q' := by
  obtain ⟨hlt, hne, rfl⟩ := searchExtend_cases hext
  refine ⟨?hyp, ?cands, fun _ => hne, hlt⟩
  case hyp => rw [hypAfter_succ, ← h.hyp]; rfl
  case cands => rw [h.narrow_eq hwf hlt, Nat.max_eq_right (by simp only; omega)]

/-- A search ends where no slot matches more bytes than it has confirmed (R146). -/
theorem Confirmed.longest {s : State} (hwf : s.win.wf) {q : Search} (h : Confirmed s q)
    (hext : searchExtend s q = none) {c : Nat} (hc : c < 1024) : matchLen s c ≤ q.len := by
  rcases Nat.lt_or_ge q.len (maxLen s) with hlt | hge
  · rcases searchExtend_none hext with hmax | hempty
    · exact absurd hlt (Nat.not_lt.mpr hmax)
    · rw [h.narrow_eq hwf hlt, matching, List.filter_eq_nil_iff] at hempty
      have hmiss := hempty c (mem_scanOrder.mpr hc)
      rw [decide_eq_true_iff] at hmiss
      omega
  · exact Nat.le_trans (matchLen_le_maxLen s c) hge

/-- Where `m` is the greatest length of a list's slots, the best one is the first that has it. -/
theorem bestOf_eq_of_filter {s : State} {m : Nat} (hpos : 0 < m) {l cs : List Nat} {c : Nat}
    (hmax : ∀ d, d ∈ l → matchLen s d ≤ m) (hfirst : (l.filter fun d => decide (m ≤ matchLen s d)) = c :: cs) :
    bestOf s l = (c, m) := by
  induction l with
  | nil => cases hfirst
  | cons d l ih =>
    obtain ⟨hd, hl⟩ := List.forall_mem_cons.mp hmax
    by_cases hlong : m ≤ matchLen s d
    · have hdm : matchLen s d = m := Nat.le_antisymm hd hlong
      rw [List.filter_cons, if_pos (decide_eq_true hlong), List.cons.injEq] at hfirst
      have htail : (bestOf s l).2 ≤ matchLen s d := by
        rcases Nat.eq_zero_or_pos (bestOf s l).2 with hzero | hbest
        · omega
        · obtain ⟨hmem, hlen⟩ := bestOf_mem hbest
          rw [hdm, ← hlen]
          exact hl _ hmem
      rw [bestOf_cons_of_le htail, hdm, hfirst.1]
    · rw [List.filter_cons, if_neg (by simpa using hlong)] at hfirst
      have htail := ih hl hfirst
      rw [bestOf_cons_of_lt (by rw [htail]; exact Nat.not_le.mp hlong), htail]

/-- The token of a search that has ended is the closed form's (R147, R149). -/
theorem Confirmed.token_eq {s : State} (hwf : s.win.wf) (hmore : 2 < remaining s) {q : Search} (h : Confirmed s q)
    (hext : searchExtend s q = none) : searchToken s q = tokenChoose s := by
  have hlong {c : Nat} (hc : c < 1024) : matchLen s c ≤ q.len := h.longest hwf hext hc
  have hshort (hlen : q.len < 3) : tokenChoose s = .lit (lookAhead s 0) := by
    have hnone : matchSearch s = none :=
      matchSearch_eq_none_iff.mpr fun c hc => Nat.lt_of_le_of_lt (hlong hc) hlen
    simp only [tokenChoose, if_neg (Nat.not_le.mpr hmore), hnone]
  cases hcands : q.cands with
  | nil =>
    have hzero : q.len = 0 := Nat.eq_zero_of_not_pos fun hpos => h.found hpos hcands
    rw [hshort (by omega)]
    simp only [searchToken, hcands]
  | cons c cs =>
    by_cases hlen : q.len < 3
    · rw [hshort hlen]
      simp only [searchToken, hcands, Config.minMatch, if_pos hlen]
    · have hfirst : matching s q.len = c :: cs := by
        have hc := h.cands
        rwa [hcands, Nat.max_eq_right (by omega), eq_comm] at hc
      have hbest : bestOf s (scanOrder s) = (c, q.len) :=
        bestOf_eq_of_filter (by omega) (fun d hd => hlong (mem_scanOrder.mp hd)) hfirst
      have hfound : matchSearch s = some (c, q.len) :=
        matchSearch_eq_some_iff.mpr ⟨hbest, Nat.not_lt.mp hlen⟩
      simp only [searchToken, hcands, Config.minMatch, if_neg hlen, tokenChoose, if_neg (Nat.not_le.mpr hmore), hfound]

/-! ## The run of a search -/

/-- COMPRESS runs alone inside an open chunk (R142). -/
structure InChunk (s : State) : Prop where
  alone : s.alone = true
  encoding : s.encoding
  stage : s.stage = .token
  opened : chunkOver s = false

section
variable {s : State} (h : InChunk s)
include h

theorem InChunk.step_eq : step s = chunkStep Params.default exec s :=
  (stepBy_encoding h.alone h.encoding).trans (compressStep_token h.stage)

theorem InChunk.step_begin (hsearch : s.search = none) (hmore : 2 < remaining s) :
    step s = .next (atSearch (searchBegin s) s) :=
  h.step_eq.trans (chunkStep_begin h.opened hsearch hmore)

theorem InChunk.atSearch (q : Search) : InChunk (atSearch q s) :=
  ⟨h.alone, h.encoding, h.stage, h.opened⟩

theorem InChunk.step_extend {q q' : Search} (hext : searchExtend s q = some q') :
    step (Machine.atSearch q s) = .next (Machine.atSearch q' s) :=
  (h.atSearch q).step_eq.trans (chunkStep_extend (s := Machine.atSearch q s) h.opened rfl hext)

theorem InChunk.step_found {q : Search} (hsearch : s.search = none) (hext : searchExtend s q = none) :
    step (Machine.atSearch q s) = exec (searchToken s q) s := by
  have hback : { Machine.atSearch q s with search := none } = s := by rw [← hsearch]; rfl
  calc step (Machine.atSearch q s)
      = exec (searchToken (Machine.atSearch q s) q) { Machine.atSearch q s with search := none } :=
        (h.atSearch q).step_eq.trans (chunkStep_found (s := Machine.atSearch q s) h.opened rfl hext)
    _ = exec (searchToken s q) s := by rw [hback]; rfl

/-- From a search under way, one step a trial leads to its end. -/
theorem InChunk.reaches_end (hwf : s.win.wf) {q : Search} (hq : Confirmed s q) :
    ∃ k q', k ≤ maxLen s - q.len ∧ Reaches k (Machine.atSearch q s) (Machine.atSearch q' s) ∧ Confirmed s q' ∧
      searchExtend s q' = none := by
  induction hroom : maxLen s - q.len using Nat.strongRecOn generalizing q with
  | _ n ih =>
    cases hext : searchExtend s q with
    | none => exact ⟨0, q, Nat.zero_le _, rfl, hq, hext⟩
    | some q1 =>
      have hlt : maxLen s - q1.len < n := by
        obtain ⟨hlt, -, rfl⟩ := searchExtend_cases hext
        simp only
        omega
      obtain ⟨k, q', hk, hreach, hq', hend⟩ := ih _ hlt (hq.extend hwf hext) rfl
      exact ⟨k + 1, q', by omega, reaches_succ_iff.mpr ⟨_, h.step_extend hext, hreach⟩, hq', hend⟩

/-- From a token's beginning with more than two bytes left, at most 67 steps that change the scratch alone lead to the step that
runs the chosen token. -/
theorem InChunk.reaches_token (hsearch : s.search = none) (hwf : s.win.wf) (hmore : 2 < remaining s) :
    ∃ k q, k ≤ 67 ∧ Reaches k s (Machine.atSearch q s) ∧ step (Machine.atSearch q s) = exec (tokenChoose s) s := by
  have hpos : 0 < maxLen s := le_maxLen_iff.mpr ⟨by decide, by unfold remaining at hmore; omega⟩
  have h66 : maxLen s ≤ 66 := Nat.min_le_left _ _
  obtain ⟨k, q, hk, hreach, hq, hend⟩ := h.reaches_end hwf (.searchBegin hpos)
  refine ⟨k + 1, q, by omega, reaches_succ_iff.mpr ⟨_, h.step_begin hsearch hmore, hreach⟩, ?_⟩
  rw [h.step_found hsearch hend, hq.token_eq hwf hmore hend]

end

/-! ## The chosen token (R125, R155) -/

/-- A chosen Match is in range and inside the input; a chosen Literal is the next input byte. -/
theorem tokenChoose_cases (s : State) :
    tokenChoose s = .lit (lookAhead s 0) ∨
    ∃ off len, tokenChoose s = .matchTok off len ∧ (Instr.matchTok off len).wf = true ∧ len ≤ remaining s := by
  rw [tokenChoose]
  split
  · exact .inl rfl
  · cases hsearch : matchSearch s with
    | none => exact .inl rfl
    | some r =>
      obtain ⟨hoff, hmin, hlen, -⟩ := matchSearch_some hsearch
      obtain ⟨h66, hinput⟩ := le_maxLen_iff.mp (hlen ▸ matchLen_le_maxLen s r.1)
      exact .inr ⟨r.1, r.2, rfl, (wf_matchTok _ _).mpr ⟨by omega, hmin, h66⟩, hinput⟩

/-! ## The obligations -/

/-- Settles O47: it holds. The scratch keeps `Confirmed` through the trials, and a search that ends there has the closed form's
token (`Confirmed.token_eq`). -/
theorem stepwiseSearchEqualsClosedForm : Obligations.StepwiseSearchEqualsClosedForm := by
  intro s halone henc hstage hsearch hwf hmore htcnt
  have hchunk : InChunk s := ⟨halone, henc, hstage, chunkOver_eq_false_iff.mpr ⟨by omega, htcnt⟩⟩
  exact hchunk.reaches_token hsearch hwf (by unfold remaining; omega)

/-- Settles O45: it holds, `hypAfter_read_eq_hRead` read at `k ≤ 66`. -/
theorem hypotheticalWindowHoldsHRead : Obligations.HypotheticalWindowHoldsHRead := by
  intro s c k hwf _ hk
  exact hypAfter_read_eq_hRead hwf c (by omega)

/-- Settles O48: it holds, by the two answers of `tokenChoose_cases`. -/
theorem chosenTokenIsInRange : Obligations.ChosenTokenIsInRange := by
  intro s hmore
  rcases tokenChoose_cases s with hlit | ⟨off, len, hmatch, hwf, hlen⟩
  · rw [hlit]
    exact ⟨rfl, fun _ _ h => (by cases h), fun b h => by cases h; rfl⟩
  · rw [hmatch]
    refine ⟨hwf, fun off' len' h => ?_, fun b h => (by cases h)⟩
    cases h
    unfold remaining at hlen
    omega

/-- Settles O43: it holds, by the two equations of a step of a search. -/
theorem searchLeavesTheWindowAlone : Obligations.SearchLeavesTheWindowAlone := by
  intro s halone henc hstage hmore htcnt
  have hchunk : InChunk s := ⟨halone, henc, hstage, chunkOver_eq_false_iff.mpr ⟨by omega, htcnt⟩⟩
  refine ⟨fun hsearch => hchunk.step_begin hsearch (by unfold remaining; omega), fun q q' hsearch hext => ?_⟩
  exact hchunk.step_eq.trans (chunkStep_extend hchunk.opened hsearch hext)

end Sys2Proof.Machine
end

section
/-! PROOF. Every DECOMPRESS ends (R184, R243). Past the header each step ends the operation or moves the payload pointer towards
IN_LEN, and a Match, begun below `ulen`, passes it by at most 65 bytes. -/

namespace Sys2Proof.Machine

/-- DECOMPRESS runs alone, past its header, with its output within the bound of R184. -/
structure InPayload (s : State) : Prop where
  alone : s.alone = true
  decoding : s.decoding
  stage : s.stage ≠ .header
  outLen : s.outLen = s.olen
  ulenReg : s.ulenReg = s.ulen
  bound : s.olen ≤ s.ulen.toNat + 65

/-- DECOMPRESS has ended in one of the four ways R184 admits, within its bound. -/
structure Ended (t : State) : Prop where
  phase : t.phase = .finished
  op : t.op = .decompress
  code : t.code = .ok ∨ t.code = .truncated ∨ t.code = .errHeader ∨ t.code = .errExhausted
  bound : t.outLen ≤ t.ulenReg.toNat + 65

section
variable {s : State} (h : InPayload s)
include h

theorem InPayload.ended {t : State} (hphase : t.phase = .finished) (hop : t.op = s.op)
    (hcode : t.code = .ok ∨ t.code = .truncated ∨ t.code = .errHeader ∨ t.code = .errExhausted)
    (hout : t.outLen = s.outLen) (hulen : t.ulenReg = s.ulenReg) : Ended t := by
  refine ⟨hphase, hop.trans h.decoding.2, hcode, ?_⟩
  rw [hout, hulen, h.outLen, h.ulenReg]
  exact h.bound

/-- A step in the payload ends the operation, or consumes a byte at least. -/
theorem InPayload.step : ∃ t, Machine.step s = .next t ∧
    (Ended t ∨ (InPayload t ∧ t.inCount - t.pp < s.inCount - s.pp)) := by
  have hstep : Machine.step s = decompressStep Params.default exec s := stepBy_decoding h.alone h.decoding
  obtain ⟨t, ht⟩ := decompressStep_next (p := Params.default) h.decoding
  rw [← exec_eq] at ht
  refine ⟨t, hstep.trans ht, ?_⟩
  rcases decompressStep_cases h.stage ht with ⟨-, rfl⟩ | ⟨-, rfl | rfl⟩ | ⟨-, -, hpp, hexec⟩ | ⟨hmore, -, hpp, hexec⟩ |
    ⟨hmore, -, hpp, hexec⟩
  · exact .inl (h.ended rfl rfl (.inl rfl) rfl rfl)
  · exact .inl (h.ended rfl rfl (.inr (.inr (.inr rfl))) rfl rfl)
  · exact .inl (h.ended rfl rfl (.inr (.inl rfl)) rfl rfl)
  · cases (execWith_flag_decoding (p := Params.default) h.decoding hpp).symm.trans hexec
    refine .inr ⟨⟨h.alone, h.decoding, Stage.noConfusion, h.outLen, h.ulenReg, h.bound⟩, ?_⟩
    simp only [flagTaken, State.inCount] at hpp ⊢
    omega
  · cases (execWith_lit_decoding (p := Params.default) h.decoding hpp).symm.trans hexec
    refine .inr ⟨⟨h.alone, h.decoding, bitStage_ne_header _, congrArg (· + 1) h.outLen, h.ulenReg, ?_⟩, ?_⟩
    · exact Nat.le_add_right_of_le hmore
    · simp only [litTaken, State.inCount, nextBit_inLen, putWin_inLen, emit_inLen, nextBit_pp, putWin_pp, emit_pp] at hpp ⊢
      omega
  · cases (execWith_matchTok_decoding (p := Params.default) h.decoding hpp).symm.trans hexec
    obtain ⟨w, o, k, hk, -, htaken⟩ := matchTaken_eq Params.default
      (matchOffset (s.inAt s.pp) (s.inAt (s.pp + 1))) (matchLength (s.inAt (s.pp + 1))) s
    have h66 : matchLength (s.inAt (s.pp + 1)) ≤ 66 :=
      ((wf_matchTok _ _).mp (matchTok_of_bytes_wf (s.inAt s.pp) (s.inAt (s.pp + 1)))).2.2
    rw [htaken]
    refine .inr ⟨⟨h.alone, h.decoding, bitStage_ne_header _, congrArg (· + k) h.outLen, h.ulenReg, ?_⟩, ?_⟩
    · simp only [nextBit_olen, nextBit_ulen]
      omega
    · simp only [State.inCount, nextBit_inLen, nextBit_pp] at hpp ⊢
      omega

theorem InPayload.runs : ∃ t, Runs s t ∧ Ended t := by
  induction hroom : s.inCount - s.pp using Nat.strongRecOn generalizing s with
  | _ n ih =>
    obtain ⟨t, hstep, hend | ⟨hpayload, hlt⟩⟩ := h.step
    · exact ⟨t, .single hstep, hend⟩
    · obtain ⟨u, hrun, hend⟩ := ih _ (hroom ▸ hlt) hpayload rfl
      exact ⟨u, .head hstep hrun, hend⟩

end

/-- The header is taken, or the operation ends ERR_HEADER (R171). -/
theorem step_start_cases {s : State} (halone : s.alone = true) :
    step (startOp .decompress s) = .next (finish .errHeader (startOp .decompress s)) ∨
    ∃ n, step (startOp .decompress s) = .next (headerTaken n s) := by
  have hdec : (startOp .decompress s).decoding := ⟨rfl, rfl⟩
  have hstep : step (startOp .decompress s) = fetchRun Params.default exec .header (startOp .decompress s) :=
    (stepBy_decoding (s := startOp .decompress s) halone hdec).trans (decompressStep_header rfl)
  cases hfetch : fetch Params.default .header (startOp .decompress s) with
  | error e =>
    rw [hstep, fetchRun_error hfetch, fetch_header_error hfetch]
    exact .inl rfl
  | ok i =>
    obtain ⟨hlong, rfl⟩ := fetch_header_ok hfetch
    rw [hstep, fetchRun_ok hfetch]
    exact .inr ⟨_, execWith_header_decoding (p := Params.default) hdec hlong⟩

/-- Settles O36: it holds. The payload pointer bounds the number of steps (`InPayload.runs`). -/
theorem decompressAlwaysFinishes : Obligations.DecompressAlwaysFinishes := by
  intro s halone
  have hrun : ∃ t, Runs (startOp .decompress s) t ∧ Ended t := by
    rcases step_start_cases halone with herr | ⟨n, htaken⟩
    · exact ⟨_, .single herr, rfl, rfl, .inr (.inr (.inl rfl)), Nat.zero_le _⟩
    · have hpayload : InPayload (headerTaken n s) :=
        ⟨halone, ⟨rfl, rfl⟩, Stage.noConfusion, rfl, rfl, Nat.zero_le _⟩
      obtain ⟨t, hrun, hend⟩ := hpayload.runs
      exact ⟨t, .head htaken hrun, hend⟩
  obtain ⟨t, ⟨k, hk⟩, hend⟩ := hrun
  exact ⟨k, t, hk, hend.phase, hend.op, hend.code, hend.bound⟩

end Sys2Proof.Machine
end

section
/-! PROOF. Every COMPRESS ends OK within its bound (R140, R153, R155 item 5). A token takes no more staged bytes than the input
bytes it stands for, and only the last chunk may hold fewer than eight tokens, so `k` input bytes make at most
`16 + k + ceil(k / 8)` bytes of OUT. The bytes of OUT are of no account here, and neither is what `tokbuf` holds. -/

namespace Sys2Proof.Machine

/-! ## A token that COMPRESS runs -/

/-- A token inside the input, with no more bytes than it stands for: what TokenChoose gives (R143, R155 item 3). -/
structure Fits (s : State) (i : Instr) : Prop where
  wf : i.wf = true
  pos : 0 < tokenSpan i
  input : s.di + tokenSpan i ≤ s.inCount
  bytes : (encode i).length ≤ tokenSpan i
  two : (encode i).length ≤ 2
  run : s.tcnt < 8 → s.tblen + 2 ≤ 16 → s.encoding → exec i s = .next (stageAndCommit i s)

theorem fits_lit {s : State} (hmore : s.di < s.inCount) : Fits s (.lit (lookAhead s 0)) where
  wf := rfl
  pos := Nat.one_pos
  input := hmore
  bytes := Nat.le_refl 1
  two := Nat.le_succ 1
  run htcnt htblen henc := exec_lit_room henc htcnt (by omega) hmore

theorem fits_matchTok {s : State} {off len : Nat} (hwf : (Instr.matchTok off len).wf = true)
    (hlen : s.di + len ≤ s.inCount) : Fits s (.matchTok off len) := by
  obtain ⟨-, hmin, -⟩ := (wf_matchTok off len).mp hwf
  have hbytes : (encode (.matchTok off len)).length = 2 := Laws.ByteCount.matchTok off len
  exact ⟨hwf, Nat.zero_lt_of_lt hmin, hlen, Nat.le_trans (Nat.le_of_eq hbytes) (Nat.le_of_succ_le hmin), Nat.le_of_eq hbytes,
    fun htcnt htblen henc => exec_matchTok_room henc hwf htcnt htblen hlen⟩

theorem fits_tokenChoose {s : State} (hmore : s.di < s.inCount) : Fits s (tokenChoose s) := by
  rcases tokenChoose_cases s with hlit | ⟨off, len, hmatch, hwf, hlen⟩
  · rw [hlit]
    exact fits_lit hmore
  · rw [hmatch]
    exact fits_matchTok hwf (by unfold remaining at hlen; omega)

/-- A token staged and committed changes the window, the cursor, `di` and the chunk registers alone (R142, R150, R151). -/
theorem stageAndCommit_frame (i : Instr) (s : State) :
    stageAndCommit i s = { s with
      win := (stageAndCommit i s).win, cur := (stageAndCommit i s).cur, di := s.di + tokenSpan i,
      flags := (stageAndCommit i s).flags, tokbuf := (stageAndCommit i s).tokbuf,
      tblen := s.tblen + (encode i).length, tcnt := s.tcnt + 1 } := by
  rw [stageAndCommit, commitMatch_frame, commitMatch_di]
  rfl

@[simp] theorem stageAndCommit_inp (i : Instr) (s : State) : (stageAndCommit i s).inp = s.inp := by
  rw [stageAndCommit_frame]
@[simp] theorem stageAndCommit_inLen (i : Instr) (s : State) : (stageAndCommit i s).inLen = s.inLen := by
  rw [stageAndCommit_frame]
@[simp] theorem stageAndCommit_out (i : Instr) (s : State) : (stageAndCommit i s).out = s.out := by
  rw [stageAndCommit_frame]
@[simp] theorem stageAndCommit_outLen (i : Instr) (s : State) : (stageAndCommit i s).outLen = s.outLen := by
  rw [stageAndCommit_frame]
@[simp] theorem stageAndCommit_di (i : Instr) (s : State) : (stageAndCommit i s).di = s.di + tokenSpan i := by
  rw [stageAndCommit_frame]
@[simp] theorem stageAndCommit_tcnt (i : Instr) (s : State) : (stageAndCommit i s).tcnt = s.tcnt + 1 := by
  rw [stageAndCommit_frame]
@[simp] theorem stageAndCommit_tblen (i : Instr) (s : State) :
    (stageAndCommit i s).tblen = s.tblen + (encode i).length := by
  rw [stageAndCommit_frame]
@[simp] theorem stageAndCommit_search (i : Instr) (s : State) : (stageAndCommit i s).search = s.search := by
  rw [stageAndCommit_frame]
@[simp] theorem stageAndCommit_t (i : Instr) (s : State) : (stageAndCommit i s).t = s.t := by
  rw [stageAndCommit_frame]
@[simp] theorem stageAndCommit_mlen (i : Instr) (s : State) : (stageAndCommit i s).mlen = s.mlen := by
  rw [stageAndCommit_frame]
@[simp] theorem stageAndCommit_i (i : Instr) (s : State) : (stageAndCommit i s).i = s.i := by
  rw [stageAndCommit_frame]
@[simp] theorem stageAndCommit_cmd (i : Instr) (s : State) : (stageAndCommit i s).cmd = s.cmd := by
  rw [stageAndCommit_frame]
@[simp] theorem stageAndCommit_phase (i : Instr) (s : State) : (stageAndCommit i s).phase = s.phase := by
  rw [stageAndCommit_frame]
@[simp] theorem stageAndCommit_op (i : Instr) (s : State) : (stageAndCommit i s).op = s.op := by
  rw [stageAndCommit_frame]
@[simp] theorem stageAndCommit_code (i : Instr) (s : State) : (stageAndCommit i s).code = s.code := by
  rw [stageAndCommit_frame]
@[simp] theorem stageAndCommit_ulenReg (i : Instr) (s : State) : (stageAndCommit i s).ulenReg = s.ulenReg := by
  rw [stageAndCommit_frame]
@[simp] theorem stageAndCommit_host (i : Instr) (s : State) : (stageAndCommit i s).host = s.host := by
  rw [stageAndCommit_frame]

@[simp] theorem stageAndCommit_flags (i : Instr) (s : State) :
    (stageAndCommit i s).flags = (stageToken (tokenBit i) (encode i) s).flags := by
  rw [stageAndCommit, commitMatch_frame]
@[simp] theorem stageAndCommit_tokbuf (i : Instr) (s : State) :
    (stageAndCommit i s).tokbuf = s.tokbuf.writeSeq s.tblen (encode i) := by
  rw [stageAndCommit, commitMatch_tokbuf, stageToken_tokbuf]

@[simp] theorem stageAndCommit_encoding (i : Instr) (s : State) : (stageAndCommit i s).encoding ↔ s.encoding := by
  rw [State.encoding, stageAndCommit_phase, stageAndCommit_op, State.encoding]

@[simp] theorem stageAndCommit_alone (i : Instr) (s : State) : (stageAndCommit i s).alone = s.alone := by
  rw [State.alone, stageAndCommit_cmd, stageAndCommit_host, State.alone]

@[simp] theorem stageAndCommit_inCount (i : Instr) (s : State) : (stageAndCommit i s).inCount = s.inCount := by
  rw [State.inCount, stageAndCommit_inLen, State.inCount]

theorem stageAndCommit_win_wf (i : Instr) {s : State} (hwf : s.win.wf) : (stageAndCommit i s).win.wf :=
  putWinSeq_wf _ (s := stageToken (tokenBit i) (encode i) s) hwf

/-- From a token's beginning the chosen token runs: at once near the input's end, else after its search (R143). -/
theorem InChunk.runs_token {s t : State} (h : InChunk s) (hsearch : s.search = none) (hwf : s.win.wf)
    (ht : exec (tokenChoose s) s = .next t) : Runs s t := by
  rcases Nat.lt_or_ge 2 (remaining s) with hmore | htail
  · obtain ⟨k, q, -, hreach, hstep⟩ := h.reaches_token hsearch hwf hmore
    exact hreach.runs (.single (hstep.trans ht))
  · have hlit : tokenChoose s = .lit (lookAhead s 0) := if_pos htail
    rw [hlit] at ht
    exact .single ((h.step_eq.trans (chunkStep_tail h.opened hsearch htail)).trans ht)

/-! ## The size of OUT -/

/-- The bytes emitted between two chunks: one flag byte for every eight input bytes, and one more only at the input's end. -/
def BetweenChunks (s : State) : Prop :=
  s.outLen ≤ 16 + s.di + s.di / 8 ∨ (s.di = s.inCount ∧ s.outLen ≤ 16 + s.di + (s.di + 7) / 8)

/-- The bytes emitted and staged inside a chunk: those of its tokens are paid by the input bytes they stand for. -/
structure ChunkSize (s : State) : Prop where
  size : s.outLen + s.tblen ≤ 16 + s.di + (s.di - s.tcnt) / 8
  tokens : s.tcnt ≤ s.di
  count : s.tcnt ≤ 8
  staged : s.tblen ≤ 2 * s.tcnt
  begun : s.tcnt = 0 → s.di < s.inCount

/-- COMPRESS runs alone past its header, at no search, its output within its bound. -/
structure Packing (l : Word32) (s : State) : Prop where
  alone : s.alone = true
  encoding : s.encoding
  search : s.search = none
  inLen : s.inLen = l
  ulenReg : s.ulenReg = l
  winWf : s.win.wf
  outWf : s.out.wf
  input : s.di ≤ s.inCount
  header : s.out.slice 0 16 = headerBytes l
  long : 16 ≤ s.outLen
  place : (s.stage = .chunk ∧ BetweenChunks s) ∨ (s.stage = .token ∧ ChunkSize s)

/-- COMPRESS has ended OK within its bound. -/
structure Packed (l : Word32) (t : State) : Prop where
  phase : t.phase = .finished
  op : t.op = .compress
  code : t.code = .ok
  inLen : t.inLen = l
  di : t.di = t.inCount
  long : 16 ≤ t.outLen
  bound : t.outLen ≤ 16 + t.inCount + (t.inCount + 7) / 8
  header : t.out.slice 0 16 = headerBytes l
  ulenReg : t.ulenReg = l

/-- What is left to do: input bytes first, then the place in the chunk loop. -/
def packRank (s : State) : Nat :=
  3 * (s.inCount - s.di) + (if s.stage = .chunk then 1 else if s.tcnt = 0 then 0 else 2)

section
variable {l : Word32} {s : State} (h : Packing l s)
include h

/-- At the input's end, between chunks, the operation ends. -/
theorem Packing.step_finish (hstage : s.stage = .chunk) (hsize : BetweenChunks s) (hend : s.inCount ≤ s.di) :
    ∃ t, Runs s t ∧ Packed l t := by
  have hdi : s.di = s.inCount := Nat.le_antisymm h.input hend
  have hstep : step s = .next (finish .ok s) :=
    (stepBy_encoding h.alone h.encoding).trans (compressStep_finish hstage hend)
  refine ⟨_, .single hstep, rfl, h.encoding.2, rfl, h.inLen, hdi, h.long, ?_, h.header, h.ulenReg⟩
  have hbound : s.outLen ≤ 16 + s.inCount + (s.inCount + 7) / 8 := by
    rcases hsize with hfull | ⟨-, hshort⟩ <;> omega
  exact hbound

/-- Before the input's end a chunk is opened, empty. -/
theorem Packing.step_open (hstage : s.stage = .chunk) (hsize : BetweenChunks s) (hmore : s.di < s.inCount) :
    ∃ t, Runs s t ∧ Packing l t ∧ packRank t < packRank s := by
  have hstep : step s = .next (chunkBegin s) :=
    (stepBy_encoding h.alone h.encoding).trans (compressStep_open hstage hmore)
  have hroom : s.outLen ≤ 16 + s.di + s.di / 8 := hsize.resolve_right fun ⟨heq, _⟩ => Nat.ne_of_lt hmore heq
  refine ⟨_, .single hstep, { h with place := .inr ⟨rfl, hroom, Nat.zero_le _, Nat.zero_le _, Nat.le_refl _, fun _ => hmore⟩ },
    ?_⟩
  have hbefore : packRank s = 3 * (s.inCount - s.di) + 1 := congrArg (3 * (s.inCount - s.di) + ·) (if_pos hstage)
  have hafter : packRank (chunkBegin s) = 3 * (s.inCount - s.di) := rfl
  omega

/-- A full chunk, or the last one, is flushed. -/
theorem Packing.step_flush (hstage : s.stage = .token) (hsize : ChunkSize s) (hover : chunkOver s = true) :
    ∃ t, Runs s t ∧ Packing l t ∧ packRank t < packRank s := by
  obtain ⟨hbytes, htokens, hcount, hstaged, hbegun⟩ := hsize
  have hlast : s.tcnt = 8 ∨ s.di = s.inCount :=
    ((chunkOver_iff s).mp hover).symm.imp (Nat.le_antisymm hcount) (Nat.le_antisymm h.input)
  have htblen : s.tblen ≤ 16 := by omega
  have hsome : s.tcnt ≠ 0 := fun hzero => by have hmore := hbegun hzero; omega
  have hstep : step s = .next (chunkPut s.flags s) :=
    (stepBy_encoding h.alone h.encoding).trans ((compressStep_token hstage).trans
      ((chunkStep_flush hover).trans (execWith_flag_encoding (p := Params.default) h.encoding s.flags htblen)))
  refine ⟨_, .single hstep, ?_, ?_⟩
  · rw [chunkPut_eq]
    exact { h with
      outWf := Memory.writeSeq_wf h.outWf _ _
      long := Nat.le_add_right_of_le h.long
      header := by
        rw [← h.header]
        refine Memory.slice_eq_iff.mpr fun j hj => ?_
        have hlong := h.long
        rw [Memory.read_writeSeq h.outWf, if_neg (by omega)]
      place := .inl ⟨rfl, by
        unfold BetweenChunks State.inCount
        unfold State.inCount at hlast
        simp only
        omega⟩ }
  · have hbefore : packRank s = 3 * (s.inCount - s.di) + 2 := by
      rw [packRank, hstage, if_neg Stage.noConfusion, if_neg hsome]
    have hafter : packRank (chunkPut s.flags s) = 3 * (s.inCount - s.di) + 1 := by rw [chunkPut_eq]; rfl
    omega

/-- In an open chunk a token is chosen, staged and committed. -/
theorem Packing.run_token (hstage : s.stage = .token) (hsize : ChunkSize s) (hopen : chunkOver s = false) :
    ∃ t, Runs s t ∧ Packing l t ∧ packRank t < packRank s := by
  obtain ⟨hbytes, htokens, hcount, hstaged, hbegun⟩ := hsize
  obtain ⟨hmore, htcnt⟩ := chunkOver_eq_false_iff.mp hopen
  have hchunk : InChunk s := ⟨h.alone, h.encoding, hstage, hopen⟩
  have hfits := fits_tokenChoose hmore
  have hrun := hchunk.runs_token h.search h.winWf (hfits.run htcnt (by omega) h.encoding)
  obtain ⟨-, hpos, hinput, hspan, htwo, -⟩ := hfits
  refine ⟨_, hrun, ?_, ?_⟩
  · exact {
      alone := (stageAndCommit_alone ..).trans h.alone
      encoding := (stageAndCommit_encoding ..).mpr h.encoding
      search := (stageAndCommit_search ..).trans h.search
      inLen := (stageAndCommit_inLen ..).trans h.inLen
      ulenReg := (stageAndCommit_ulenReg ..).trans h.ulenReg
      winWf := stageAndCommit_win_wf _ h.winWf
      outWf := by rw [stageAndCommit_out]; exact h.outWf
      input := by rw [stageAndCommit_di, stageAndCommit_inCount]; exact hinput
      header := by rw [stageAndCommit_out]; exact h.header
      long := by rw [stageAndCommit_outLen]; exact h.long
      place := .inr ⟨(stageAndCommit_stage ..).trans hstage, {
        size := by
          rw [stageAndCommit_outLen, stageAndCommit_tblen, stageAndCommit_di, stageAndCommit_tcnt]
          omega
        tokens := by rw [stageAndCommit_tcnt, stageAndCommit_di]; omega
        count := by rw [stageAndCommit_tcnt]; exact htcnt
        staged := by rw [stageAndCommit_tblen, stageAndCommit_tcnt]; omega
        begun := fun hzero => by rw [stageAndCommit_tcnt] at hzero; omega }⟩ }
  · have hafter : packRank (stageAndCommit (tokenChoose s) s) = 3 * (s.inCount - (s.di + tokenSpan (tokenChoose s))) + 2 := by
      rw [packRank, stageAndCommit_stage, hstage, if_neg Stage.noConfusion, stageAndCommit_tcnt,
        if_neg (Nat.succ_ne_zero _), stageAndCommit_inCount, stageAndCommit_di]
    have hbefore : 3 * (s.inCount - s.di) ≤ packRank s := Nat.le_add_right _ _
    omega

theorem Packing.runs : ∃ t, Runs s t ∧ Packed l t := by
  induction hrank : packRank s using Nat.strongRecOn generalizing s with
  | _ n ih =>
    have hnext (hstep : ∃ t, Runs s t ∧ Packing l t ∧ packRank t < packRank s) : ∃ t, Runs s t ∧ Packed l t := by
      obtain ⟨t, hrun, hpack, hlt⟩ := hstep
      obtain ⟨u, hrest, hend⟩ := ih _ (hrank ▸ hlt) hpack rfl
      exact ⟨u, hrun.trans hrest, hend⟩
    rcases h.place with ⟨hstage, hsize⟩ | ⟨hstage, hsize⟩
    · rcases Nat.lt_or_ge s.di s.inCount with hmore | hend
      · exact hnext (h.step_open hstage hsize hmore)
      · exact h.step_finish hstage hsize hend
    · cases hover : chunkOver s with
      | false => exact hnext (h.run_token hstage hsize hover)
      | true => exact hnext (h.step_flush hstage hsize hover)

end

/-! ## The whole operation -/

theorem headerBytes_zero :
    headerBytes 0 =
      [0x00, 0x00, 0x00, 0x01, 0x00, 0x00, 0x00, 0x08, 0x00, 0x00, 0x00, 0x00, 0x00, 0x00, 0x00, 0x01] := by decide

/-- After the first step OUT holds the header, and nothing else (R141). -/
theorem headerEmitted_eq (s : State) :
    headerEmitted s = { startOp .compress s with
      out := Memory.writeSeq [] 0 (headerBytes s.inLen), outLen := 16, ulenReg := s.inLen, stage := .chunk } := by
  rw [headerEmitted, emitSeq_eq, startOp_out, startOp_outLen, Nat.zero_add, length_headerBytes]

theorem packing_headerEmitted {s : State} (halone : s.alone = true) : Packing s.inLen (headerEmitted s) := by
  rw [headerEmitted_eq]
  exact {
    alone := halone, encoding := ⟨rfl, rfl⟩, search := rfl, inLen := rfl, ulenReg := rfl, winWf := Memory.wf_nil
    outWf := Memory.writeSeq_wf Memory.wf_nil _ _
    input := Nat.zero_le _
    header := Memory.slice_writeSeq Memory.wf_nil 0 (headerBytes s.inLen)
    long := Nat.le_refl 16
    place := .inl ⟨rfl, by simp [BetweenChunks]⟩ }

/-- OUT holds a header and the payload after it. -/
theorem outBytes_split {t : State} {l : Word32} {bs : List Byte} (h : t.outBytes = headerBytes l ++ bs) :
    t.outLen = 16 + bs.length ∧ t.out.slice 16 bs.length = bs := by
  have hlen : t.outLen = 16 + bs.length := by
    have hlength := congrArg List.length h
    rwa [State.outBytes, Memory.slice_length, List.length_append] at hlength
  rw [State.outBytes, hlen, Memory.slice_add, Nat.zero_add] at h
  exact ⟨hlen, (List.append_inj h (Memory.slice_length ..)).2⟩

/-! ## Inputs of one and two bytes (R154) -/

/-- Fewer than three bytes are spelt by Literals only: no Match is that short (R125). -/
theorem Spells.eq_literals {x : Memory} {k k' : Nat} {ts : List Instr} (h : Spells x k ts k') (hshort : k' ≤ k + 2) :
    ts = (x.slice k (k' - k)).map .lit := by
  induction h with
  | nil k => rw [Nat.sub_self]; rfl
  | @cons k k' i ts head tail ih =>
    have hle := tail.length_le
    cases i with
    | lit b =>
      obtain rfl : b = x.read k := head
      have hrest : ts = (x.slice (k + 1) (k' - (k + 1))).map .lit := ih (Nat.le_trans hshort (by simp only [tokenSpan]; omega))
      have hcount : k' - k = (k' - (k + 1)) + 1 := by simp only [tokenSpan] at hle; omega
      rw [hcount, Memory.slice_succ, List.map_cons, ← hrest]
    | matchTok off len =>
      obtain ⟨-, hmin, -⟩ := (wf_matchTok off len).mp head.1
      simp only [tokenSpan] at hle
      omega
    | _ => exact head.elim

/-- The payload of one or two bytes: a flag byte whose low bits announce the Literals, and the bytes. -/
theorem Payload.eq_of_short {x : Memory} {n : Nat} {bs : List Byte} (h : Payload x n 0 bs) (hpos : 0 < n) (htwo : n ≤ 2) :
    ∃ f : Byte, (∀ j, j < 8 → f.getLsbD j = decide (j < n)) ∧ bs = f :: x.slice 0 n := by
  cases h with
  | done => exact absurd hpos (Nat.lt_irrefl 0)
  | @chunk k k' f ts rest more flags spells count full tail =>
    have hle := spells.length_le
    have hend : k' = n := full.resolve_left fun hfull => by have hk := tail.le; omega
    subst hend
    have hrest : rest = [] := by
      cases tail with
      | done => rfl
      | chunk more' => exact absurd more' (Nat.lt_irrefl k')
    have hts : ts = (x.slice 0 k').map .lit := spells.eq_literals (by omega)
    refine ⟨f, fun j _ => (flags j).trans ?_, ?_⟩
    · rw [hts, List.getElem?_map, Option.any_map]
      rcases Nat.lt_or_ge j k' with hlt | hge
      · rw [List.getElem?_eq_getElem (by rwa [Memory.slice_length]), decide_eq_true hlt]
        rfl
      · rw [List.getElem?_eq_none (by rwa [Memory.slice_length]), decide_eq_false (Nat.not_lt.mpr hge)]
        rfl
    · rw [hts, hrest, List.flatMap_map]
      exact congrArg (f :: ·) ((List.append_nil _).trans (List.flatMap_singleton' _))

/-- COMPRESS of one or two bytes ends with the header, the flag byte and the bytes. -/
theorem compress_short {s : State} (halone : s.alone = true) (htok : s.tokbuf.wf) (hpos : 0 < s.inCount)
    (htwo : s.inCount ≤ 2) {f : Byte} (hf : ∀ j, j < 8 → f.getLsbD j = decide (j < s.inCount)) :
    ∃ k t, Reaches k (startOp .compress s) t ∧ t.phase = .finished ∧ t.code = .ok ∧ t.outLen = 17 + s.inCount ∧
      t.out.slice 16 (1 + s.inCount) = f :: s.inp.slice 0 s.inCount := by
  obtain ⟨t, bs, ⟨k, hk⟩, hfin, hok, hout, hpay⟩ := compress_runs halone htok
  obtain ⟨g, hg, rfl⟩ := hpay.eq_of_short hpos htwo
  have hgf : g = f := BitVec.eq_of_getLsbD_eq fun j hj => (hg j hj).trans (hf j hj).symm
  subst hgf
  obtain ⟨hlen, hpayload⟩ := outBytes_split hout
  rw [List.length_cons, Memory.slice_length] at hlen hpayload
  exact ⟨k, t, hk, hfin, hok, by omega, by rw [Nat.add_comm 1]; exact hpayload⟩

/-! ## The obligations -/

/-- Settles O49: it holds. Every token moves `di`, so the run ends (`Packing.runs`), within the bound `Packing` keeps. -/
theorem compressAlwaysFinishesOk : Obligations.CompressAlwaysFinishesOk := by
  intro s halone
  obtain ⟨t, hrun, hend⟩ := (packing_headerEmitted halone).runs
  obtain ⟨k, hk⟩ := Runs.head (step_start_compress halone) hrun
  have hcount : t.inCount = s.inCount := congrArg BitVec.toNat hend.inLen
  exact ⟨k, t, hk, hend.phase, hend.op, hend.code, hend.di.trans hcount, hend.long, hcount ▸ hend.bound, hend.header,
    hend.ulenReg⟩

/-- Settles O50: it holds. After the header the operation is at its end. -/
theorem emptyInputGivesHeaderOnly : Obligations.EmptyInputGivesHeaderOnly := by
  intro s halone hzero
  have hpack := packing_headerEmitted halone
  have hcount : s.inCount = 0 := congrArg BitVec.toNat hzero
  have hend : (headerEmitted s).inCount ≤ (headerEmitted s).di := by
    rw [headerEmitted_eq]
    exact Nat.le_of_eq hcount
  have hstep : step (headerEmitted s) = .next (finish .ok (headerEmitted s)) :=
    (stepBy_encoding hpack.alone hpack.encoding).trans (compressStep_finish (s := headerEmitted s) rfl hend)
  obtain ⟨k, hk⟩ := Runs.head (step_start_compress halone) (.single hstep)
  have hlen : (headerEmitted s).outLen = 16 := by rw [headerEmitted_eq]
  have hheader := hpack.header
  rw [hzero, headerBytes_zero] at hheader
  exact ⟨k, _, hk, finish_phase .., finish_code .., (finish_outLen ..).trans hlen, by rw [finish_out, hheader]⟩

/-- Settles O51: it holds, by the payload of a short input (`Payload.eq_of_short`) and the flag byte its bits fix. -/
theorem shortInputsBecomeLiterals : Obligations.ShortInputsBecomeLiterals := by
  intro s halone htok
  refine ⟨fun hone => ?_, fun htwo => ?_⟩
  · have hcount : s.inCount = 1 := congrArg BitVec.toNat hone
    have hflags : ∀ j, j < 8 → (0x01 : Byte).getLsbD j = decide (j < 1) := by decide
    rw [← hcount] at hflags
    obtain ⟨k, t, hk, hfin, hok, hlen, hbytes⟩ := compress_short halone htok (by omega) (by omega) hflags
    rw [hcount] at hlen hbytes
    exact ⟨k, t, hk, hfin, hok, hlen, hbytes⟩
  · have hcount : s.inCount = 2 := congrArg BitVec.toNat htwo
    have hflags : ∀ j, j < 8 → (0x03 : Byte).getLsbD j = decide (j < 2) := by decide
    rw [← hcount] at hflags
    obtain ⟨k, t, hk, hfin, hok, hlen, hbytes⟩ := compress_short halone htok (by omega) (by omega) hflags
    rw [hcount] at hlen hbytes
    exact ⟨k, t, hk, hfin, hok, hlen, hbytes⟩

end Sys2Proof.Machine
end

section
/-! PROOF. The window of the invariant (R23): `holdsLast` says of the slots what `Tracks` says, that they are `winAfter`. So the
laws of `Tracks` carry the invariant over every write. -/

namespace Sys2Proof.Machine

/-- An address no entry lists reads as the blank byte. -/
theorem Memory.read_unlisted {m : Memory} {a : Nat} (h : ∀ c ∈ m, c.1 ≠ a) : m.read a = Memory.blank := by
  induction m with
  | nil => rfl
  | cons c m ih =>
    obtain ⟨hc, hm⟩ := List.forall_mem_cons.mp h
    rw [Memory.read, if_neg (Ne.symm hc)]
    exact ih hm

section
variable {x : Memory} {k j a : Nat}

/-- Every one of the last 1024 bytes is in its slot. -/
theorem winAfter_last (hj : j < k) (hk : k ≤ j + 1024) : winAfter x k ((Config.curInit + j) % Config.winSize) = x.read j := by
  induction k with
  | zero => omega
  | succ k ih =>
    rw [winAfter]
    split
    · next heq =>
      have hjk : j = k := by simp only [Config.curInit, Config.winSize] at heq; omega
      rw [hjk]
    · next hne =>
      have hjk : j ≠ k := fun heq => hne (by rw [heq])
      exact ih (by omega) (by omega)

/-- A slot no byte has reached is still zero. -/
theorem winAfter_fresh (hk : k ≤ j) (hj : j < 1024) : winAfter x k ((Config.curInit + j) % Config.winSize) = 0 := by
  induction k with
  | zero => rfl
  | succ k ih =>
    rw [winAfter, if_neg (by simp only [Config.curInit, Config.winSize]; omega)]
    exact ih (Nat.le_of_succ_le hk)

theorem winAfter_beyond (ha : 1024 ≤ a) : winAfter x k a = 0 := by
  induction k with
  | zero => rfl
  | succ k ih =>
    rw [winAfter, if_neg (by simp only [Config.winSize]; omega)]
    exact ih

/-- Only the first `k` bytes matter. -/
theorem winAfter_congr {y : Memory} (h : ∀ i, i < k → x.read i = y.read i) : winAfter x k a = winAfter y k a := by
  induction k with
  | zero => rfl
  | succ k ih => rw [winAfter, winAfter, h k (Nat.lt_succ_self k), ih fun i hi => h i (Nat.lt_succ_of_lt hi)]

/-- Every slot is that of one of the last 1024 bytes, or fresh. -/
theorem slot_cases (k : Nat) (ha : a < 1024) :
    (∃ j, j < k ∧ k ≤ j + 1024 ∧ (Config.curInit + j) % Config.winSize = a) ∨
    (∃ j, k ≤ j ∧ j < 1024 ∧ (Config.curInit + j) % Config.winSize = a) := by
  simp only [Config.curInit, Config.winSize]
  rcases Nat.lt_or_ge ((a + 66) % 1024) k with hlt | hge
  · exact .inl ⟨k - 1 - (k - 1 - (a + 66) % 1024) % 1024, by omega, by omega, by omega⟩
  · exact .inr ⟨(a + 66) % 1024, hge, Nat.mod_lt _ (by decide), by omega⟩

theorem holdsLast_iff {w : Memory} : holdsLast w x k ↔ ∀ a, a < 1024 → w.read a = winAfter x k a := by
  constructor
  · rintro ⟨hlast, hfresh⟩ a ha
    rcases slot_cases k ha with ⟨j, hj, hk, rfl⟩ | ⟨j, hk, hj, rfl⟩
    · exact (hlast j hj hk).trans (winAfter_last hj hk).symm
    · exact (hfresh j hk hj).trans (winAfter_fresh hk hj).symm
  · intro hread
    have hslot (j : Nat) : (Config.curInit + j) % Config.winSize < 1024 := Nat.mod_lt _ (by decide)
    exact ⟨fun j hj hk => (hread _ (hslot j)).trans (winAfter_last hj hk),
      fun j hk hj => (hread _ (hslot j)).trans (winAfter_fresh hk hj)⟩

theorem Tracks.holdsLast {w : Memory} {c : Slot} (h : Tracks x k w c) : holdsLast w x k :=
  holdsLast_iff.mpr fun a _ => h.read a

/-- A window that lists slots only and holds the last bytes is the window after them. -/
theorem Tracks.of_holdsLast {w : Memory} {c : Slot} (hwf : w.wf) (hbound : ∀ d ∈ w, d.1 < Config.winSize)
    (hlast : Machine.holdsLast w x k) (hcur : c.toNat = (Config.curInit + k) % Config.winSize) : Tracks x k w c where
  wf := hwf
  cursor := hcur
  read a := by
    rcases Nat.lt_or_ge a 1024 with hlt | hge
    · exact holdsLast_iff.mp hlast a hlt
    · rw [winAfter_beyond hge]
      exact Memory.read_unlisted fun d hd => Nat.ne_of_lt (Nat.lt_of_lt_of_le (hbound d hd) hge)

theorem Tracks.congr {y w : Memory} {c : Slot} (h : Tracks x k w c) (hxy : ∀ i, i < k → x.read i = y.read i) :
    Tracks y k w c where
  wf := h.wf
  cursor := h.cursor
  read a := (h.read a).trans (winAfter_congr hxy)

end

end Sys2Proof.Machine
end

section
/-! PROOF. The invariant by phase. `State.Inv` is a conjunction whose parts speak of one phase each; here it is one of three named
structures, and each step lemma builds the structure of the phase it leads to. -/

namespace Sys2Proof.Machine

/-! ## What holds in every phase -/

/-- The spaces outside a search: canonical, and within their addresses (R50). -/
structure Spaces (s : State) : Prop where
  winWf : s.win.wf
  winBound : ∀ c ∈ s.win, c.1 < Config.winSize
  inpWf : s.inp.wf
  inpBound : ∀ c ∈ s.inp, c.1 < 2 ^ 32 - 1
  outWf : s.out.wf
  outBound : ∀ c ∈ s.out, c.1 < s.outLen
  tokWf : s.tokbuf.wf
  tokBound : ∀ c ∈ s.tokbuf, c.1 < Config.tokbufSize

/-- The counters within their ranges (R37). -/
structure Counters (s : State) : Prop where
  tcnt : s.tcnt ≤ 8
  tblen : s.tblen ≤ 2 * s.tcnt
  t : s.t ≤ 8
  mlen : s.mlen ≤ 66
  i : s.i ≤ s.mlen

/-- The sequencer is at one place at a time. -/
theorem stage_ne {s : State} {a b : Stage} (h : s.stage = a) (hne : a ≠ b) : s.stage ≠ b := fun hb => hne (h.symm.trans hb)

theorem Memory.write_bound {m : Memory} {n a : Nat} {v : Byte} (h : ∀ c ∈ m, c.1 < n) (ha : a < n) :
    ∀ c ∈ m.write a v, c.1 < n := by
  intro c hc
  rcases Memory.mem_write hc with rfl | hc
  · exact ha
  · exact h c hc

theorem Memory.writeSeq_bound {m : Memory} {n a : Nat} {bs : List Byte} (h : ∀ c ∈ m, c.1 < n) (ha : a + bs.length ≤ n) :
    ∀ c ∈ m.writeSeq a bs, c.1 < n := by
  intro c hc
  rcases Memory.mem_writeSeq hc with hnew | hold
  · omega
  · exact h c hold

/-! ## The three kinds of state -/

/-- The invariant in IDLE and in FINISHED. -/
structure RestInv (s : State) : Prop where
  rest : s.phase ≠ .busy
  spaces : Spaces s
  counters : Counters s
  search : s.search = none
  status : s.statusOk

/-- The invariant of a search (R28, R146). -/
structure SearchInv (s : State) (q : Search) : Prop where
  stage : s.stage = .token
  opened : chunkOver s = false
  more : 3 ≤ remaining s
  hypWf : q.hyp.wf
  hypBound : ∀ c ∈ q.hyp, c.1 < Config.winSize
  cands : q.cands.Sublist (scanOrder s)
  len : q.len ≤ maxLen s

/-- The invariant while COMPRESS runs (R26, R155). -/
structure EncInv (s : State) : Prop where
  encoding : s.encoding
  cmd : s.cmd = none
  code : s.code = .ok
  spaces : Spaces s
  counters : Counters s
  flags : ∀ j, s.tcnt ≤ j → s.flags.getLsbD j = false
  input : s.di ≤ s.inCount
  tracks : Tracks s.inp s.di s.win s.cur
  atStart : s.stage = .header → s.di = 0 ∧ s.outLen = 0 ∧ s.tcnt = 0
  emitted : s.stage ≠ .header → s.ulenReg = s.inLen ∧ 16 ≤ s.outLen ∧ s.out.slice 0 16 = headerBytes s.inLen
  searching : ∀ q, s.search = some q → SearchInv s q

/-- The invariant while DECOMPRESS runs (R25, R29, R184). -/
structure DecInv (s : State) : Prop where
  decoding : s.decoding
  cmd : s.cmd = none
  code : s.code = .ok
  spaces : Spaces s
  counters : Counters s
  search : s.search = none
  outLen : s.outLen = s.olen
  tracks : Tracks s.out s.olen s.win s.cur
  atStart : s.stage = .header → s.olen = 0 ∧ s.ulenReg = 0
  inPayload : s.stage ≠ .header →
    16 ≤ s.pp ∧ s.pp ≤ s.inCount ∧ s.ulenReg = s.ulen ∧ s.olen ≤ s.ulen.toNat + 65
  bit : s.stage = .token → s.t < 8

section
variable {s : State}

theorem not_encoding_of_rest (h : s.phase ≠ .busy) : ¬ s.encoding := fun henc => h henc.1

theorem not_decoding_of_rest (h : s.phase ≠ .busy) : ¬ s.decoding := fun hdec => h hdec.1

theorem not_encoding_of_decoding (h : s.decoding) : ¬ s.encoding := fun henc => Op.noConfusion (henc.2.symm.trans h.2)

theorem not_decoding_of_encoding (h : s.encoding) : ¬ s.decoding := fun hdec => Op.noConfusion (h.2.symm.trans hdec.2)

theorem Spaces.spacesOk (h : Spaces s)
    (hsearch : ∀ q, s.search = some q → q.hyp.wf ∧ ∀ c ∈ q.hyp, c.1 < Config.winSize) : s.spacesOk :=
  ⟨⟨h.winWf, h.winBound⟩, ⟨h.inpWf, h.inpBound⟩, ⟨h.outWf, h.outBound⟩, ⟨h.tokWf, h.tokBound⟩, hsearch⟩

theorem Counters.countersOk (h : Counters s) (hflags : s.encoding → ∀ j, s.tcnt ≤ j → s.flags.getLsbD j = false) :
    s.countersOk :=
  ⟨h.tcnt, h.tblen, h.t, h.mlen, h.i, hflags⟩

theorem forall_of_search_none (hnone : s.search = none) {P : Search → Prop} : ∀ q, s.search = some q → P q :=
  fun q hq => by rw [hnone] at hq; cases hq

theorem RestInv.inv (h : RestInv s) : s.Inv :=
  ⟨h.spaces.spacesOk (forall_of_search_none h.search),
    h.counters.countersOk fun henc => absurd henc (not_encoding_of_rest h.rest),
    ⟨fun henc => absurd henc (not_encoding_of_rest h.rest), forall_of_search_none h.search⟩,
    fun hdec => absurd hdec (not_decoding_of_rest h.rest), h.status⟩

/-- While BUSY the status says CODE 0 and no value in CMD, and nothing else. -/
theorem statusOk_of_busy (hbusy : s.phase = .busy) (hcmd : s.cmd = none) (hcode : s.code = .ok) : s.statusOk := by
  refine ⟨fun _ => hcode, fun h => ?_, fun _ => hcmd, ?_, fun h => ?_, fun h => ?_⟩
  · exact Phase.noConfusion (hbusy.symm.trans h)
  · rw [hcode]; exact Code.noConfusion
  · exact Phase.noConfusion (hbusy.symm.trans h)
  · exact Phase.noConfusion (hbusy.symm.trans h)

theorem EncInv.inv (h : EncInv s) : s.Inv :=
  ⟨h.spaces.spacesOk fun q hq => ⟨(h.searching q hq).hypWf, (h.searching q hq).hypBound⟩,
    h.counters.countersOk fun _ => h.flags,
    ⟨fun _ => ⟨h.input, h.tracks.cursor, h.tracks.holdsLast, h.atStart, h.emitted⟩, fun q hq =>
      have hs := h.searching q hq
      ⟨h.encoding, hs.stage, hs.opened, hs.more, hs.cands, hs.len⟩⟩,
    fun hdec => absurd hdec (not_decoding_of_encoding h.encoding), statusOk_of_busy h.encoding.1 h.cmd h.code⟩

theorem DecInv.inv (h : DecInv s) : s.Inv :=
  ⟨h.spaces.spacesOk (forall_of_search_none h.search),
    h.counters.countersOk fun henc => absurd henc (not_encoding_of_decoding h.decoding),
    ⟨fun henc => absurd henc (not_encoding_of_decoding h.decoding), forall_of_search_none h.search⟩,
    fun _ => ⟨h.outLen, h.tracks.cursor, h.tracks.holdsLast, h.atStart, h.inPayload, h.bit⟩,
    statusOk_of_busy h.decoding.1 h.cmd h.code⟩

/-- The invariant is that of the state's phase. -/
theorem State.Inv.cases (h : s.Inv) : RestInv s ∨ EncInv s ∨ DecInv s := by
  obtain ⟨⟨⟨hwin, hwinB⟩, ⟨hinp, hinpB⟩, ⟨hout, houtB⟩, ⟨htok, htokB⟩, hhyp⟩, ⟨htcnt, htblen, ht, hmlen, hi, hflags⟩,
    ⟨henc, hsearch⟩, hdec, hstatus⟩ := h
  have hspaces : Spaces s := ⟨hwin, hwinB, hinp, hinpB, hout, houtB, htok, htokB⟩
  have hcounters : Counters s := ⟨htcnt, htblen, ht, hmlen, hi⟩
  have hnone (hne : ¬ s.encoding) : s.search = none := by
    cases hs : s.search with
    | none => rfl
    | some q => exact absurd (hsearch q hs).1 hne
  by_cases hbusy : s.phase = .busy
  · obtain ⟨hcode, -, hcmd, -⟩ := hstatus
    have hok : s.code = .ok := hcode (by rw [hbusy]; exact Phase.noConfusion)
    cases hop : s.op with
    | compress =>
      obtain ⟨hinput, hcur, hlast, hstart, hemit⟩ := henc ⟨hbusy, hop⟩
      refine .inr (.inl ⟨⟨hbusy, hop⟩, hcmd hbusy, hok, hspaces, hcounters, hflags ⟨hbusy, hop⟩, hinput,
        .of_holdsLast hwin hwinB hlast hcur, hstart, hemit, fun q hq => ?_⟩)
      obtain ⟨-, hstage, hopen, hmore, hcands, hlen⟩ := hsearch q hq
      exact ⟨hstage, hopen, hmore, (hhyp q hq).1, (hhyp q hq).2, hcands, hlen⟩
    | decompress =>
      obtain ⟨houtLen, hcur, hlast, hstart, hpay, hbit⟩ := hdec ⟨hbusy, hop⟩
      exact .inr (.inr ⟨⟨hbusy, hop⟩, hcmd hbusy, hok, hspaces, hcounters,
        hnone (not_encoding_of_decoding ⟨hbusy, hop⟩), houtLen, .of_holdsLast hwin hwinB hlast hcur, hstart, hpay, hbit⟩)
  · exact .inl ⟨hbusy, hspaces, hcounters, hnone (not_encoding_of_rest hbusy), hstatus⟩

/-- The moves of the host still to come are no part of the invariant. -/
theorem inv_withHost {es : List HostEvent} : State.Inv { s with host := es } ↔ s.Inv := Iff.rfl

end

end Sys2Proof.Machine
end

section
/-! PROOF. The invariant over one step of COMPRESS: it always answers, and what it answers meets the invariant. -/

namespace Sys2Proof.Machine

/-! ## Tokens -/

/-- The token a search ends with is in range and inside the input, whatever slots its candidates are (R125). -/
theorem fits_searchToken {s : State} {q : Search} (hmore : s.di < s.inCount) (hcands : ∀ c ∈ q.cands, c < 1024)
    (hlen : q.len ≤ maxLen s) : Fits s (searchToken s q) := by
  rw [searchToken]
  split
  · exact fits_lit hmore
  · next c cs hq =>
    split
    · exact fits_lit hmore
    · next hlong =>
      have hc : c < 1024 := hcands c (hq ▸ List.mem_cons_self)
      have hmin : 3 ≤ q.len := Nat.not_lt.mp hlong
      obtain ⟨h66, hinput⟩ := le_maxLen_iff.mp hlen
      exact fits_matchTok ((wf_matchTok _ _).mpr ⟨by omega, hmin, h66⟩) (by omega)

theorem stageAndCommit_tracks {i : Instr} {s : State} (h : Tracks s.inp s.di s.win s.cur) :
    Tracks s.inp (s.di + tokenSpan i) (stageAndCommit i s).win (stageAndCommit i s).cur :=
  Tracks.putWinSeq (s := stageToken (tokenBit i) (encode i) s) h (tokenSpan i)

theorem stageAndCommit_win_bound {i : Instr} {s : State} (h : ∀ c ∈ s.win, c.1 < Config.winSize) :
    ∀ c ∈ (stageAndCommit i s).win, c.1 < Config.winSize :=
  putWinSeq_bound _ (s := stageToken (tokenBit i) (encode i) s) h

section
variable {s : State} (h : EncInv s)
include h

/-- Outside the token loop no search runs. -/
theorem EncInv.search_none (hstage : s.stage ≠ .token) : s.search = none := by
  cases hs : s.search with
  | none => rfl
  | some q => exact absurd (h.searching q hs).stage hstage

theorem EncInv.dropSearch : EncInv { s with search := none } :=
  { h with
    spaces := { h.spaces with }, counters := { h.counters with }
    searching := forall_of_search_none rfl }

/-- A token that fits is staged and committed, and the window stays in step with the input (R150, R151). -/
theorem EncInv.token (hstage : s.stage = .token) (hopen : chunkOver s = false) (hsearch : s.search = none) {i : Instr}
    (hi : Fits s i) : ∃ t, exec i s = .next t ∧ EncInv t := by
  obtain ⟨hmore, htcnt⟩ := chunkOver_eq_false_iff.mp hopen
  have htblen := h.counters.tblen
  refine ⟨_, hi.run htcnt (by omega) h.encoding, ?_⟩
  have htwo := hi.two
  have hinput := hi.input
  have hst : (stageAndCommit i s).stage ≠ .header :=
    stage_ne ((stageAndCommit_stage i s).trans hstage) Stage.noConfusion
  exact {
    encoding := (stageAndCommit_encoding ..).mpr h.encoding
    cmd := (stageAndCommit_cmd ..).trans h.cmd
    code := (stageAndCommit_code ..).trans h.code
    spaces := {
      winWf := stageAndCommit_win_wf _ h.spaces.winWf
      winBound := stageAndCommit_win_bound h.spaces.winBound
      inpWf := by rw [stageAndCommit_inp]; exact h.spaces.inpWf
      inpBound := by rw [stageAndCommit_inp]; exact h.spaces.inpBound
      outWf := by rw [stageAndCommit_out]; exact h.spaces.outWf
      outBound := by rw [stageAndCommit_out, stageAndCommit_outLen]; exact h.spaces.outBound
      tokWf := by rw [stageAndCommit_tokbuf]; exact Memory.writeSeq_wf h.spaces.tokWf _ _
      tokBound := by
        rw [stageAndCommit_tokbuf]
        exact Memory.writeSeq_bound h.spaces.tokBound (by simp only [Config.tokbufSize]; omega) }
    counters := {
      tcnt := by rw [stageAndCommit_tcnt]; exact htcnt
      tblen := by rw [stageAndCommit_tblen, stageAndCommit_tcnt]; omega
      t := by rw [stageAndCommit_t]; exact h.counters.t
      mlen := by rw [stageAndCommit_mlen]; exact h.counters.mlen
      i := by rw [stageAndCommit_i, stageAndCommit_mlen]; exact h.counters.i }
    flags := fun j hj => by
      rw [stageAndCommit_tcnt] at hj
      have hkept : flagBit s.flags j = false := h.flags j (Nat.le_of_succ_le hj)
      rw [stageAndCommit_flags]
      refine (flagBit_stageToken _ _ htcnt j).trans ?_
      rw [hkept, decide_eq_false (by omega), Bool.and_false, Bool.or_false]
    input := by rw [stageAndCommit_di, stageAndCommit_inCount]; exact hinput
    tracks := by rw [stageAndCommit_inp, stageAndCommit_di]; exact stageAndCommit_tracks h.tracks
    atStart := fun hheader => absurd hheader hst
    emitted := fun _ => by
      rw [stageAndCommit_ulenReg, stageAndCommit_inLen, stageAndCommit_outLen, stageAndCommit_out]
      exact h.emitted (stage_ne hstage Stage.noConfusion)
    searching := forall_of_search_none ((stageAndCommit_search ..).trans hsearch) }

/-! ## The other steps -/

/-- Bytes are appended to OUT, after which it begins with the header and a chunk may begin. -/
theorem EncInv.appended (hsearch : s.search = none) {bs : List Byte} {n : Word32}
    (hemit : n = s.inLen ∧ 16 ≤ s.outLen + bs.length ∧ (s.out.writeSeq s.outLen bs).slice 0 16 = headerBytes s.inLen) :
    EncInv { emitSeq bs s with ulenReg := n, stage := .chunk } := by
  rw [emitSeq_eq]
  exact { h with
    spaces := { h.spaces with
      outWf := Memory.writeSeq_wf h.spaces.outWf _ _
      outBound := Memory.writeSeq_bound (fun c hc => Nat.lt_add_right _ (h.spaces.outBound c hc)) (Nat.le_refl _) }
    counters := { h.counters with }
    atStart := fun hheader => Stage.noConfusion hheader
    emitted := fun _ => hemit
    searching := forall_of_search_none hsearch }

/-- The header is emitted (R141). -/
theorem EncInv.headerPut (hstage : s.stage = .header) : EncInv (headerPut s.inLen s) := by
  obtain ⟨-, hout, -⟩ := h.atStart hstage
  have hslice := Memory.slice_writeSeq h.spaces.outWf s.outLen (headerBytes s.inLen)
  rw [length_headerBytes, hout, Nat.zero_add] at hslice
  refine h.appended (h.search_none (stage_ne hstage Stage.noConfusion)) ⟨rfl, ?_, ?_⟩
  · rw [length_headerBytes]; exact Nat.le_add_left 16 _
  · rw [hout]; exact hslice

/-- A chunk is opened (R142). -/
theorem EncInv.chunkBegin (hstage : s.stage = .chunk) : EncInv (chunkBegin s) :=
  { h with
    spaces := { h.spaces with }
    counters := { h.counters with tcnt := Nat.zero_le _, tblen := Nat.zero_le _ }
    flags := fun _ _ => BitVec.getLsbD_zero
    atStart := fun hheader => Stage.noConfusion hheader
    emitted := fun _ => h.emitted (stage_ne hstage Stage.noConfusion)
    searching := forall_of_search_none (h.search_none (stage_ne hstage Stage.noConfusion)) }

/-- A chunk is flushed (R152). -/
theorem EncInv.chunkPut (hstage : s.stage = .token) (hover : chunkOver s = true) (f : Byte) : EncInv (chunkPut f s) := by
  obtain ⟨hulen, hlong, hheader⟩ := h.emitted (stage_ne hstage Stage.noConfusion)
  have hnone : s.search = none := by
    cases hs : s.search with
    | none => rfl
    | some q => exact absurd (hover.symm.trans (h.searching q hs).opened) Bool.noConfusion
  refine h.appended hnone ⟨by rw [emitSeq_eq]; exact hulen, Nat.le_add_right_of_le hlong, ?_⟩
  rw [← hheader]
  refine Memory.slice_eq_iff.mpr fun j hj => ?_
  rw [Memory.read_writeSeq h.spaces.outWf, if_neg (by omega)]

/-- A search is under way (R144, R146). -/
theorem EncInv.atSearch {q : Search} (hq : SearchInv s q) : EncInv (atSearch q s) :=
  { h with
    spaces := { h.spaces with }, counters := { h.counters with }
    searching := fun q' hq' => by cases hq'; exact { hq with } }

/-- The operation ends (R140, R153). -/
theorem EncInv.finish (hstage : s.stage = .chunk) : RestInv (finish .ok s) where
  rest := Phase.noConfusion
  spaces := { h.spaces with }
  counters := { h.counters with }
  search := h.search_none (stage_ne hstage Stage.noConfusion)
  status := by
    obtain ⟨hulen, hlong, hheader⟩ := h.emitted (stage_ne hstage Stage.noConfusion)
    refine ⟨fun hne => absurd rfl hne, fun hidle => Phase.noConfusion hidle, fun hbusy => Phase.noConfusion hbusy,
      Code.noConfusion, fun _ _ => .inl ⟨rfl, hlong, ?_⟩, fun _ hop => ?_⟩
    · exact hheader.trans (congrArg headerBytes hulen.symm)
    · exact absurd (h.encoding.2.symm.trans hop) Op.noConfusion

theorem EncInv.searchBegin (hstage : s.stage = .token) (hopen : chunkOver s = false) (hmore : 2 < remaining s) :
    SearchInv s (searchBegin s) where
  stage := hstage
  opened := hopen
  more := hmore
  hypWf := by rw [searchBegin_hyp]; exact h.spaces.winWf
  hypBound := by rw [searchBegin_hyp]; exact h.spaces.winBound
  cands := by rw [searchBegin_cands]; exact initialCands_sublist s
  len := by rw [searchBegin_len]; exact Nat.zero_le _

end

theorem hypWrite_bound {s : State} {q : Search} (h : ∀ c ∈ q.hyp, c.1 < Config.winSize) :
    ∀ c ∈ hypWrite s q, c.1 < Config.winSize := by
  rw [hypWrite]
  split
  · exact h
  · exact Memory.write_bound h (slotAt_lt s _)

theorem SearchInv.extend {s : State} {q q' : Search} (h : SearchInv s q) (hext : searchExtend s q = some q') :
    SearchInv s q' := by
  obtain ⟨hlt, -, rfl⟩ := searchExtend_cases hext
  exact { h with
    hypWf := hypWrite_wf h.hypWf
    hypBound := hypWrite_bound h.hypBound
    cands := (narrow_sublist s q).trans h.cands
    len := hlt }

/-- One step of a chunk being built (R142, R143). -/
theorem EncInv.chunkStep {s : State} (h : EncInv s) (hstage : s.stage = .token) :
    ∃ t, chunkStep Params.default exec s = .next t ∧ EncInv t := by
  cases hover : chunkOver s with
  | true =>
    have htblen : s.tblen ≤ 16 := by
      have hbytes := h.counters.tblen
      have hcount := h.counters.tcnt
      omega
    exact ⟨_, (chunkStep_flush hover).trans (execWith_flag_encoding (p := Params.default) h.encoding _ htblen),
      h.chunkPut hstage hover _⟩
  | false =>
    have hmore := (chunkOver_eq_false_iff.mp hover).1
    cases hsearch : s.search with
    | none =>
      rcases Nat.lt_or_ge 2 (remaining s) with hlong | htail
      · exact ⟨_, chunkStep_begin hover hsearch hlong, h.atSearch (h.searchBegin hstage hover hlong)⟩
      · rw [chunkStep_tail hover hsearch htail]
        exact h.token hstage hover hsearch (fits_lit hmore)
    | some q =>
      have hq := h.searching q hsearch
      cases hext : searchExtend s q with
      | some q' => exact ⟨_, chunkStep_extend hover hsearch hext, h.atSearch (hq.extend hext)⟩
      | none =>
        have hcands (c : Nat) (hc : c ∈ q.cands) : c < 1024 := mem_scanOrder.mp (hq.cands.subset hc)
        rw [chunkStep_found hover hsearch hext]
        exact h.dropSearch.token hstage hover rfl
          (fits_searchToken (s := { s with search := none }) hmore hcands hq.len)

/-- One step of COMPRESS (R140). -/
theorem EncInv.compressStep {s : State} (h : EncInv s) :
    ∃ t, compressStep Params.default exec s = .next t ∧ t.Inv := by
  cases hstage : s.stage with
  | header =>
    exact ⟨_, (compressStep_header hstage).trans (execWith_header_encoding (p := Params.default) h.encoding _),
      (h.headerPut hstage).inv⟩
  | chunk =>
    rcases Nat.lt_or_ge s.di s.inCount with hmore | hend
    · exact ⟨_, compressStep_open hstage hmore, (h.chunkBegin hstage).inv⟩
    · exact ⟨_, compressStep_finish hstage hend, (h.finish hstage).inv⟩
  | token =>
    obtain ⟨t, hstep, ht⟩ := h.chunkStep hstage
    exact ⟨t, (compressStep_token hstage).trans hstep, ht.inv⟩

end Sys2Proof.Machine
end

section
/-! PROOF. The invariant over one step of DECOMPRESS. A token changes the output, the window and the token's own registers
(`TokenFrame`), and every byte goes to OUT and into the window alike (`Produced`). -/

namespace Sys2Proof.Machine

/-! ## One byte of output -/

/-- OUT and the window hold the bytes produced so far. -/
structure Produced (s : State) : Prop where
  outLen : s.outLen = s.olen
  outWf : s.out.wf
  outBound : ∀ c ∈ s.out, c.1 < s.outLen
  winBound : ∀ c ∈ s.win, c.1 < Config.winSize
  tracks : Tracks s.out s.olen s.win s.cur

/-- A byte is appended to OUT and written into the window (R174, R175). -/
theorem Produced.putWin {s : State} (h : Produced s) (b : Byte) :
    Produced (putWin b { emit b s with olen := s.olen + 1 }) where
  outLen := congrArg (· + 1) h.outLen
  outWf := Memory.write_wf h.outWf _ _
  outBound := Memory.write_bound (fun c hc => Nat.lt_succ_of_lt (h.outBound c hc)) (Nat.lt_succ_self _)
  winBound := putWin_bound (s := { emit b s with olen := s.olen + 1 }) h.winBound
  tracks := by
    have hkept := h.tracks.congr (y := s.out.write s.outLen b) fun i hi =>
      (Memory.read_write_other s.out (by rw [h.outLen]; exact Nat.ne_of_lt hi) b).symm
    have hnext := hkept.write
    rw [h.outLen, Memory.read_write_same h.outWf, ← h.outLen] at hnext
    rw [h.outLen] at hnext
    simpa only [putWin_out, emit_out, putWin_olen, putWin_win, putWin_cur, emit_win, emit_cur, h.outLen] using hnext

theorem Produced.copyStep {s : State} (h : Produced s) : Produced (copyStep s) :=
  { h.putWin (winRead ((s.off.toNat : Int) + (s.i : Int)) s) with }

theorem Produced.litTaken {s : State} (h : Produced s) (b : Byte) : Produced (litTaken b s) := by
  have hat : Produced { s with pp := s.pp + 1 } := { h with }
  exact { hat.putWin b with }

theorem Produced.matchTaken {s : State} (h : Produced s) (off len : Nat) :
    Produced (matchTaken Params.default off len s) := by
  have hat : Produced (matchBegin off len s) := { h with }
  exact { copyLoop_keeps (P := Produced) (fun _ => Produced.copyStep) Params.default len hat with }

/-! ## What a token of DECOMPRESS may change -/

/-- A token changes the output, the window, `pp` and its own registers, and nothing else (R174, R175). -/
def TokenFrame (s t : State) : Prop :=
  t = { s with pp := t.pp, off := t.off, mlen := t.mlen, i := t.i, olen := t.olen, outLen := t.outLen, out := t.out,
               win := t.win, cur := t.cur, t := t.t, stage := t.stage }

theorem litTaken_frame (b : Byte) (s : State) : TokenFrame s (litTaken b s) := rfl

theorem matchTaken_frame (p : Params) (off len : Nat) (s : State) : TokenFrame s (matchTaken p off len s) := by
  obtain ⟨w, o, k, -, -, htaken⟩ := matchTaken_eq p off len s
  rw [htaken]
  rfl

section
variable {s t : State} (h : TokenFrame s t)
include h

theorem TokenFrame.inp : t.inp = s.inp := by rw [TokenFrame] at h; rw [h]
theorem TokenFrame.inLen : t.inLen = s.inLen := by rw [TokenFrame] at h; rw [h]
theorem TokenFrame.tokbuf : t.tokbuf = s.tokbuf := by rw [TokenFrame] at h; rw [h]
theorem TokenFrame.tblen : t.tblen = s.tblen := by rw [TokenFrame] at h; rw [h]
theorem TokenFrame.tcnt : t.tcnt = s.tcnt := by rw [TokenFrame] at h; rw [h]
theorem TokenFrame.search : t.search = s.search := by rw [TokenFrame] at h; rw [h]
theorem TokenFrame.ulen : t.ulen = s.ulen := by rw [TokenFrame] at h; rw [h]
theorem TokenFrame.ulenReg : t.ulenReg = s.ulenReg := by rw [TokenFrame] at h; rw [h]
theorem TokenFrame.cmd : t.cmd = s.cmd := by rw [TokenFrame] at h; rw [h]
theorem TokenFrame.phase : t.phase = s.phase := by rw [TokenFrame] at h; rw [h]
theorem TokenFrame.op : t.op = s.op := by rw [TokenFrame] at h; rw [h]
theorem TokenFrame.code : t.code = s.code := by rw [TokenFrame] at h; rw [h]
theorem TokenFrame.host : t.host = s.host := by rw [TokenFrame] at h; rw [h]

end

/-! ## The invariant -/

section
variable {s : State} (h : DecInv s)
include h

theorem DecInv.produced : Produced s :=
  ⟨h.outLen, h.spaces.outWf, h.spaces.outBound, h.spaces.winBound, h.tracks⟩

/-- A token executed below `ulen` keeps the invariant. -/
theorem DecInv.token {t : State} (hstage : s.stage = .token) (hframe : TokenFrame s t) (hprod : Produced t)
    (hpp : s.pp ≤ t.pp ∧ t.pp ≤ s.inCount) (hcopy : t.i ≤ t.mlen ∧ t.mlen ≤ 66) (hmax : t.olen ≤ s.ulen.toNat + 65)
    (hbit : t.t = s.t + 1 ∧ t.stage = bitStage (s.t + 1)) : DecInv t := by
  obtain ⟨h16, -, hulen, -⟩ := h.inPayload (stage_ne hstage Stage.noConfusion)
  have ht := h.bit hstage
  exact {
    decoding := ⟨hframe.phase.trans h.decoding.1, hframe.op.trans h.decoding.2⟩
    cmd := hframe.cmd.trans h.cmd
    code := hframe.code.trans h.code
    search := hframe.search.trans h.search
    spaces := {
      winWf := hprod.tracks.wf, winBound := hprod.winBound, outWf := hprod.outWf, outBound := hprod.outBound
      inpWf := hframe.inp ▸ h.spaces.inpWf, inpBound := hframe.inp ▸ h.spaces.inpBound
      tokWf := hframe.tokbuf ▸ h.spaces.tokWf, tokBound := hframe.tokbuf ▸ h.spaces.tokBound }
    counters := {
      tcnt := hframe.tcnt ▸ h.counters.tcnt
      tblen := by rw [hframe.tblen, hframe.tcnt]; exact h.counters.tblen
      t := hbit.1 ▸ ht
      mlen := hcopy.2, i := hcopy.1 }
    outLen := hprod.outLen
    tracks := hprod.tracks
    atStart := fun hheader => absurd (hbit.2.symm.trans hheader) (bitStage_ne_header _)
    inPayload := fun _ => ⟨Nat.le_trans h16 hpp.1, by rw [State.inCount, hframe.inLen]; exact hpp.2,
      (hframe.ulenReg.trans hulen).trans hframe.ulen.symm, hframe.ulen ▸ hmax⟩
    bit := fun htoken => by
      rw [hbit.2, bitStage] at htoken
      split at htoken
      · next hlt => rw [hbit.1]; exact hlt
      · exact Stage.noConfusion htoken }

/-- The operation ends: the codes agree with what OUT_LEN and ULEN record (R200). -/
theorem DecInv.ended {c : Code} (o : Memory) (hwf : o.wf) (hbound : ∀ d ∈ o, d.1 < s.outLen)
    (hc : (c = .ok ∧ s.ulenReg.toNat ≤ s.outLen ∧ s.outLen ≤ s.ulenReg.toNat + 65) ∨
      (c = .truncated ∧ s.outLen < s.ulenReg.toNat) ∨ (c = .errExhausted ∧ s.outLen < s.ulenReg.toNat) ∨
      (c = .errHeader ∧ s.outLen = 0 ∧ s.ulenReg = 0)) : RestInv (finish c { s with out := o }) where
  rest := Phase.noConfusion
  spaces := { h.spaces with outWf := hwf, outBound := hbound }
  counters := { h.counters with }
  search := h.search
  status := by
    refine ⟨fun hne => absurd rfl hne, fun hidle => Phase.noConfusion hidle, fun hbusy => Phase.noConfusion hbusy, ?_,
      fun _ hop => absurd (h.decoding.2.symm.trans hop) Op.noConfusion, fun _ _ => ?_⟩
    · rcases hc with ⟨rfl, -⟩ | ⟨rfl, -⟩ | ⟨rfl, -⟩ | ⟨rfl, -⟩ <;> exact Code.noConfusion
    · exact hc.imp_right (Or.imp_right (Or.imp_right Or.inl))

/-- The output is complete (R170, R173). -/
theorem DecInv.complete (hstage : s.stage ≠ .header) (hdone : s.ulen.toNat ≤ s.olen) : RestInv (complete s) := by
  obtain ⟨-, -, hulen, hmax⟩ := h.inPayload hstage
  have hscan : ∀ d ∈ substScan (s.olen + 1 - Config.markLen) 0 s.out, d.1 < s.outLen := by
    rcases Nat.lt_or_ge s.olen 24 with hshort | hlong
    · rw [Nat.sub_eq_zero_of_le (by simp only [Config.markLen]; omega)]
      exact h.spaces.outBound
    · exact substScan_bound _ 0 (by rw [h.outLen]; simp only [Config.markLen]; omega) h.spaces.outBound
  refine h.ended _ (substScan_wf _ _ h.spaces.outWf) hscan (.inl ⟨rfl, ?_, ?_⟩)
  · rwa [hulen, h.outLen]
  · rwa [hulen, h.outLen]

/-- The payload ends too early (R177, R178). -/
theorem DecInv.exhausted (hstage : s.stage ≠ .header) (hmore : s.olen < s.ulen.toNat) :
    RestInv (finish .errExhausted s) ∧ RestInv (finish .truncated s) := by
  obtain ⟨-, -, hulen, -⟩ := h.inPayload hstage
  have hless : s.outLen < s.ulenReg.toNat := by rwa [hulen, h.outLen]
  exact ⟨h.ended s.out h.spaces.outWf h.spaces.outBound (.inr (.inr (.inl ⟨rfl, hless⟩))),
    h.ended s.out h.spaces.outWf h.spaces.outBound (.inr (.inl ⟨rfl, hless⟩))⟩

/-- The header is taken (R171). -/
theorem DecInv.fieldTaken (hstage : s.stage = .header) (hlong : 16 ≤ s.inCount) (n : Word32) :
    DecInv (fieldTaken n s) := by
  have hzero := (h.atStart hstage).1
  exact { h with
    spaces := { h.spaces with }, counters := { h.counters with }
    atStart := fun hheader => Stage.noConfusion hheader
    inPayload := fun _ => ⟨Nat.le_refl 16, hlong, rfl, Nat.le_trans (Nat.le_of_eq hzero) (Nat.zero_le _)⟩
    bit := fun htoken => Stage.noConfusion htoken }

/-- A flag byte is taken (R172). -/
theorem DecInv.flagTaken (hstage : s.stage = .chunk) (hpp : s.pp < s.inCount) (f : Byte) : DecInv (flagTaken f s) := by
  obtain ⟨h16, -, hulen, hmax⟩ := h.inPayload (stage_ne hstage Stage.noConfusion)
  exact { h with
    spaces := { h.spaces with }
    counters := { h.counters with t := Nat.zero_le _ }
    atStart := fun hheader => Stage.noConfusion hheader
    inPayload := fun _ => ⟨Nat.le_succ_of_le h16, hpp, hulen, hmax⟩
    bit := fun _ => Nat.zero_lt_succ 7 }

theorem DecInv.litTaken (hstage : s.stage = .token) (hmore : s.olen < s.ulen.toNat) (hpp : s.pp < s.inCount) (b : Byte) :
    DecInv (litTaken b s) :=
  h.token hstage (litTaken_frame b s) (h.produced.litTaken b) ⟨Nat.le_succ _, hpp⟩ ⟨h.counters.i, h.counters.mlen⟩
    (Nat.le_add_right_of_le hmore) ⟨rfl, rfl⟩

theorem DecInv.matchTaken (hstage : s.stage = .token) (hmore : s.olen < s.ulen.toNat) (hpp : s.pp + 2 ≤ s.inCount)
    {off len : Nat} (hlen : len ≤ 66) : DecInv (matchTaken Params.default off len s) := by
  have hframe := matchTaken_frame Params.default off len s
  have hprod := h.produced.matchTaken off len
  obtain ⟨w, o, k, hk, -, htaken⟩ := matchTaken_eq Params.default off len s
  rw [htaken] at hframe hprod ⊢
  refine h.token hstage hframe hprod ⟨Nat.le_add_right _ 2, hpp⟩ ⟨?_, hlen⟩ ?_ ⟨rfl, rfl⟩
  · rw [nextBit_i, nextBit_mlen, Nat.zero_add]; exact hk
  · exact (by omega : s.olen + k ≤ s.ulen.toNat + 65)

/-- One step of DECOMPRESS (R170). -/
theorem DecInv.decompressStep : ∃ t, decompressStep Params.default exec s = .next t ∧ t.Inv := by
  by_cases hheader : s.stage = .header
  · rw [decompressStep_header hheader]
    cases hfetch : fetch Params.default .header s with
    | error e =>
      obtain ⟨holen, hulen⟩ := h.atStart hheader
      refine ⟨_, fetchRun_error hfetch, ?_⟩
      rw [fetch_header_error hfetch]
      exact (h.ended s.out h.spaces.outWf h.spaces.outBound
        (.inr (.inr (.inr ⟨rfl, h.outLen.trans holen, hulen⟩)))).inv
    | ok i =>
      obtain ⟨hlong, rfl⟩ := fetch_header_ok hfetch
      exact ⟨_, (fetchRun_ok hfetch).trans (execWith_header_decoding (p := Params.default) h.decoding hlong),
        (h.fieldTaken hheader hlong _).inv⟩
  · obtain ⟨t, ht⟩ := decompressStep_next (p := Params.default) h.decoding
    rw [← exec_eq] at ht
    refine ⟨t, ht, ?_⟩
    rcases decompressStep_cases hheader ht with ⟨hdone, rfl⟩ | ⟨hmore, rfl | rfl⟩ | ⟨-, hstage, hpp, hexec⟩ |
      ⟨hmore, hstage, hpp, hexec⟩ | ⟨hmore, hstage, hpp, hexec⟩
    · exact (h.complete hheader hdone).inv
    · exact (h.exhausted hheader hmore).1.inv
    · exact (h.exhausted hheader hmore).2.inv
    · cases (execWith_flag_decoding (p := Params.default) h.decoding hpp).symm.trans hexec
      exact (h.flagTaken hstage hpp _).inv
    · cases (execWith_lit_decoding (p := Params.default) h.decoding hpp).symm.trans hexec
      exact (h.litTaken hstage hmore hpp _).inv
    · cases (execWith_matchTok_decoding (p := Params.default) h.decoding hpp).symm.trans hexec
      have h66 := ((wf_matchTok _ _).mp (matchTok_of_bytes_wf (s.inAt s.pp) (s.inAt (s.pp + 1)))).2.2
      exact (h.matchTaken hstage hmore hpp h66).inv

end

end Sys2Proof.Machine
end

section
/-! PROOF. The invariant over one step of the whole: the sequencer, a command, a move of the host. -/

namespace Sys2Proof.Machine

/-- The invariant holds at reset, whatever the host is still to do (R35, R230). -/
theorem restInv_reset (es : List HostEvent) : RestInv { State.reset with host := es } where
  rest := Phase.noConfusion
  spaces := ⟨Memory.wf_nil, List.forall_mem_nil _, Memory.wf_nil, List.forall_mem_nil _, Memory.wf_nil,
    List.forall_mem_nil _, Memory.wf_nil, List.forall_mem_nil _⟩
  counters := ⟨Nat.zero_le _, Nat.zero_le _, Nat.zero_le _, Nat.zero_le _, Nat.zero_le _⟩
  search := rfl
  status := ⟨fun _ => rfl, fun _ => ⟨rfl, rfl⟩, fun hbusy => Phase.noConfusion hbusy, Code.noConfusion,
    fun hfin => Phase.noConfusion hfin, fun hfin => Phase.noConfusion hfin⟩

/-- Whatever the sequencer does alone, it answers, and keeps the invariant. -/
theorem State.Inv.sequencerStep {s : State} (h : s.Inv) :
    ∃ t, sequencerStep Params.default exec s = .next t ∧ t.Inv := by
  rcases h.cases with hrest | henc | hdec
  · exact ⟨s, sequencer_idle hrest.rest, h⟩
  · rw [sequencer_compress henc.encoding.1 henc.encoding.2]
    exact henc.compressStep
  · rw [sequencer_decompress hdec.decoding.1 hdec.decoding.2]
    exact hdec.decompressStep

section
variable {s : State} (h : RestInv s)
include h

theorem RestInv.withCmd (c : Option Byte) : RestInv { s with cmd := c } := by
  obtain ⟨hcode, hidle, -, hassert, hcomp, hdec⟩ := h.status
  exact { h with
    spaces := { h.spaces with }, counters := { h.counters with }
    status := ⟨hcode, hidle, fun hbusy => absurd hbusy h.rest, hassert, hcomp, hdec⟩ }

theorem RestInv.withHost (es : List HostEvent) : RestInv { s with host := es } :=
  { h with spaces := { h.spaces with }, counters := { h.counters with } }

theorem RestInv.withInp {m : Memory} (hwf : m.wf) (hbound : ∀ c ∈ m, c.1 < 2 ^ 32 - 1) : RestInv { s with inp := m } :=
  { h with spaces := { h.spaces with inpWf := hwf, inpBound := hbound }, counters := { h.counters with } }

theorem RestInv.withInLen (n : Word32) : RestInv { s with inLen := n } :=
  { h with spaces := { h.spaces with }, counters := { h.counters with } }

/-- CLEAR (R31). -/
theorem RestInv.clear : RestInv (clear s) where
  rest := Phase.noConfusion
  spaces := { h.spaces with outWf := Memory.wf_nil, outBound := List.forall_mem_nil _ }
  counters := { h.counters with }
  search := h.search
  status := ⟨fun _ => rfl, fun _ => ⟨rfl, rfl⟩, fun hbusy => Phase.noConfusion hbusy, Code.noConfusion,
    fun hfin => Phase.noConfusion hfin, fun hfin => Phase.noConfusion hfin⟩

/-- START (R231). -/
theorem RestInv.startOp (hcmd : s.cmd = none) (o : Op) : (startOp o s).Inv := by
  have hspaces : Spaces (Machine.startOp o s) := { h.spaces with
    winWf := Memory.wf_nil, winBound := List.forall_mem_nil _
    outWf := Memory.wf_nil, outBound := List.forall_mem_nil _ }
  have hcounters : Counters (Machine.startOp o s) := { h.counters with tcnt := Nat.zero_le _, tblen := Nat.zero_le _ }
  cases o with
  | compress =>
    exact EncInv.inv {
      encoding := ⟨rfl, rfl⟩, cmd := hcmd, code := rfl, spaces := hspaces, counters := hcounters
      flags := fun _ _ => BitVec.getLsbD_zero
      input := Nat.zero_le _
      tracks := .init _
      atStart := fun _ => ⟨rfl, rfl, rfl⟩
      emitted := fun hne => absurd rfl hne
      searching := forall_of_search_none rfl }
  | decompress =>
    exact DecInv.inv {
      decoding := ⟨rfl, rfl⟩, cmd := hcmd, code := rfl, spaces := hspaces, counters := hcounters, search := rfl
      outLen := rfl
      tracks := .init _
      atStart := fun _ => ⟨rfl, rfl⟩
      inPayload := fun hne => absurd rfl hne
      bit := fun htoken => Stage.noConfusion htoken }

/-- A value in CMD outside an operation (R31, R92). -/
theorem RestInv.commandStep (hcmd : s.cmd = none) (v : Byte) :
    ∃ t, commandStep Params.default exec v s = .next t ∧ t.Inv := by
  refine ⟨_, commandStep_default v s, ?_⟩
  simp only [if_neg h.rest]
  split
  · split
    · exact h.clear.inv
    · exact h.inv
  · split
    · exact h.startOp hcmd .compress
    · split
      · exact h.startOp hcmd .decompress
      · exact h.inv

end

section
variable {s : State} (h : s.Inv)
include h

/-- A value stands in CMD outside an operation only (R31). -/
theorem State.Inv.rest_of_cmd {v : Byte} (hcmd : s.cmd = some v) : RestInv s := by
  have hsome : s.cmd ≠ none := by rw [hcmd]; exact Option.some_ne_none v
  rcases h.cases with hrest | henc | hdec
  · exact hrest
  · exact absurd henc.cmd hsome
  · exact absurd hdec.cmd hsome

theorem State.Inv.rest_of_phase (hphase : s.phase ≠ .busy) : RestInv s := by
  rcases h.cases with hrest | henc | hdec
  · exact hrest
  · exact absurd henc.encoding.1 hphase
  · exact absurd hdec.decoding.1 hphase

/-- A move of the host that answers keeps the invariant. -/
theorem State.Inv.hostStep {t : State} {e : HostEvent} (hstep : hostStep Params.default exec e s = .next t) : t.Inv := by
  have hpop : (popHost s).Inv := inv_withHost.mpr h
  have hsame {u : State} (hu : u.Inv) (hseq : Machine.sequencerStep Params.default exec u = .next t) : t.Inv := by
    obtain ⟨t', ht', hinv⟩ := hu.sequencerStep
    cases ht'.symm.trans hseq
    exact hinv
  rcases hostStep_cases hstep with ⟨-, hseq⟩ | ⟨-, -, hseq⟩ | ⟨-, -, rfl⟩ | ⟨v, -, rfl⟩ | ⟨a, v, -, hrest, ha, rfl⟩ |
    ⟨n, -, hrest, rfl⟩ | ⟨-, rfl⟩
  · exact hsame hpop hseq
  · exact hsame h hseq
  · exact hpop
  · split
    · exact hpop
    · next hrest => exact ((hpop.rest_of_phase hrest).withCmd (some v)).inv
  · have hinp := (h.rest_of_phase hrest).spaces
    exact ((hpop.rest_of_phase hrest).withInp (Memory.write_wf hinp.inpWf a v)
      (Memory.write_bound hinp.inpBound ha)).inv
  · exact ((hpop.rest_of_phase hrest).withInLen n).inv
  · exact (restInv_reset _).inv

end

/-! ## The obligations -/

/-- Settles O52: it holds, `restInv_reset` with no move of the host. -/
theorem resetMeetsTheInvariant : Obligations.ResetMeetsTheInvariant := (restInv_reset []).inv

/-- Settles O53: it holds, by the three kinds of step (`RestInv.commandStep`, `State.Inv.sequencerStep`,
`State.Inv.hostStep`). -/
theorem stepKeepsTheInvariant : Obligations.StepKeepsTheInvariant := by
  intro s t h hstep
  rcases step_cases hstep with ⟨v, hcmd, hcommand⟩ | ⟨-, -, hseq⟩ | ⟨e, es, -, -, hmove⟩
  · obtain ⟨t', ht', hinv⟩ := ((h.rest_of_cmd hcmd).withCmd none).commandStep rfl v
    cases ht'.symm.trans hcommand
    exact hinv
  · obtain ⟨t', ht', hinv⟩ := h.sequencerStep
    cases ht'.symm.trans hseq
    exact hinv
  · exact h.hostStep hmove

/-- With an unbounded IN_CAP no move of the host is refused, and only its two writes can stop the machine (R241). -/
theorem hostMove_default_cases (e : HostEvent) (s : State) :
    (∃ t, hostMove Params.default e s = .next t) ∨
    (((∃ a v, e = .writeIn a v) ∨ ∃ n, e = .writeInLen n) ∧ ∃ r, hostMove Params.default e s = .fault r) := by
  by_cases hbusy : s.phase = .busy
  · cases e with
    | writeCmd v => exact .inl ⟨_, hostMove_writeCmd_busy hbusy v⟩
    | writeIn a v => exact .inr ⟨.inl ⟨a, v, rfl⟩, _, hostMove_writeIn_busy hbusy a v⟩
    | writeInLen n => exact .inr ⟨.inr ⟨n, rfl⟩, _, hostMove_writeInLen_busy hbusy n⟩
    | _ => exact .inl ⟨_, rfl⟩
  · cases e with
    | writeCmd v => exact .inl ⟨_, hostMove_writeCmd hbusy v⟩
    | writeIn a v =>
      have hmove := hostMove_writeIn (p := Params.default) hbusy a v
      split at hmove
      · exact .inl ⟨_, hmove⟩
      · exact .inr ⟨.inl ⟨a, v, rfl⟩, _, hmove⟩
    | writeInLen n => exact .inl ⟨_, hostMove_writeInLen hbusy n⟩
    | _ => exact .inl ⟨_, rfl⟩

/-- From a state of the invariant a step answers, or stops with a fault on one of the host's two writes. -/
theorem State.Inv.step_cases {s : State} (h : s.Inv) :
    (∃ t, step s = .next t) ∨
    (((∃ a v es, s.host = .writeIn a v :: es) ∨ ∃ n es, s.host = .writeInLen n :: es) ∧ ∃ r, step s = .fault r) := by
  have hpop : (popHost s).Inv := inv_withHost.mpr h
  obtain ⟨t, ht, -⟩ := h.sequencerStep
  obtain ⟨u, hu, -⟩ := hpop.sequencerStep
  cases hcmd : s.cmd with
  | some v => exact .inl ⟨_, (step_command hcmd).trans (commandStep_default v { s with cmd := none })⟩
  | none =>
    cases hhost : s.host with
    | nil => exact .inl ⟨t, (stepBy_alone (alone_iff.mpr ⟨hcmd, hhost⟩)).trans ht⟩
    | cons e es =>
      by_cases hpause : e = .pause
      · subst hpause
        exact .inl ⟨u, (step_host hcmd hhost).trans hu⟩
      by_cases hawait : e = .await
      · subst hawait
        by_cases hbusy : s.phase = .busy
        · exact .inl ⟨t, (step_host hcmd hhost).trans ((if_pos hbusy).trans ht)⟩
        · exact .inl ⟨_, (step_host hcmd hhost).trans (if_neg hbusy)⟩
      have hstep : step s = hostMove Params.default e { s with host := es } := stepBy_move hcmd hhost hpause hawait
      rcases hostMove_default_cases e { s with host := es } with ⟨t', ht'⟩ | ⟨hwrite, r, hr⟩
      · exact .inl ⟨t', hstep.trans ht'⟩
      · refine .inr ⟨hwrite.imp ?_ ?_, r, hstep.trans hr⟩
        · rintro ⟨a, v, rfl⟩
          exact ⟨a, v, es, rfl⟩
        · rintro ⟨n, rfl⟩
          exact ⟨n, es, rfl⟩

/-- Settles O54: it holds, by `State.Inv.step_cases`. -/
theorem onlyBadHostWritesStop : Obligations.OnlyBadHostWritesStop := by
  intro s h
  rcases h.step_cases with ⟨t, ht⟩ | ⟨hwrite, r, hr⟩
  · exact ⟨fun _ _ => ⟨t, ht⟩, fun r hr => by rw [ht] at hr; cases hr⟩
  · refine ⟨fun hin hlen => ?_, fun r' hr' => by rw [hr] at hr'; cases hr'⟩
    rcases hwrite with ⟨a, v, es, hhost⟩ | ⟨n, es, hhost⟩
    · exact absurd hhost (hin a v es)
    · exact absurd hhost (hlen n es)

end Sys2Proof.Machine
end

section
/-! PROOF. No state crosses calls (R34). Of two instances that run on the same input the registers a START does not set may differ,
and they are hidden: `Agree` says that the rest is the same (`visible`), and a hidden register too from the moment an operation has
written it. Every step of the one is matched by a step of the other that keeps this. -/

namespace Sys2Proof.Machine

/-! ## What is hidden -/

/-- A state without the input, without the staged bytes, and without the registers R35 leaves unspecified at START. -/
def visible (s : State) : State :=
  { s with inp := [], tokbuf := [], pp := 0, ulen := 0, t := 0, off := 0, mlen := 0, i := 0 }

/-- The window sees the written bytes, not the hidden registers. -/
theorem visible_putWinSeq (bs : List Byte) (s : State) : visible (putWinSeq bs s) = putWinSeq bs (visible s) := by
  induction bs generalizing s with
  | nil => rfl
  | cons b bs ih => exact ih (putWin b s)

theorem visible_commitMatch (len : Nat) (s : State) :
    visible (commitMatch len s) = { putWinSeq (s.inp.slice s.di len) (visible s) with di := s.di + len } := by
  rw [commitMatch_eq, ← visible_putWinSeq]
  rfl

/-- A byte is appended to OUT and written into the window (R174, R175). -/
def produced (b : Byte) (s : State) : State := putWin b { emit b s with olen := s.olen + 1 }

theorem visible_nextBit {s1 s2 : State} (hvis : visible s1 = visible s2) (ht : s1.t = s2.t) :
    visible (nextBit s1) = visible (nextBit s2) := by
  have hplace (s : State) : visible (nextBit s) = { visible s with stage := bitStage (s.t + 1) } := rfl
  rw [hplace, hplace, hvis, ht]

theorem visible_copyStep {s1 s2 : State} (hvis : visible s1 = visible s2) (hoff : s1.off = s2.off) (hi : s1.i = s2.i) :
    visible (copyStep s1) = visible (copyStep s2) := by
  have hcopy (s : State) :
      visible (copyStep s) = produced (winRead ((s.off.toNat : Int) + (s.i : Int)) (visible s)) (visible s) := rfl
  rw [hcopy, hcopy, hvis, hoff, hi]

/-- The copy of a Match sees the registers it has just set, and the window (R175). -/
theorem visible_copyLoop {s1 s2 : State} (hvis : visible s1 = visible s2) (hoff : s1.off = s2.off) (hi : s1.i = s2.i)
    (n : Nat) : visible (copyLoop Params.default n s1) = visible (copyLoop Params.default n s2) := by
  induction n generalizing s1 s2 with
  | zero => exact hvis
  | succ n ih =>
    rw [copyLoop_default_succ, copyLoop_default_succ]
    exact ih (visible_copyStep hvis hoff hi) hoff (congrArg (· + 1) hi)

theorem copyLoop_t (p : Params) (n : Nat) (s : State) : (copyLoop p n s).t = s.t := by
  obtain ⟨w, o, k, -, -, hloop⟩ := copyLoop_eq p n s
  rw [hloop]

theorem matchTaken_place (p : Params) (off len : Nat) (s : State) :
    (matchTaken p off len s).pp = s.pp + 2 ∧ (matchTaken p off len s).t = s.t + 1 := by
  obtain ⟨w, o, k, -, -, htaken⟩ := matchTaken_eq p off len s
  rw [htaken]
  exact ⟨rfl, rfl⟩

/-- What is fetched at a position is an instruction of that position (R87). -/
theorem fetch_position {pos : Position} {s : State} {i : Instr} (h : fetch Params.default pos s = .ok i) :
    i.position = pos := by
  unfold fetch at h
  split at h
  · next hdecode =>
    cases h
    exact (decodedBytesEncodeBack _ _ _ _ hdecode).2.1
  · cases h

theorem searchToken_cases (s : State) (q : Search) :
    (∃ b, searchToken s q = .lit b) ∨ ∃ off len, searchToken s q = .matchTok off len := by
  rw [searchToken]
  split
  · exact .inl ⟨_, rfl⟩
  · split
    · exact .inl ⟨_, rfl⟩
    · exact .inr ⟨_, _, rfl⟩

/-- The staged bytes of two instances agree. -/
structure TokAgree (s1 s2 : State) : Prop where
  wf1 : s1.tokbuf.wf
  wf2 : s2.tokbuf.wf
  read : ∀ a, a < s1.tblen → s1.tokbuf.read a = s2.tokbuf.read a

/-- Two instances left alone that run on the same input, and have not been told apart by it. -/
structure Agree (s1 s2 : State) : Prop where
  alone : s1.alone = true
  visible : visible s1 = visible s2
  inp : ∀ a, a < s1.inCount → s1.inp.read a = s2.inp.read a
  tok : TokAgree s1 s2
  payload : s1.decoding → s1.stage ≠ .header → s1.pp = s2.pp ∧ s1.ulen = s2.ulen
  bit : s1.decoding → s1.stage = .token → s1.t = s2.t

section
variable {s1 s2 t1 : State} (h : Agree s1 s2)
include h

theorem Agree.win : s1.win = s2.win := (congrArg State.win h.visible :)
theorem Agree.inLen : s1.inLen = s2.inLen := (congrArg State.inLen h.visible :)
theorem Agree.inCount : s1.inCount = s2.inCount := (congrArg State.inCount h.visible :)
theorem Agree.di : s1.di = s2.di := (congrArg State.di h.visible :)
theorem Agree.flags : s1.flags = s2.flags := (congrArg State.flags h.visible :)
theorem Agree.tcnt : s1.tcnt = s2.tcnt := (congrArg State.tcnt h.visible :)
theorem Agree.tblen : s1.tblen = s2.tblen := (congrArg State.tblen h.visible :)
theorem Agree.search : s1.search = s2.search := (congrArg State.search h.visible :)
theorem Agree.olen : s1.olen = s2.olen := (congrArg State.olen h.visible :)
theorem Agree.phase : s1.phase = s2.phase := (congrArg State.phase h.visible :)
theorem Agree.op : s1.op = s2.op := (congrArg State.op h.visible :)
theorem Agree.ulenReg : s1.ulenReg = s2.ulenReg := (congrArg State.ulenReg h.visible :)
theorem Agree.code : s1.code = s2.code := (congrArg State.code h.visible :)
theorem Agree.stage : s1.stage = s2.stage := (congrArg State.stage h.visible :)
theorem Agree.chunkOver : chunkOver s1 = chunkOver s2 := (congrArg Machine.chunkOver h.visible :)
theorem Agree.remaining : remaining s1 = remaining s2 := (congrArg Machine.remaining h.visible :)
theorem Agree.maxLen : maxLen s1 = maxLen s2 := (congrArg Machine.maxLen h.visible :)
theorem Agree.slotAt (d : Nat) : slotAt s1 d = slotAt s2 d := (congrArg (Machine.slotAt · d) h.visible :)
theorem Agree.scanOrder : scanOrder s1 = scanOrder s2 := (congrArg Machine.scanOrder h.visible :)

theorem Agree.alone2 : s2.alone = true := (congrArg State.alone h.visible :).symm.trans h.alone

theorem Agree.encoding (henc : s1.encoding) : s2.encoding := ⟨h.phase.symm.trans henc.1, h.op.symm.trans henc.2⟩

theorem Agree.decoding (hdec : s1.decoding) : s2.decoding := ⟨h.phase.symm.trans hdec.1, h.op.symm.trans hdec.2⟩

theorem Agree.slice {a k : Nat} (hk : a + k ≤ s1.inCount) : s1.inp.slice a k = s2.inp.slice a k :=
  Memory.slice_eq_iff.mpr fun j hj => h.inp (a + j) (by omega)

/-- An operation ends in both (R13). -/
theorem Agree.finish (c : Code) : Agree (finish c s1) (finish c s2) :=
  { h with
    visible := (congrArg (Machine.finish c) h.visible :)
    tok := { h.tok with }
    payload := fun hdec => Phase.noConfusion hdec.1
    bit := fun hdec => Phase.noConfusion hdec.1 }

/-! ## COMPRESS -/

/-- Where COMPRESS runs on, the registers of a DECOMPRESS are of no account. -/
theorem Agree.of_compress {t2 : State} (hop : t1.op = .compress) (halone : t1.alone = s1.alone)
    (hvis : Machine.visible t1 = Machine.visible t2) (hinp1 : t1.inp = s1.inp) (hinp2 : t2.inp = s2.inp)
    (hlen : t1.inLen = s1.inLen) (htok : TokAgree t1 t2) : Agree t1 t2 where
  alone := halone.trans h.alone
  visible := hvis
  inp a ha := by
    rw [State.inCount, hlen] at ha
    rw [hinp1, hinp2]
    exact h.inp a ha
  tok := htok
  payload hdec := Op.noConfusion (hop.symm.trans hdec.2)
  bit hdec := Op.noConfusion (hop.symm.trans hdec.2)

theorem Agree.lookAhead {k : Nat} (hk : s1.di + k < s1.inCount) : lookAhead s1 k = lookAhead s2 k := by
  rw [Machine.lookAhead, Machine.lookAhead, State.inAt, State.inAt, ← h.di]
  exact h.inp _ hk

theorem Agree.searchBegin (hmore : s1.di < s1.inCount) : searchBegin s1 = searchBegin s2 := by
  have hcands : initialCands s1 = initialCands s2 := by
    simp only [initialCands, winRead, h.scanOrder, h.win, h.lookAhead (k := 0) hmore]
  rw [Machine.searchBegin, Machine.searchBegin, h.win, hcands]

theorem Agree.hypWrite {q : Search} (hlen : q.len < Machine.maxLen s1) : hypWrite s1 q = hypWrite s2 q := by
  rw [Machine.hypWrite, Machine.hypWrite]
  split
  · rfl
  · next k hk =>
    have hinput := (le_maxLen_iff.mp (Nat.le_of_lt hlen)).2
    rw [h.slotAt, h.lookAhead (by omega)]

theorem Agree.searchExtend (q : Search) : searchExtend s1 q = searchExtend s2 q := by
  rw [Machine.searchExtend, Machine.searchExtend, ← h.maxLen]
  split
  · next hlen =>
    have hinput := (le_maxLen_iff.mp (Nat.succ_le_of_lt hlen)).2
    have hnarrow : narrow s1 q = narrow s2 q := by
      simp only [narrow, h.hypWrite hlen, h.lookAhead (k := q.len) (by omega)]
    rw [hnarrow, h.hypWrite hlen]
  · rfl

theorem Agree.searchToken (hmore : s1.di < s1.inCount) (q : Search) : searchToken s1 q = searchToken s2 q := by
  rw [Machine.searchToken, Machine.searchToken, h.lookAhead (k := 0) hmore]

theorem Agree.atSearch (henc : s1.encoding) (q : Option Search) :
    Agree { s1 with search := q } { s2 with search := q } :=
  h.of_compress henc.2 rfl (congrArg (fun s : State => { s with search := q }) h.visible :) rfl rfl rfl { h.tok with }

/-- The same bytes are staged in both (R142). -/
theorem Agree.stageToken (bit : Bool) (bs : List Byte) :
    TokAgree (stageToken bit bs s1) (stageToken bit bs s2) where
  wf1 := Memory.writeSeq_wf h.tok.wf1 _ _
  wf2 := Memory.writeSeq_wf h.tok.wf2 _ _
  read a ha := by
    rw [stageToken_tblen] at ha
    rw [stageToken_tokbuf, stageToken_tokbuf, Memory.read_writeSeq h.tok.wf1, Memory.read_writeSeq h.tok.wf2, ← h.tblen]
    split
    · rfl
    · exact h.tok.read a (by omega)

theorem Agree.exec_lit (henc : s1.encoding) {b : Byte} (ht : exec (.lit b) s1 = .next t1) :
    ∃ t2, exec (.lit b) s2 = .next t2 ∧ Agree t1 t2 := by
  obtain ⟨htcnt, htblen, hinput, rfl⟩ := litEncode_cases ((running_compress henc.1 henc.2).symm.trans ht)
  refine ⟨_, exec_lit_room (h.encoding henc) (h.tcnt ▸ htcnt) (h.tblen ▸ htblen) (h.inCount ▸ h.di ▸ hinput), ?_⟩
  have hvis : Machine.visible (commitLit b (Machine.stageToken true [b] s1)) =
      Machine.visible (commitLit b (Machine.stageToken true [b] s2)) :=
    (congrArg (fun s => Machine.visible (commitLit b (Machine.stageToken true [b] s))) h.visible :)
  exact h.of_compress henc.2 rfl hvis rfl rfl rfl { h.stageToken true [b] with }

theorem Agree.exec_matchTok (henc : s1.encoding) {off len : Nat} (ht : exec (.matchTok off len) s1 = .next t1) :
    ∃ t2, exec (.matchTok off len) s2 = .next t2 ∧ Agree t1 t2 := by
  rcases matchEncode_cases ((running_compress henc.1 henc.2).symm.trans ht) with ⟨hwf, htcnt, htblen, hinput, rfl⟩ |
    ⟨hwf, rfl⟩
  · refine ⟨_, exec_matchTok_room (h.encoding henc) hwf (h.tcnt ▸ htcnt) (h.tblen ▸ htblen)
      (h.inCount ▸ h.di ▸ hinput), ?_⟩
    have hstaged : Machine.visible (Machine.stageToken false (matchBytes off len) s1) =
        Machine.visible (Machine.stageToken false (matchBytes off len) s2) :=
      (congrArg (fun s => Machine.visible (Machine.stageToken false (matchBytes off len) s)) h.visible :)
    have hvis : Machine.visible (commitMatch len (Machine.stageToken false (matchBytes off len) s1)) =
        Machine.visible (commitMatch len (Machine.stageToken false (matchBytes off len) s2)) := by
      rw [visible_commitMatch, visible_commitMatch, hstaged, stageToken_inp, stageToken_inp, stageToken_di,
        stageToken_di, ← h.di, h.slice hinput]
    have htok := h.stageToken false (matchBytes off len)
    refine h.of_compress ?_ ?_ hvis ?_ ?_ ?_ ⟨?_, ?_, ?_⟩
    · rw [commitMatch_frame]; exact henc.2
    · rw [commitMatch_frame]; rfl
    · rw [commitMatch_frame]; rfl
    · exact stageAndCommit_inp (.matchTok off len) s2
    · rw [commitMatch_frame]; rfl
    · rw [commitMatch_tokbuf]; exact htok.wf1
    · exact (commitMatch_tokbuf len (Machine.stageToken false (matchBytes off len) s2)).symm ▸ htok.wf2
    · intro a ha
      rw [commitMatch_tblen] at ha
      rw [commitMatch_tokbuf]
      exact (htok.read a ha).trans
        (congrArg (Memory.read · a) (commitMatch_tokbuf len (Machine.stageToken false (matchBytes off len) s2)).symm)
  · exact ⟨_, exec_matchTok_assert (h.encoding henc) hwf, h.finish .errAssert⟩

/-- The same bytes are appended in both, and a chunk may begin. -/
theorem Agree.appended (henc : s1.encoding) (bs : List Byte) {n m : Word32} (hulen : n = m) :
    Agree { emitSeq bs s1 with ulenReg := n, stage := .chunk } { emitSeq bs s2 with ulenReg := m, stage := .chunk } := by
  subst hulen
  rw [emitSeq_eq, emitSeq_eq]
  exact h.of_compress henc.2 rfl
    (congrArg (fun s : State => Machine.visible { s with
      out := s.out.writeSeq s.outLen bs, outLen := s.outLen + bs.length, ulenReg := n, stage := .chunk }) h.visible :)
    rfl rfl rfl { h.tok with }

theorem Agree.chunkPut (henc : s1.encoding) (f : Byte) : Agree (chunkPut f s1) (chunkPut f s2) := by
  have hstaged : s1.tokbuf.slice 0 s1.tblen = s2.tokbuf.slice 0 s2.tblen := by
    rw [← h.tblen]
    exact Memory.slice_eq_iff.mpr fun j hj => h.tok.read (0 + j) (by omega)
  rw [Machine.chunkPut, Machine.chunkPut, ← hstaged]
  exact h.appended henc _ (by rw [emitSeq_eq, emitSeq_eq]; exact h.ulenReg)

theorem Agree.headerPut (henc : s1.encoding) (n : Word32) : Agree (headerPut n s1) (headerPut n s2) :=
  h.appended henc (headerBytes n) rfl

/-- A step of COMPRESS (R140, R142, R143). -/
theorem Agree.chunkStep (henc : s1.encoding) (ht : chunkStep Params.default exec s1 = .next t1) :
    ∃ t2, Machine.chunkStep Params.default exec s2 = .next t2 ∧ Agree t1 t2 := by
  cases hover : Machine.chunkOver s1 with
  | true =>
    have hflush : chunkFlush s1.flags s1 = .next t1 :=
      (running_compress henc.1 henc.2).symm.trans ((chunkStep_flush (p := Params.default) hover).symm.trans ht)
    obtain ⟨htblen, rfl⟩ := chunkFlush_cases hflush
    have hstep : Machine.chunkStep Params.default exec s2 = .next (Machine.chunkPut s2.flags s2) :=
      (chunkStep_flush (h.chunkOver ▸ hover)).trans
        (execWith_flag_encoding (p := Params.default) (h.encoding henc) _ (h.tblen ▸ htblen))
    exact ⟨_, hstep, h.flags ▸ h.chunkPut henc s1.flags⟩
  | false =>
    have hover2 : Machine.chunkOver s2 = false := h.chunkOver ▸ hover
    have hmore := (chunkOver_eq_false_iff.mp hover).1
    cases hsearch : s1.search with
    | none =>
      have hsearch2 : s2.search = none := h.search ▸ hsearch
      rcases Nat.lt_or_ge 2 (Machine.remaining s1) with hlong | htail
      · cases (chunkStep_begin hover hsearch hlong).symm.trans ht
        refine ⟨_, chunkStep_begin hover2 hsearch2 (h.remaining ▸ hlong), ?_⟩
        rw [← h.searchBegin hmore]
        exact h.atSearch henc _
      · obtain ⟨t2, ht2, hagree⟩ := h.exec_lit henc ((chunkStep_tail hover hsearch htail).symm.trans ht)
        rw [h.lookAhead (k := 0) hmore] at ht2
        exact ⟨t2, (chunkStep_tail hover2 hsearch2 (h.remaining ▸ htail)).trans ht2, hagree⟩
    | some q =>
      have hsearch2 : s2.search = some q := h.search ▸ hsearch
      cases hext : Machine.searchExtend s1 q with
      | some q' =>
        cases (chunkStep_extend hover hsearch hext).symm.trans ht
        exact ⟨_, chunkStep_extend hover2 hsearch2 (h.searchExtend q ▸ hext), h.atSearch henc _⟩
      | none =>
        have hdrop := h.atSearch henc none
        have hfound := (chunkStep_found (p := Params.default) (ex := exec) hover hsearch hext).symm.trans ht
        rw [chunkStep_found hover2 hsearch2 (h.searchExtend q ▸ hext), ← h.searchToken hmore]
        rcases searchToken_cases s1 q with ⟨b, hlit⟩ | ⟨off, len, hmatch⟩
        · rw [hlit] at hfound ⊢
          exact hdrop.exec_lit henc hfound
        · rw [hmatch] at hfound ⊢
          exact hdrop.exec_matchTok henc hfound

theorem Agree.compressStep (henc : s1.encoding) (ht : compressStep Params.default exec s1 = .next t1) :
    ∃ t2, Machine.compressStep Params.default exec s2 = .next t2 ∧ Agree t1 t2 := by
  have henc2 := h.encoding henc
  cases hstage : s1.stage with
  | header =>
    have hstage2 : s2.stage = .header := h.stage ▸ hstage
    cases ((compressStep_header hstage).trans (execWith_header_encoding (p := Params.default) henc _)).symm.trans ht
    refine ⟨_, (compressStep_header hstage2).trans (execWith_header_encoding (p := Params.default) henc2 _), ?_⟩
    rw [← h.inLen]
    exact h.headerPut henc _
  | chunk =>
    have hstage2 : s2.stage = .chunk := h.stage ▸ hstage
    rcases Nat.lt_or_ge s1.di s1.inCount with hmore | hend
    · cases (compressStep_open hstage hmore).symm.trans ht
      exact ⟨_, compressStep_open hstage2 (h.di ▸ h.inCount ▸ hmore), h.of_compress henc.2 rfl
        (congrArg chunkBegin h.visible :) rfl rfl rfl ⟨h.tok.wf1, h.tok.wf2, fun a ha => absurd ha (Nat.not_lt_zero a)⟩⟩
    · cases (compressStep_finish hstage hend).symm.trans ht
      exact ⟨_, compressStep_finish hstage2 (h.di ▸ h.inCount ▸ hend), h.finish .ok⟩
  | token =>
    have hstage2 : s2.stage = .token := h.stage ▸ hstage
    rw [compressStep_token hstage2]
    exact h.chunkStep henc ((compressStep_token hstage).symm.trans ht)

/-! ## DECOMPRESS -/

theorem Agree.fetch {pos : Position} (hpp : pos ≠ .header → s1.pp = s2.pp) :
    fetch Params.default pos s1 = fetch Params.default pos s2 := by
  have hbytes (a k : Nat) : inBytes s1 a k = inBytes s2 a k := by
    rw [inBytes, inBytes, ← h.inCount]
    rcases Nat.lt_or_ge a s1.inCount with hin | hout
    · exact h.slice (by omega)
    · rw [Nat.sub_eq_zero_of_le hout, Nat.min_zero]
      rfl
  have hfetch : fetchBytes pos s1 = fetchBytes pos s2 := by
    by_cases hheader : pos = .header
    · subst hheader
      exact hbytes 0 _
    · rw [fetchBytes_payload hheader, fetchBytes_payload hheader, ← hpp hheader]
      exact hbytes s1.pp _
  rw [Machine.fetch, Machine.fetch, hfetch]

theorem Agree.fieldTaken (n : Word32) : Agree (fieldTaken n s1) (fieldTaken n s2) :=
  { h with
    visible := (congrArg (fun s => Machine.visible (Machine.fieldTaken n s)) h.visible :)
    tok := { h.tok with }
    payload := fun _ _ => ⟨rfl, rfl⟩
    bit := fun _ htoken => Stage.noConfusion htoken }

theorem Agree.flagTaken (hpay : s1.pp = s2.pp ∧ s1.ulen = s2.ulen) (f : Byte) :
    Agree (flagTaken f s1) (flagTaken f s2) :=
  { h with
    visible := (congrArg (fun s => Machine.visible (Machine.flagTaken f s)) h.visible :)
    tok := { h.tok with }
    payload := fun _ _ => ⟨congrArg (· + 1) hpay.1, hpay.2⟩
    bit := fun _ _ => rfl }

theorem Agree.litTaken (hpay : s1.pp = s2.pp ∧ s1.ulen = s2.ulen) (hbit : s1.t = s2.t) (b : Byte) :
    Agree (litTaken b s1) (litTaken b s2) :=
  { h with
    visible := visible_nextBit (congrArg (Machine.visible ∘ produced b) h.visible :) hbit
    tok := { h.tok with }
    payload := fun _ _ => ⟨congrArg (· + 1) hpay.1, hpay.2⟩
    bit := fun _ _ => congrArg (· + 1) hbit }

theorem Agree.matchTaken (hpay : s1.pp = s2.pp ∧ s1.ulen = s2.ulen) (hbit : s1.t = s2.t) (off len : Nat) :
    Agree (matchTaken Params.default off len s1) (matchTaken Params.default off len s2) := by
  have hbegin : Machine.visible (matchBegin off len s1) = Machine.visible (matchBegin off len s2) := h.visible
  have hcopy := visible_copyLoop hbegin rfl rfl len
  have hf1 := matchTaken_frame Params.default off len s1
  have hf2 := matchTaken_frame Params.default off len s2
  obtain ⟨hpp1, ht1⟩ := matchTaken_place Params.default off len s1
  obtain ⟨hpp2, ht2⟩ := matchTaken_place Params.default off len s2
  exact {
    alone := by rw [State.alone, hf1.cmd, hf1.host]; exact h.alone
    visible := visible_nextBit hcopy (by rw [copyLoop_t, copyLoop_t]; exact hbit)
    inp := fun a ha => by
      rw [State.inCount, hf1.inLen] at ha
      rw [hf1.inp, hf2.inp]
      exact h.inp a ha
    tok := by
      refine ⟨hf1.tokbuf ▸ h.tok.wf1, hf2.tokbuf ▸ h.tok.wf2, fun a ha => ?_⟩
      rw [hf1.tblen] at ha
      rw [hf1.tokbuf, hf2.tokbuf]
      exact h.tok.read a ha
    payload := fun _ _ => ⟨by rw [hpp1, hpp2, hpay.1], by rw [hf1.ulen, hf2.ulen, hpay.2]⟩
    bit := fun _ _ => by rw [ht1, ht2, hbit] }

/-- A fetched object is executed alike in both (R171 to R177). -/
theorem Agree.exec_decoding (hdec : s1.decoding) {i : Instr}
    (hpay : i.position ≠ .header → s1.pp = s2.pp ∧ s1.ulen = s2.ulen)
    (hbit : i.position = .literal ∨ i.position = .matchTok → s1.t = s2.t) (hpos : i.position ≠ .command)
    (ht : exec i s1 = .next t1) : ∃ t2, exec i s2 = .next t2 ∧ Agree t1 t2 := by
  have hdec2 := h.decoding hdec
  rw [exec_eq] at ht ⊢
  cases i with
  | header n =>
    rcases Nat.lt_or_ge s1.inCount 16 with hshort | hlong
    · cases (execWith_header_short (p := Params.default) hdec hshort).symm.trans ht
      exact ⟨_, execWith_header_short hdec2 (h.inCount ▸ hshort), h.finish _⟩
    · cases (execWith_header_decoding (p := Params.default) hdec hlong).symm.trans ht
      exact ⟨_, execWith_header_decoding hdec2 (h.inCount ▸ hlong), h.fieldTaken n⟩
  | flag f =>
    have hpay := hpay Position.noConfusion
    rcases Nat.lt_or_ge s1.pp s1.inCount with hmore | hend
    · cases (execWith_flag_decoding (p := Params.default) hdec hmore).symm.trans ht
      exact ⟨_, execWith_flag_decoding hdec2 (h.inCount ▸ hpay.1 ▸ hmore), h.flagTaken hpay f⟩
    · cases (execWith_flag_exhausted (p := Params.default) hdec hend).symm.trans ht
      exact ⟨_, execWith_flag_exhausted hdec2 (h.inCount ▸ hpay.1 ▸ hend), h.finish _⟩
  | lit b =>
    have hpay := hpay Position.noConfusion
    rcases Nat.lt_or_ge s1.pp s1.inCount with hmore | hend
    · cases (execWith_lit_decoding (p := Params.default) hdec hmore).symm.trans ht
      exact ⟨_, execWith_lit_decoding hdec2 (h.inCount ▸ hpay.1 ▸ hmore), h.litTaken hpay (hbit (.inl rfl)) b⟩
    · cases (execWith_lit_exhausted (p := Params.default) hdec hend).symm.trans ht
      exact ⟨_, execWith_lit_exhausted hdec2 (h.inCount ▸ hpay.1 ▸ hend), h.finish _⟩
  | matchTok off len =>
    have hpay := hpay Position.noConfusion
    rcases Nat.lt_or_ge s1.inCount (s1.pp + 2) with hend | hmore
    · cases (execWith_matchTok_truncated (p := Params.default) hdec hend).symm.trans ht
      exact ⟨_, execWith_matchTok_truncated hdec2 (h.inCount ▸ hpay.1 ▸ hend), h.finish _⟩
    · cases (execWith_matchTok_decoding (p := Params.default) hdec hmore).symm.trans ht
      exact ⟨_, execWith_matchTok_decoding hdec2 (h.inCount ▸ hpay.1 ▸ hmore), h.matchTaken hpay (hbit (.inr rfl)) off len⟩
  | cmdClear => exact absurd rfl hpos
  | cmdCompress => exact absurd rfl hpos
  | cmdDecompress => exact absurd rfl hpos

/-- What is fetched at a position of the container runs alike in both, or ends the operation alike. -/
theorem Agree.fetchRun (hdec : s1.decoding) {pos : Position} (hpos : pos ≠ .command)
    (hpay : pos ≠ .header → s1.pp = s2.pp ∧ s1.ulen = s2.ulen) (hbit : pos = .literal ∨ pos = .matchTok → s1.t = s2.t)
    (ht : fetchRun Params.default exec pos s1 = .next t1) :
    ∃ t2, Machine.fetchRun Params.default exec pos s2 = .next t2 ∧ Agree t1 t2 := by
  have hfetch := h.fetch fun hne => (hpay hne).1
  cases hf : Machine.fetch Params.default pos s1 with
  | error e =>
    cases (fetchRun_error hf).symm.trans ht
    refine ⟨_, fetchRun_error (hfetch ▸ hf), ?_⟩
    rw [stopOn_default, stopOn_default]
    split
    · exact h
    · exact h.finish _
  | ok i =>
    have hi := fetch_position hf
    rw [fetchRun_ok (hfetch ▸ hf)]
    exact h.exec_decoding hdec (hi ▸ hpay) (hi ▸ hbit) (hi ▸ hpos) ((fetchRun_ok hf).symm.trans ht)

/-- A step of DECOMPRESS (R170). -/
theorem Agree.decompressStep (hdec : s1.decoding) (ht : decompressStep Params.default exec s1 = .next t1) :
    ∃ t2, Machine.decompressStep Params.default exec s2 = .next t2 ∧ Agree t1 t2 := by
  by_cases hheader : s1.stage = .header
  · rw [decompressStep_header (h.stage ▸ hheader)]
    exact h.fetchRun hdec Position.noConfusion (fun hne => absurd rfl hne)
      (fun hpos => by rcases hpos with hpos | hpos <;> cases hpos) ((decompressStep_header hheader).symm.trans ht)
  · have hheader2 : s2.stage ≠ .header := h.stage ▸ hheader
    have hpay := h.payload hdec hheader
    rcases Nat.lt_or_ge s1.olen s1.ulen.toNat with hmore | hdone
    · have hmore2 : s2.olen < s2.ulen.toNat := by rw [← h.olen, ← hpay.2]; exact hmore
      cases hstage : s1.stage with
      | header => exact absurd hstage hheader
      | chunk =>
        rw [decompressStep_flag (h.stage ▸ hstage) hmore2]
        exact h.fetchRun hdec Position.noConfusion (fun _ => hpay)
          (fun hpos => by rcases hpos with hpos | hpos <;> cases hpos) ((decompressStep_flag hstage hmore).symm.trans ht)
      | token =>
        have hbit := h.bit hdec hstage
        rw [decompressStep_token (h.stage ▸ hstage) hmore2, ← h.flags, ← hbit]
        refine h.fetchRun hdec ?_ (fun _ => hpay) (fun _ => hbit) ((decompressStep_token hstage hmore).symm.trans ht)
        rw [tokenPosition]
        split <;> exact Position.noConfusion
    · cases (decompressStep_complete hheader hdone).symm.trans ht
      refine ⟨_, decompressStep_complete hheader2 (by rw [← h.olen, ← hpay.2]; exact hdone), ?_⟩
      have hsubst : Agree (subst s1) (subst s2) :=
        { h with
          visible := (congrArg (Machine.visible ∘ subst) h.visible :)
          tok := { h.tok with } }
      exact hsubst.finish .ok

/-! ## The whole run -/

theorem Agree.step (ht : step s1 = .next t1) : ∃ t2, Machine.step s2 = .next t2 ∧ Agree t1 t2 := by
  have hstep1 := (stepBy_alone (p := Params.default) (ex := exec) h.alone).symm.trans ht
  have hstep2 : Machine.step s2 = sequencerStep Params.default exec s2 := stepBy_alone h.alone2
  rw [hstep2]
  by_cases hbusy : s1.phase = .busy
  · have hbusy2 : s2.phase = .busy := h.phase ▸ hbusy
    cases hop : s1.op with
    | compress =>
      rw [sequencer_compress hbusy2 (h.op ▸ hop)]
      exact h.compressStep ⟨hbusy, hop⟩ ((sequencer_compress hbusy hop).symm.trans hstep1)
    | decompress =>
      rw [sequencer_decompress hbusy2 (h.op ▸ hop)]
      exact h.decompressStep ⟨hbusy, hop⟩ ((sequencer_decompress hbusy hop).symm.trans hstep1)
  · cases (sequencer_idle hbusy).symm.trans hstep1
    exact ⟨s2, sequencer_idle (h.phase ▸ hbusy), h⟩

theorem Agree.reaches {k : Nat} (ht : Reaches k s1 t1) : ∃ t2, Reaches k s2 t2 ∧ Agree t1 t2 := by
  induction k generalizing s1 s2 with
  | zero =>
    cases ht
    exact ⟨s2, rfl, h⟩
  | succ k ih =>
    obtain ⟨u1, hstep, hrest⟩ := reaches_succ_iff.mp ht
    obtain ⟨u2, hstep2, hagree⟩ := h.step hstep
    obtain ⟨t2, hrest2, hend⟩ := ih hagree hrest
    exact ⟨t2, reaches_succ_iff.mpr ⟨u2, hstep2, hrest2⟩, hend⟩

end

/-- A START leaves nothing of what a block held before but the hidden registers (R231). -/
theorem Agree.startOp {s1 s2 : State} (o : Op) (h1 : s1.alone = true) (h2 : s2.alone = true) (hwf1 : s1.tokbuf.wf)
    (hwf2 : s2.tokbuf.wf) (hlen : s1.inLen = s2.inLen) (hinp : ∀ a, a < s1.inCount → s1.inAt a = s2.inAt a) :
    Agree (startOp o s1) (startOp o s2) := by
  obtain ⟨hcmd1, hhost1⟩ := alone_iff.mp h1
  obtain ⟨hcmd2, hhost2⟩ := alone_iff.mp h2
  refine ⟨h1, ?_, hinp, ⟨hwf1, hwf2, fun a ha => absurd ha (Nat.not_lt_zero a)⟩, fun _ hne => absurd rfl hne,
    fun _ htoken => Stage.noConfusion htoken⟩
  simp only [Machine.visible, Machine.startOp, winInit, hcmd1, hcmd2, hhost1, hhost2, hlen]

/-- Settles O59: it holds. Every step keeps `Agree`, and the registers it speaks of are among the visible ones. -/
theorem resultDependsOnInputAlone : Obligations.ResultDependsOnInputAlone := by
  intro o s1 s2 t1 k h1 h2 hwf1 hwf2 hlen hinp ht
  obtain ⟨t2, ht2, hagree⟩ := (Agree.startOp o h1 h2 hwf1 hwf2 hlen hinp).reaches ht
  have hout : t1.out = t2.out := (congrArg State.out hagree.visible :)
  exact ⟨t2, ht2, hagree.phase, hagree.code, (congrArg State.outLen hagree.visible :), hagree.ulenReg,
    fun a _ => congrArg (Memory.read · a) hout⟩

end Sys2Proof.Machine
end

section
/-! PROOF. Runs of WinWrite calls of any length (R114), and the copy of a Match as one such run (R175, R176). The bytes a copy
appends and writes are named once (`copied`); what each of them is follows from the window's law for runs. -/

namespace Sys2Proof.Machine

/-! ## A run of WinWrite calls of any length (R114) -/

theorem winRead_slotAt (s t : State) (d : Nat) : winRead ((s.cur.toNat + d : Nat) : Int) t = t.win.read (slotAt s d) :=
  winRead_nat _ t

/-- The last 1024 bytes of a run stay, each at its distance from the cursor. -/
theorem putWinSeq_read_written {s : State} (hwf : s.win.wf) {bs : List Byte} {j : Nat} (hj : j < bs.length)
    (hlast : bs.length ≤ j + 1024) : (putWinSeq bs s).win.read (slotAt s j) = bs.getD j 0 := by
  induction bs generalizing s j with
  | nil => exact absurd hj (Nat.not_lt_zero j)
  | cons b bs ih =>
    cases j with
    | zero => rw [putWinSeq_read hwf (by omega) (by decide), if_pos hj]
    | succ j =>
      rw [List.length_cons] at hj hlast
      rw [← slotAt_putWin b, List.getD_cons_succ]
      exact ih (s := putWin b s) (Memory.write_wf hwf _ _) (by omega) (by omega)

theorem putWinSeq_cur_toNat (bs : List Byte) (s : State) :
    (putWinSeq bs s).cur.toNat = (s.cur.toNat + bs.length) % 1024 := by
  rw [putWinSeq_cur, BitVec.toNat_add, BitVec.toNat_ofNat, Nat.add_mod_mod]

/-- Settles O15: it holds, by the read law of runs of at most 1024 bytes and by induction on the run for longer ones. -/
theorem writeRunFillsSlotsInOrder : Obligations.WriteRunFillsSlotsInOrder := by
  intro s bs hwf
  refine ⟨putWinSeq_cur_toNat bs s, fun j hj hlast => ?written, fun j hj hlt => ?kept⟩
  case written => rw [winRead_slotAt, putWinSeq_read_written hwf hj hlast]
  case kept => rw [winRead_slotAt, winRead_slotAt, putWinSeq_read hwf (by omega) hlt, if_neg (by omega)]

/-! ## The bytes of a Match copy (R175) -/

/-- The bytes the next `n` steps of a copy read, append and write. -/
def copied : Nat → State → List Byte
  | 0, _ => []
  | n + 1, s => winRead ((s.off.toNat : Int) + (s.i : Int)) s :: copied n (copyStep s)

@[simp] theorem length_copied (n : Nat) (s : State) : (copied n s).length = n := by
  induction n generalizing s with
  | zero => rfl
  | succ n ih => rw [copied, List.length_cons, ih]

/-- A run writes the same bytes whatever the state holds besides the window and the cursor. -/
theorem putWinSeq_win_congr {s t : State} (hwin : s.win = t.win) (hcur : s.cur = t.cur) (bs : List Byte) :
    (putWinSeq bs s).win = (putWinSeq bs t).win := by
  induction bs generalizing s t with
  | nil => exact hwin
  | cons b bs ih =>
    refine ih ?_ ?_
    · rw [putWin_win, putWin_win, hwin, hcur]
    · rw [putWin_cur, putWin_cur, hcur]

theorem copyStep_putWinSeq (s : State) (bs : List Byte) :
    (putWinSeq bs (copyStep s)).win =
      (putWinSeq (winRead ((s.off.toNat : Int) + (s.i : Int)) s :: bs) s).win :=
  putWinSeq_win_congr (s := copyStep s) (t := putWin _ s) rfl rfl bs

/-- Without CLIP_AT_ULEN a copy appends its bytes to OUT and writes them as one run (R175). -/
theorem copyLoop_default_eq (n : Nat) (s : State) :
    copyLoop Params.default n s = { s with
      win := (putWinSeq (copied n s) s).win, cur := s.cur + BitVec.ofNat 10 n,
      out := s.out.writeSeq s.outLen (copied n s), outLen := s.outLen + n, olen := s.olen + n, i := s.i + n } := by
  induction n generalizing s with
  | zero => rw [show s.cur + BitVec.ofNat 10 0 = s.cur from BitVec.add_zero s.cur]; rfl
  | succ n ih =>
    have hcur : s.cur + BitVec.ofNat 10 (n + 1) = s.cur + 1 + BitVec.ofNat 10 n := by
      rw [BitVec.add_assoc, Nat.add_comm, BitVec.ofNat_add]; rfl
    have hcount (a : Nat) : a + (n + 1) = a + 1 + n := by omega
    rw [copyLoop_default_succ, ih, copyStep_putWinSeq, hcur, hcount, hcount, hcount]
    rfl

/-- Byte `k` of a copy is what its source slot holds once the bytes before it have been written (R175). -/
theorem copied_getD {n k : Nat} (hk : k < n) (s : State) :
    (copied n s).getD k 0 =
      winRead ((s.off.toNat + s.i + k : Nat) : Int) (putWinSeq ((copied n s).take k) s) := by
  induction n generalizing s k with
  | zero => exact absurd hk (Nat.not_lt_zero k)
  | succ n ih =>
    cases k with
    | zero => rw [copied, List.getD_cons_zero, List.take_zero, Nat.add_zero, Int.natCast_add]; rfl
    | succ k =>
      have hindex : s.off.toNat + (s.i + 1) + k = s.off.toNat + s.i + (k + 1) := by omega
      rw [copied, List.getD_cons_succ, List.take_succ_cons, ih (Nat.lt_of_succ_lt_succ hk), copyStep_off, copyStep_i,
        hindex, winRead_nat, winRead_nat, copyStep_putWinSeq]

/-! ## MATCH while DECOMPRESS runs (R175) -/

/-- The bytes a Match appends to OUT and writes into the window. -/
def matchCopied (off len : Nat) (s : State) : List Byte := copied len (matchBegin off len s)

@[simp] theorem length_matchCopied (off len : Nat) (s : State) : (matchCopied off len s).length = len := length_copied ..

theorem matchTaken_default_eq (off len : Nat) (s : State) :
    matchTaken Params.default off len s = nextBit { s with
      pp := s.pp + 2, off := BitVec.ofNat 10 off, mlen := len, i := 0 + len,
      win := (putWinSeq (matchCopied off len s) s).win, cur := s.cur + BitVec.ofNat 10 len,
      out := s.out.writeSeq s.outLen (matchCopied off len s), outLen := s.outLen + len, olen := s.olen + len } := by
  have hwin : (putWinSeq (matchCopied off len s) (matchBegin off len s)).win = (putWinSeq (matchCopied off len s) s).win :=
    putWinSeq_win_congr (s := matchBegin off len s) (t := s) rfl rfl _
  rw [matchTaken, copyLoop_default_eq, ← hwin]
  rfl

section
variable {s : State} {off len : Nat}

theorem matchCopied_getD (hoff : off ≤ 1023) {k : Nat} (hk : k < len) :
    (matchCopied off len s).getD k 0 = winRead ((off + k : Nat) : Int) (putWinSeq ((matchCopied off len s).take k) s) := by
  have hslot : (matchBegin off len s).off.toNat = off := Nat.mod_eq_of_lt (by omega)
  have hwin : (putWinSeq ((matchCopied off len s).take k) (matchBegin off len s)).win =
      (putWinSeq ((matchCopied off len s).take k) s).win :=
    putWinSeq_win_congr (s := matchBegin off len s) (t := s) rfl rfl _
  rw [matchCopied, copied_getD hk, hslot, matchBegin_i, Nat.add_zero, winRead_nat, winRead_nat, ← matchCopied, hwin]

theorem matchTaken_outLen : (matchTaken Params.default off len s).outLen = s.outLen + len := by
  rw [matchTaken_default_eq]; rfl

theorem matchTaken_read_out (hout : s.out.wf) (a : Nat) :
    (matchTaken Params.default off len s).out.read a =
      if s.outLen ≤ a ∧ a < s.outLen + len then (matchCopied off len s).getD (a - s.outLen) 0 else s.out.read a := by
  have htaken : (matchTaken Params.default off len s).out = s.out.writeSeq s.outLen (matchCopied off len s) := by
    rw [matchTaken_default_eq]; rfl
  rw [htaken, Memory.read_writeSeq hout, length_matchCopied]

theorem matchTaken_read_appended (hout : s.out.wf) {k : Nat} (hk : k < len) :
    (matchTaken Params.default off len s).out.read (s.outLen + k) = (matchCopied off len s).getD k 0 := by
  rw [matchTaken_read_out hout, if_pos (by omega), Nat.add_sub_cancel_left]

theorem matchTaken_read_win (hwin : s.win.wf) (hlen : len ≤ 1024) {d : Nat} (hd : d < 1024) :
    (matchTaken Params.default off len s).win.read (slotAt s d) =
      if d < len then (matchCopied off len s).getD d 0 else s.win.read (slotAt s d) := by
  have htaken : (matchTaken Params.default off len s).win = (putWinSeq (matchCopied off len s) s).win := by
    rw [matchTaken_default_eq]; rfl
  rw [htaken, putWinSeq_read hwin (by rwa [length_matchCopied]) hd, length_matchCopied]

end

/-- Settles O29: it holds. The copy is one run of writes of the bytes `matchCopied`, into OUT and into the window. -/
theorem matchCopiesByteSerially : Obligations.MatchCopiesByteSerially := by
  intro s off len hdec hwin hout hwf hpp
  obtain ⟨hoff, -, hlen⟩ := (wf_matchTok off len).mp hwf
  have hread {d : Nat} (hd : d < 1024) := matchTaken_read_win (off := off) (len := len) hwin (by omega) hd
  have hexec : exec (.matchTok off len) s = .next (matchTaken Params.default off len s) := by
    rw [exec_eq, execWith_matchTok_decoding hdec hpp]
  refine ⟨_, matchCopied off len s, hexec, length_matchCopied .., fun k hk => matchCopied_getD hoff hk, ?pp, ?off, ?mlen,
    ?olen, matchTaken_outLen, ?cur, fun k hk => matchTaken_read_appended hout hk, fun k hk => ?written, fun a ha => ?outKept,
    fun k hk hk' => ?winKept, ?frame⟩
  case pp => rw [matchTaken_default_eq]; rfl
  case off => rw [matchTaken_default_eq]; exact Nat.mod_eq_of_lt (by omega)
  case mlen => rw [matchTaken_default_eq]; rfl
  case olen => rw [matchTaken_default_eq]; rfl
  case cur =>
    rw [matchTaken_default_eq, nextBit_cur, BitVec.toNat_add, BitVec.toNat_ofNat, Nat.add_mod_mod]
  case written => exact (hread (by omega)).trans (if_pos hk)
  case outKept => rw [matchTaken_read_out hout, if_neg (by omega)]
  case winKept => exact (hread hk').trans (if_neg (by omega))
  case frame => rw [matchTaken_default_eq]; rfl

/-! ## A Match that overlaps its destination (R176) -/

section
variable {s : State} {off len e : Nat} (hwin : s.win.wf) (hwf : (Instr.matchTok off len).wf = true) (he : e < 1024)
  (hcur : (off + e) % 1024 = s.cur.toNat)
include hwin hwf he hcur

/-- With the source `e` slots behind the cursor, byte `k` of a Match is its own byte `k - e`, or one the window held before. -/
theorem matchCopied_getD_of_distance {k : Nat} (hk : k < len) :
    (matchCopied off len s).getD k 0 =
      if 1 ≤ e ∧ e ≤ k then (matchCopied off len s).getD (k - e) 0 else winRead ((off + k : Nat) : Int) s := by
  obtain ⟨hoff, -, hlen⟩ := (wf_matchTok off len).mp hwf
  have htake : ((matchCopied off len s).take k).length = k := by
    rw [List.length_take, length_matchCopied, Nat.min_eq_left (Nat.le_of_lt hk)]
  have hread {d : Nat} (hd : d < 1024) :=
    putWinSeq_read (bs := (matchCopied off len s).take k) hwin (by omega) hd
  rw [matchCopied_getD hoff hk, winRead_nat]
  split
  · next hover =>
    have hslot : (off + k) % Config.winSize = slotAt s (k - e) := by
      simp only [slotAt, Config.winSize, ← hcur]; omega
    rw [hslot, hread (by omega), if_pos (by omega), List.getD_eq_getElem?_getD, List.getD_eq_getElem?_getD,
      List.getElem?_take_of_lt (by omega)]
  · next hold =>
    have hslot : (off + k) % Config.winSize = slotAt s ((1024 + k - e) % 1024) := by
      simp only [slotAt, Config.winSize, ← hcur]; omega
    rw [hslot, hread (by omega), if_neg (by omega), ← hslot, ← winRead_nat]

/-- A Match that reaches its own output repeats the `e` bytes before the cursor (R176). -/
theorem matchCopied_periodic (hpos : 1 ≤ e) {k : Nat} (hk : k < len) :
    (matchCopied off len s).getD k 0 = winRead ((off + k % e : Nat) : Int) s := by
  induction k using Nat.strongRecOn with
  | ind k ih =>
    rw [matchCopied_getD_of_distance hwin hwf he hcur hk]
    split
    · next hover => rw [ih (k - e) (by omega) (by omega), Nat.mod_eq_sub_mod hover.2]
    · next hfirst => rw [Nat.mod_eq_of_lt (by omega)]

/-- A Match that does not reach its own output copies what the window held (R176). -/
theorem matchCopied_disjoint (hfar : e = 0 ∨ len ≤ e) {k : Nat} (hk : k < len) :
    (matchCopied off len s).getD k 0 = winRead ((off + k : Nat) : Int) s := by
  rw [matchCopied_getD_of_distance hwin hwf he hcur hk, if_neg (by omega)]

/-- A Match onto itself writes what is already there (R176). -/
theorem matchTaken_window_of_self (hself : e = 0) (a : Int) :
    winRead a (matchTaken Params.default off len s) = winRead a s := by
  obtain ⟨-, -, hlen⟩ := (wf_matchTok off len).mp hwf
  obtain ⟨c, hc⟩ := exists_slot_of_index a
  have hd : distance s c < 1024 := Nat.mod_lt _ (by decide)
  rw [winRead_of_emod_eq hc, winRead_of_emod_eq hc, ← slotAt_distance s (c := c) (by omega),
    matchTaken_read_win hwin (by omega) hd]
  split
  · next hlt =>
    rw [matchCopied_disjoint hwin hwf he hcur (.inl hself) hlt, winRead_nat]
    simp only [slotAt, Config.winSize, ← hcur, hself]
    congr 1
    omega
  · rfl

end

/-- Settles O30: it holds, by strong induction on the byte's index: each byte of the copy is one `e` bytes earlier. -/
theorem overlappingMatchRepeats : Obligations.OverlappingMatchRepeats := by
  intro s t off len e hdec hwin hout hwf hpp he hcur ht
  rw [exec_eq] at ht
  cases (execWith_matchTok_decoding hdec hpp).symm.trans ht
  refine ⟨fun hpos _ k hk => ?periodic, fun hfar k hk => ?disjoint, matchTaken_window_of_self hwin hwf he hcur⟩
  case periodic => rw [matchTaken_read_appended hout hk, matchCopied_periodic hwin hwf he hcur hpos hk]
  case disjoint => rw [matchTaken_read_appended hout hk, matchCopied_disjoint hwin hwf he hcur hfar hk]

/-! ## CLIP_AT_ULEN (R8, R179) -/

/-- With CLIP_AT_ULEN a copy stops once the output is as long as the header says. -/
theorem copyLoop_olen_clipped {p : Params} (hclip : p.clipAtUlen = true) (n : Nat) {s : State}
    (hle : s.olen ≤ s.ulen.toNat) : (copyLoop p n s).olen = min (s.olen + n) s.ulen.toNat := by
  induction n generalizing s with
  | zero => exact (Nat.min_eq_left hle).symm
  | succ n ih =>
    rw [copyLoop, hclip, Bool.true_and]
    by_cases hdone : s.ulen.toNat ≤ s.olen
    · rw [if_pos (decide_eq_true hdone)]; omega
    · rw [if_neg (by rwa [decide_eq_true_eq]), ih (s := copyStep s) (by rw [copyStep_olen, copyStep_ulen]; omega),
        copyStep_olen, copyStep_ulen]
      omega

/-- Settles O37: it holds, by induction on the copy with CLIP_AT_ULEN and by `matchTaken_eq` without it. -/
theorem clippingStopsAtTheLength : Obligations.ClippingStopsAtTheLength := by
  intro p s t off len hdec hpp hle ht
  cases (execWith_matchTok_decoding hdec hpp).symm.trans ht
  refine ⟨fun hclip => copyLoop_olen_clipped hclip len (s := matchBegin off len s) hle, fun hfree => ?_⟩
  obtain ⟨w, o, k, -, hfull, heq⟩ := matchTaken_eq p off len s
  rw [heq, ← hfull hfree]
  rfl

end Sys2Proof.Machine
end

section
/-! PROOF. What one step keeps. While an operation runs, every instruction and every decision of the sequencer keeps the operation
and the input (`Keeps`); outside one, only a command, a reset or the host's own writes change anything (`step_rest`). What an
instruction can do while DECOMPRESS runs is listed once (`Decodes`). -/

namespace Sys2Proof.Machine

section
variable {s t : State}

/-! ## The instructions while DECOMPRESS runs (R171 to R178) -/

/-- What an instruction can make of a state in which DECOMPRESS runs: it ends the operation, or takes its object, or is a command
and ignored. -/
inductive Decodes (s : State) : Instr → State → Prop where
  | ended (i : Instr) (c : Code) : Decodes s i (finish c s)
  | header (n : Word32) : Decodes s (.header n) (fieldTaken n s)
  | flag (f : Byte) : Decodes s (.flag f) (flagTaken f s)
  | lit (b : Byte) : Decodes s (.lit b) (litTaken b s)
  | matchTok (off len : Nat) : Decodes s (.matchTok off len) (matchTaken Params.default off len s)
  | command (i : Instr) (h : i.position = .command) : Decodes s i s

theorem exec_command_busy {i : Instr} (h : i.position = .command) (hbusy : s.phase = .busy) : exec i s = .next s := by
  have hrunning : s.phase ≠ .finished := by rw [hbusy]; exact Phase.noConfusion
  cases i with
  | cmdClear => exact (meaningClear_eq s).trans (by rw [if_neg hrunning])
  | cmdCompress => exact (meaningCompress_eq _ s).trans (by rw [if_pos hbusy])
  | cmdDecompress => exact (meaningDecompress_eq s).trans (by rw [if_pos hbusy])
  | _ => cases h

theorem exec_decodes (hdec : s.decoding) {i : Instr} (ht : exec i s = .next t) : Decodes s i t := by
  have hended (c : Code) : Decodes s i (endEarly Params.default c s) := endEarly_default c s ▸ .ended i c
  rw [exec_eq] at ht
  cases i with
  | header n =>
    rcases Nat.lt_or_ge s.inCount 16 with hshort | hlong
    · cases (execWith_header_short hdec hshort).symm.trans ht
      exact .ended _ _
    · cases (execWith_header_decoding hdec hlong).symm.trans ht
      exact .header n
  | flag f =>
    rcases Nat.lt_or_ge s.pp s.inCount with hmore | hend
    · cases (execWith_flag_decoding hdec hmore).symm.trans ht
      exact .flag f
    · cases (execWith_flag_exhausted hdec hend).symm.trans ht
      exact hended _
  | lit b =>
    rcases Nat.lt_or_ge s.pp s.inCount with hmore | hend
    · cases (execWith_lit_decoding hdec hmore).symm.trans ht
      exact .lit b
    · cases (execWith_lit_exhausted hdec hend).symm.trans ht
      exact hended _
  | matchTok off len =>
    rcases Nat.lt_or_ge s.inCount (s.pp + 2) with hend | hmore
    · cases (execWith_matchTok_truncated hdec hend).symm.trans ht
      exact hended _
    · cases (execWith_matchTok_decoding hdec hmore).symm.trans ht
      exact .matchTok off len
  | _ =>
    rw [← exec_eq] at ht
    cases (exec_command_busy rfl hdec.1).symm.trans ht
    exact .command _ rfl

section
variable (hdec : s.decoding) (hbusy : t.phase = .busy)
include hdec hbusy

theorem exec_flag_busy {f : Byte} (ht : exec (.flag f) s = .next t) : t = flagTaken f s := by
  cases exec_decodes hdec ht with
  | ended _ c => cases hbusy
  | flag => rfl
  | command _ h => cases h

theorem exec_lit_busy {b : Byte} (ht : exec (.lit b) s = .next t) : t = litTaken b s := by
  cases exec_decodes hdec ht with
  | ended _ c => cases hbusy
  | lit => rfl
  | command _ h => cases h

theorem exec_matchTok_busy {off len : Nat} (ht : exec (.matchTok off len) s = .next t) :
    t = matchTaken Params.default off len s := by
  cases exec_decodes hdec ht with
  | ended _ c => cases hbusy
  | matchTok => rfl
  | command _ h => cases h

end

theorem matchTaken_stage (p : Params) (off len : Nat) (s : State) :
    (matchTaken p off len s).stage = bitStage (s.t + 1) := by
  obtain ⟨w, o, k, -, -, htaken⟩ := matchTaken_eq p off len s
  rw [htaken]
  rfl

/-- The place after bit `n - 1` of a flag byte: the next token, or the next flag byte after the eighth. -/
theorem bitStage_iff (n : Nat) : (n < 8 → bitStage n = .token) ∧ (8 ≤ n → bitStage n = .chunk) :=
  ⟨fun h => if_pos h, fun h => if_neg (Nat.not_lt.mpr h)⟩

/-- Settles O33: it holds. An instruction after which DECOMPRESS still runs has taken its object. -/
theorem flagBitsAreTakenInOrder : Obligations.FlagBitsAreTakenInOrder := by
  intro s t i hdec hbusy ht
  refine ⟨?flag, ?token⟩
  case flag =>
    rintro f rfl
    rw [exec_flag_busy hdec hbusy ht]
    exact ⟨rfl, rfl⟩
  case token =>
    rintro (⟨b, rfl⟩ | ⟨off, len, rfl⟩)
    · rw [exec_lit_busy hdec hbusy ht]
      exact ⟨rfl, bitStage_iff _⟩
    · rw [exec_matchTok_busy hdec hbusy ht, matchTaken_stage]
      exact ⟨(matchTaken_place ..).2, bitStage_iff _⟩

/-- A step of DECOMPRESS completes it, ends it, or executes an instruction, a HEADER only at the header's place (R170). -/
theorem decompressStep_decodes (hdec : s.decoding) (ht : decompressStep Params.default exec s = .next t) :
    t = complete s ∨ (∃ c, t = finish c s) ∨ ∃ i, Decodes s i t ∧ (s.stage ≠ .header → i.position ≠ .header) := by
  by_cases hstage : s.stage = .header
  · rw [decompressStep_header hstage] at ht
    cases hf : fetch Params.default .header s with
    | ok i =>
      rw [fetchRun_ok hf] at ht
      exact .inr (.inr ⟨i, exec_decodes hdec ht, fun h => absurd hstage h⟩)
    | error e =>
      rw [fetchRun_error hf, fetch_header_error hf] at ht
      cases ht
      exact .inr (.inl ⟨_, rfl⟩)
  · rcases decompressStep_cases hstage ht with
      ⟨-, hdone⟩ | ⟨-, hend | hend⟩ | ⟨-, -, -, hexec⟩ | ⟨-, -, -, hexec⟩ | ⟨-, -, -, hexec⟩
    · exact .inl hdone
    · exact .inr (.inl ⟨_, hend⟩)
    · exact .inr (.inl ⟨_, hend⟩)
    all_goals exact .inr (.inr ⟨_, exec_decodes hdec hexec, fun _ => Position.noConfusion⟩)

/-! ## While an operation runs (R36, R59, R207, R209) -/

/-- What no step of a running operation changes: the operation and the input; it stays BUSY with its code, or ends. -/
structure Keeps (s t : State) : Prop where
  op : t.op = s.op
  inp : t.inp = s.inp
  inLen : t.inLen = s.inLen
  phase : t.phase = .busy ∨ t.phase = .finished
  code : t.phase = .busy → t.code = s.code

theorem Keeps.refl (h : s.phase = .busy) : Keeps s s := ⟨rfl, rfl, rfl, .inl h, fun _ => rfl⟩

theorem Keeps.finish (c : Code) (s : State) : Keeps s (finish c s) := ⟨rfl, rfl, rfl, .inr rfl, fun h => nomatch h⟩

theorem TokenFrame.keeps (h : TokenFrame s t) (hbusy : s.phase = .busy) : Keeps s t :=
  ⟨h.op, h.inp, h.inLen, .inl (h.phase.trans hbusy), fun _ => h.code⟩

theorem Decodes.keeps {i : Instr} (h : Decodes s i t) (hbusy : s.phase = .busy) : Keeps s t := by
  cases h with
  | ended _ c => exact .finish c s
  | header n => exact ⟨rfl, rfl, rfl, .inl hbusy, fun _ => rfl⟩
  | flag f => exact ⟨rfl, rfl, rfl, .inl hbusy, fun _ => rfl⟩
  | lit b => exact (litTaken_frame b s).keeps hbusy
  | matchTok off len => exact (matchTaken_frame _ off len s).keeps hbusy
  | command _ _ => exact .refl hbusy

/-- The instructions while COMPRESS runs. -/
theorem exec_encoding_keeps (henc : s.encoding) {i : Instr} (ht : exec i s = .next t) : Keeps s t := by
  obtain ⟨hbusy, hop⟩ := henc
  cases i with
  | header n =>
    rw [exec_eq, execWith_header_encoding ⟨hbusy, hop⟩, headerPut_eq] at ht
    cases ht
    exact ⟨rfl, rfl, rfl, .inl hbusy, fun _ => rfl⟩
  | flag f =>
    obtain ⟨-, heq⟩ := chunkFlush_cases ((running_compress hbusy hop).symm.trans ht)
    rw [← chunkPut, chunkPut_eq] at heq
    rw [heq]
    exact ⟨rfl, rfl, rfl, .inl hbusy, fun _ => rfl⟩
  | lit b =>
    obtain ⟨-, -, -, heq⟩ := litEncode_cases ((running_compress hbusy hop).symm.trans ht)
    rw [heq]
    exact ⟨rfl, rfl, rfl, .inl hbusy, fun _ => rfl⟩
  | matchTok off len =>
    rcases matchEncode_cases ((running_compress hbusy hop).symm.trans ht) with ⟨-, -, -, -, heq⟩ | ⟨-, heq⟩
    · rw [heq, commitMatch_frame]
      exact ⟨rfl, rfl, rfl, .inl hbusy, fun _ => rfl⟩
    · rw [heq]
      exact .finish _ s
  | _ =>
    cases (exec_command_busy rfl hbusy).symm.trans ht
    exact .refl hbusy

theorem exec_keeps (hbusy : s.phase = .busy) {i : Instr} (ht : exec i s = .next t) : Keeps s t := by
  cases hop : s.op with
  | compress => exact exec_encoding_keeps ⟨hbusy, hop⟩ ht
  | decompress => exact (exec_decodes ⟨hbusy, hop⟩ ht).keeps hbusy

theorem decompressStep_keeps (hdec : s.decoding) (ht : decompressStep Params.default exec s = .next t) : Keeps s t := by
  rcases decompressStep_decodes hdec ht with hdone | ⟨c, hend⟩ | ⟨i, hexec, -⟩
  · rw [hdone]
    exact ⟨rfl, rfl, rfl, .inr rfl, fun h => nomatch h⟩
  · exact hend ▸ .finish c s
  · exact hexec.keeps hdec.1

theorem chunkStep_keeps (hbusy : s.phase = .busy) (ht : chunkStep Params.default exec s = .next t) : Keeps s t := by
  rw [chunkStep] at ht
  split at ht
  · exact exec_keeps hbusy ht
  · split at ht
    · split at ht
      · exact exec_keeps hbusy ht
      · cases ht
        exact ⟨rfl, rfl, rfl, .inl hbusy, fun _ => rfl⟩
    · split at ht
      · cases ht
        exact ⟨rfl, rfl, rfl, .inl hbusy, fun _ => rfl⟩
      · exact { exec_keeps (s := { s with search := none }) hbusy ht with }

theorem compressStep_keeps (hbusy : s.phase = .busy) (ht : compressStep Params.default exec s = .next t) : Keeps s t := by
  rw [compressStep] at ht
  split at ht
  · exact exec_keeps hbusy ht
  · split at ht
    · cases ht
      exact .finish .ok s
    · cases ht
      exact ⟨rfl, rfl, rfl, .inl hbusy, fun _ => rfl⟩
  · exact chunkStep_keeps hbusy ht

theorem sequencerStep_keeps (hbusy : s.phase = .busy) (ht : sequencerStep Params.default exec s = .next t) : Keeps s t := by
  cases hop : s.op with
  | compress => exact compressStep_keeps hbusy ((sequencer_compress hbusy hop).symm.trans ht)
  | decompress => exact decompressStep_keeps ⟨hbusy, hop⟩ ((sequencer_decompress hbusy hop).symm.trans ht)

/-- A step of a busy block ignores a command or a CMD write, lets the sequencer step, or is the reset. -/
theorem step_busy_cases (hbusy : s.phase = .busy) (ht : step s = .next t) :
    t = { s with cmd := t.cmd, host := t.host } ∨
    (s.cmd = none ∧ (∀ v es, s.host ≠ .writeCmd v :: es) ∧
      ∃ es, sequencerStep Params.default exec { s with host := es } = .next t) ∨
    ∃ es, s.host = .reset :: es ∧ s.cmd = none := by
  have hnot {u v : HostEvent} {es : List HostEvent} (hhost : s.host = u :: es) (hne : u ≠ v) (es' : List HostEvent) :
      s.host ≠ v :: es' := by
    rw [hhost]
    exact fun h => hne (List.cons.inj h).1
  rcases step_cases ht with ⟨v, -, hcmd⟩ | ⟨hcmd, hhost, hseq⟩ | ⟨e, es, hcmd, hhost, hmove⟩
  · cases (commandStep_busy (s := { s with cmd := none }) hbusy).symm.trans hcmd
    exact .inl rfl
  · exact .inr (.inl ⟨hcmd, fun v es h => (by rw [hhost] at h; cases h), s.host, hseq⟩)
  · rcases hostStep_cases hmove with ⟨rfl, hseq⟩ | ⟨rfl, -, hseq⟩ | ⟨-, hidle, -⟩ | ⟨v, rfl, heq⟩ | ⟨_, _, -, hidle, -⟩ |
      ⟨_, -, hidle, -⟩ | ⟨rfl, -⟩
    · exact .inr (.inl ⟨hcmd, fun v => hnot hhost HostEvent.noConfusion, _, hseq⟩)
    · exact .inr (.inl ⟨hcmd, fun v => hnot hhost HostEvent.noConfusion, s.host, hseq⟩)
    · exact absurd hbusy hidle
    · rw [heq, if_pos hbusy]
      exact .inl rfl
    · exact absurd hbusy hidle
    · exact absurd hbusy hidle
    · exact .inr (.inr ⟨es, hhost, hcmd⟩)

end

/-- Settles O57: it holds, by `step_busy_cases` and what the sequencer keeps. -/
theorem busyEndsOnlyByFinishOrReset : Obligations.BusyEndsOnlyByFinishOrReset := by
  intro s t hbusy ht
  have hignored (h : t = { s with cmd := t.cmd, host := t.host }) : Keeps s t := by
    rw [h]
    exact ⟨rfl, rfl, rfl, .inl hbusy, fun _ => rfl⟩
  refine ⟨fun hreset => ?keeps, fun hcommand => ?ignores⟩
  case keeps =>
    have hkeeps : Keeps s t := by
      rcases step_busy_cases hbusy ht with h | ⟨-, -, es, hseq⟩ | ⟨es, hhost, -⟩
      · exact hignored h
      · exact { sequencerStep_keeps (s := { s with host := es }) hbusy hseq with }
      · exact absurd hhost (hreset es)
    exact ⟨hkeeps.op, hkeeps.phase, hkeeps.code⟩
  case ignores =>
    have h : t = { s with cmd := t.cmd, host := t.host } := by
      rcases step_busy_cases hbusy ht with h | ⟨hcmd, hhost, -⟩ | ⟨es, hreset, hcmd⟩
      · exact h
      · rcases hcommand with hsome | ⟨v, es, hwrite⟩
        · exact absurd hcmd hsome
        · exact absurd hwrite (hhost v es)
      · rcases hcommand with hsome | ⟨v, es', hwrite⟩
        · exact absurd hcmd hsome
        · rw [hreset] at hwrite
          cases hwrite
    exact ⟨by rw [h]; exact hbusy, h⟩

/-! ## The payload pointer (R29) -/

theorem complete_pp (s : State) : (complete s).pp = s.pp := by
  simp only [complete, finish_pp, subst_pp]

theorem Decodes.pp_bounds {s t : State} {i : Instr} (h : Decodes s i t) (hheader : i.position ≠ .header) :
    s.pp ≤ t.pp ∧ t.pp ≤ s.pp + 2 := by
  cases h with
  | ended _ c => exact ⟨Nat.le_refl _, Nat.le_add_right _ 2⟩
  | header n => exact absurd rfl hheader
  | flag f => exact ⟨Nat.le_succ _, Nat.le_succ _⟩
  | lit b => exact ⟨Nat.le_succ _, Nat.le_succ _⟩
  | matchTok off len =>
    rw [(matchTaken_place _ off len s).1]
    exact ⟨Nat.le_add_right _ 2, Nat.le_refl _⟩
  | command _ _ => exact ⟨Nat.le_refl _, Nat.le_add_right _ 2⟩

theorem decompressStep_pp_bounds {s t : State} (hdec : s.decoding) (hstage : s.stage ≠ .header)
    (ht : decompressStep Params.default exec s = .next t) : s.pp ≤ t.pp ∧ t.pp ≤ s.pp + 2 := by
  rcases decompressStep_decodes hdec ht with rfl | ⟨c, rfl⟩ | ⟨i, hexec, hposition⟩
  · rw [complete_pp s]
    exact ⟨Nat.le_refl _, Nat.le_add_right _ 2⟩
  · exact ⟨Nat.le_refl _, Nat.le_add_right _ 2⟩
  · exact hexec.pp_bounds (hposition hstage)

/-- Settles O35: it holds, by what a step of a busy block is and what each instruction consumes. -/
theorem payloadPointerOnlyAdvances : Obligations.PayloadPointerOnlyAdvances := by
  refine ⟨fun s t hdec hstage hreset ht => ?step, fun s t i hdec ht hbusy => ⟨?flag, ?lit, ?matchTok⟩⟩
  case step =>
    rcases step_busy_cases hdec.1 ht with h | ⟨-, -, es, hseq⟩ | ⟨es, hhost, -⟩
    · rw [h]
      exact ⟨Nat.le_refl _, Nat.le_add_right _ 2⟩
    · have hstep := (sequencer_decompress (s := { s with host := es }) hdec.1 hdec.2).symm.trans hseq
      exact decompressStep_pp_bounds (s := { s with host := es }) hdec hstage hstep
    · exact absurd hhost (hreset es)
  case flag =>
    rintro f rfl
    rw [exec_flag_busy hdec hbusy ht]
    rfl
  case lit =>
    rintro b rfl
    rw [exec_lit_busy hdec hbusy ht]
    rfl
  case matchTok =>
    rintro off len rfl
    rw [exec_matchTok_busy hdec hbusy ht]
    exact (matchTaken_place ..).1

end Sys2Proof.Machine
end

section
/-! PROOF. Outside an operation: commands, the host's moves, the hardware reset, what the host reads, and that nothing else changes
anything (R31, R210, R230, R232). -/

namespace Sys2Proof.Machine

/-! ## Commands and stored objects (R31, R212) -/

section
variable {s : State} {p : Params}

theorem exec_cmdClear (h : s.phase = .finished) : exec .cmdClear s = .next (clear s) :=
  (meaningClear_eq s).trans (by rw [if_pos h])

theorem exec_cmdClear_ignored (h : s.phase ≠ .finished) : exec .cmdClear s = .next s :=
  (meaningClear_eq s).trans (by rw [if_neg h])

section
variable (hidle : s.phase ≠ .busy)
include hidle

theorem execWith_cmdCompress :
    execWith p .cmdCompress s = .next (if exceeds p.outCap (compressBound s.inCount) then finish .refused (startOp .compress s)
      else startOp .compress s) :=
  (meaningCompress_eq p s).trans (by rw [if_neg hidle])

theorem execWith_cmdDecompress : execWith p .cmdDecompress s = .next (startOp .decompress s) :=
  (meaningDecompress_eq s).trans (by rw [if_neg hidle])

theorem exec_cmdStart (o : Op) :
    exec (match o with | .compress => .cmdCompress | .decompress => .cmdDecompress) s = .next (startOp o s) := by
  cases o with
  | compress => exact execWith_cmdCompress (p := Params.default) hidle
  | decompress => exact execWith_cmdDecompress (p := Params.default) hidle

/-- A command sets the registers of an operation and leaves the input (R24). -/
theorem exec_command_keeps_input {i : Instr} {t : State} (hi : i.position = .command) (ht : exec i s = .next t) :
    t.inp = s.inp ∧ t.inLen = s.inLen := by
  cases i with
  | cmdClear =>
    by_cases hfinished : s.phase = .finished
    · cases (exec_cmdClear hfinished).symm.trans ht
      exact ⟨rfl, rfl⟩
    · cases (exec_cmdClear_ignored hfinished).symm.trans ht
      exact ⟨rfl, rfl⟩
  | cmdCompress =>
    cases (exec_cmdStart hidle .compress).symm.trans ht
    exact ⟨rfl, rfl⟩
  | cmdDecompress =>
    cases (exec_cmdStart hidle .decompress).symm.trans ht
    exact ⟨rfl, rfl⟩
  | _ => cases hi

/-- A stored object has no effect outside an operation (log entry 13). -/
theorem exec_stored_idle {i : Instr} (hi : i.position ≠ .command) : exec i s = .next s := by
  cases i with
  | header n => exact running_not_busy hidle
  | flag f => exact running_not_busy hidle
  | lit b => exact running_not_busy hidle
  | matchTok off len => exact running_not_busy hidle
  | _ => exact absurd rfl hi

end

end

/-- Settles O12: it holds, WinInit being one assignment of the window and the cursor. -/
theorem winInitZeroesTheWindow : Obligations.WinInitZeroesTheWindow :=
  fun s => ⟨fun a => winRead_winInit a s, rfl, rfl⟩

/-- Settles O16: it holds, by the two cases of CLEAR. -/
theorem clearReturnsToIdle : Obligations.ClearReturnsToIdle :=
  fun _ => ⟨exec_cmdClear, exec_cmdClear_ignored⟩

/-- Settles O17: it holds, by the fields of `startOp`. -/
theorem startInitialisesTheOperation : Obligations.StartInitialisesTheOperation := fun s o hidle =>
  ⟨startOp o s, exec_cmdStart hidle o, rfl, rfl, rfl, rfl, rfl, rfl, rfl, fun a => winRead_winInit a s, rfl, rfl, rfl, rfl,
    rfl, rfl, rfl, rfl, rfl, rfl, rfl, rfl, rfl, rfl, rfl, rfl⟩

/-- Settles O55: it holds, by `sequencer_idle` and by the place of every stored object inside an operation. -/
theorem nothingRunsOutsideAnOperation : Obligations.NothingRunsOutsideAnOperation := fun _ hidle =>
  ⟨fun halone => (step_alone halone).trans (sequencer_idle hidle), fun _ => exec_stored_idle hidle⟩

/-! ## A value in CMD (R31, R92) -/

/-- Settles O18: it holds, by what a busy block does with a command and by the three values a command has. -/
theorem ignoredCommandsChangeNothing : Obligations.IgnoredCommandsChangeNothing := by
  refine ⟨fun s hbusy => ?busy, fun s v es hbusy hcmd hhost => ?write, fun s v hcmd hv => ?value⟩
  case busy => exact ⟨exec_command_busy rfl hbusy, exec_command_busy rfl hbusy, exec_command_busy rfl hbusy⟩
  case write =>
    calc step s = hostMove Params.default (.writeCmd v) { s with host := es } :=
          stepBy_move hcmd hhost HostEvent.noConfusion HostEvent.noConfusion
      _ = .next { s with host := es } := hostMove_writeCmd_busy (s := { s with host := es }) hbusy v
  case value =>
    have hne (c : Byte) (hc : c.toNat < 3) : v ≠ c := fun h => Nat.not_le.mpr hc (h ▸ hv)
    rw [step_command hcmd, commandStep_default, if_neg (hne _ (by decide)), if_neg (hne _ (by decide)),
      if_neg (hne _ (by decide))]

/-! ## The host's moves (R230, R232, R241) -/

theorem statusByte_reset : statusByte State.reset = 0 := by decide

/-- Settles O19: it holds: the reset state, with the host's moves kept, is a concrete one. -/
theorem hardwareResetFromAnyPhase : Obligations.HardwareResetFromAnyPhase := by
  intro s es hcmd hhost
  have hstep : step s = hostMove Params.default .reset { s with host := es } :=
    stepBy_move hcmd hhost HostEvent.noConfusion HostEvent.noConfusion
  have hstatus : hostReadReg .status (hardReset { s with host := es }) = some 0 :=
    congrArg (fun b : Byte => some b.toNat) statusByte_reset
  exact ⟨hardReset { s with host := es }, hstep, rfl, rfl, rfl, rfl, rfl, rfl, rfl, hstatus, rfl, rfl⟩

theorem inAddressOk_iff (p : Params) (a : Nat) :
    inAddressOk p a = true ↔ a < 2 ^ 32 - 1 ∧ exceeds p.inCap (a + 1) = false := by
  rw [inAddressOk, Bool.and_eq_true, decide_eq_true_iff, Bool.not_eq_true']

section
variable {s : State} {es : List HostEvent} {p : Params} (hidle : s.phase ≠ .busy) (hcmd : s.cmd = none)
include hidle hcmd

/-- A byte of IN is written where an input can lie (R24, R205). -/
theorem stepWith_writeIn {a : Nat} {v : Byte} (hhost : s.host = .writeIn a v :: es) :
    stepWith p s = if inAddressOk p a then .next { s with inp := s.inp.write a v, host := es } else .fault .noSuchInAddress :=
  (stepBy_move hcmd hhost HostEvent.noConfusion HostEvent.noConfusion).trans
    (hostMove_writeIn (s := { s with host := es }) hidle a v)

/-- IN_LEN is written up to the capacity (R24, R205). -/
theorem stepWith_writeInLen {n : Word32} (hhost : s.host = .writeInLen n :: es) :
    stepWith p s =
      if exceeds p.inCap n.toNat then .refused .inLenAboveInCap else .next { s with inLen := n, host := es } :=
  (stepBy_move hcmd hhost HostEvent.noConfusion HostEvent.noConfusion).trans
    (hostMove_writeInLen (s := { s with host := es }) hidle n)

theorem step_writeCmd {v : Byte} (hhost : s.host = .writeCmd v :: es) :
    step s = .next { s with cmd := some v, host := es } :=
  (stepBy_move hcmd hhost HostEvent.noConfusion HostEvent.noConfusion).trans
    (hostMove_writeCmd (s := { s with host := es }) hidle v)

end

/-- Settles O20: it holds, by the equations of the three writes. -/
theorem hostLoadsInputOnlyOutsideAnOperation : Obligations.HostLoadsInputOnlyOutsideAnOperation := by
  intro s es a v n hcmd
  have hbusy {e : HostEvent} (hpause : e ≠ .pause) (hawait : e ≠ .await) (hhost : s.host = e :: es) :
      step s = hostMove Params.default e { s with host := es } := stepBy_move hcmd hhost hpause hawait
  refine ⟨fun hhost => ⟨fun hidle ha => ?writeIn, fun hrun => ?writeInBusy⟩,
    fun hhost => ⟨fun hidle => ?writeInLen, fun hrun => ?writeInLenBusy⟩, fun hhost hidle => step_writeCmd hidle hcmd hhost⟩
  case writeIn =>
    rw [step_eq_stepWith, stepWith_writeIn hidle hcmd hhost, if_pos ((inAddressOk_iff _ a).mpr ⟨ha, rfl⟩)]
  case writeInBusy =>
    exact (hbusy HostEvent.noConfusion HostEvent.noConfusion hhost).trans
      (hostMove_writeIn_busy (s := { s with host := es }) hrun a v)
  case writeInLen =>
    rw [step_eq_stepWith, stepWith_writeInLen hidle hcmd hhost]
    rfl
  case writeInLenBusy =>
    exact (hbusy HostEvent.noConfusion HostEvent.noConfusion hhost).trans
      (hostMove_writeInLen_busy (s := { s with host := es }) hrun n)

/-- Settles O23: it holds, `State.reset` being a literal. -/
theorem resetStateIsIdleAndEmpty : Obligations.ResetStateIsIdleAndEmpty :=
  ⟨rfl, rfl, rfl, rfl, rfl, rfl, rfl, rfl, rfl⟩

/-! ## Capacity (R205) -/

theorem exceeds_eq_false {c need : Nat} (h : need ≤ c) : exceeds (some c) need = false :=
  decide_eq_false (Nat.not_lt.mpr h)

/-- Settles O22: it holds, each clause by the two branches of its capacity test. -/
theorem capacityRefusesBeforeAnyOutput : Obligations.CapacityRefusesBeforeAnyOutput := by
  intro p s c n a v es
  have hcompress (hidle : s.phase ≠ .busy) (hfits : exceeds p.outCap (compressBound s.inCount) = false) :
      execWith p .cmdCompress s = .next (startOp .compress s) := by
    rw [execWith_cmdCompress hidle, hfits]
    rfl
  have hheader (hdec : s.decoding) (hlong : 16 ≤ s.inCount) (hfits : exceeds p.outCap (decompressBound n.toNat) = false) :
      execWith p (.header n) s = .next (fieldTaken n s) := by
    rw [execWith_header_decoding hdec hlong, hfits]
    rfl
  refine ⟨fun hcap hidle hlt => ?refused, fun hcap hidle hle => hcompress hidle (hcap ▸ exceeds_eq_false hle),
    fun hcap hdec hlong hlt => ?headerRefused,
    fun hcap hdec hlong hle => hheader hdec hlong (hcap ▸ exceeds_eq_false hle),
    fun hcap hidle => hcompress hidle (hcap ▸ rfl), fun hcap hdec hlong => hheader hdec hlong (hcap ▸ rfl),
    fun hidle => execWith_cmdDecompress hidle, fun hidle hcmd hhost => ?inLen, fun hidle hcmd hhost ha => ?inByte⟩
  case refused =>
    rw [execWith_cmdCompress hidle, if_pos (hcap ▸ decide_eq_true hlt)]
    exact ⟨_, rfl, rfl, rfl, rfl, rfl⟩
  case headerRefused =>
    rw [execWith_header_decoding hdec hlong, if_pos (hcap ▸ decide_eq_true hlt)]
    exact ⟨_, rfl, rfl, rfl, rfl, rfl⟩
  case inLen =>
    rw [stepWith_writeInLen hidle hcmd hhost]
    exact ⟨fun hcap hlt => if_pos (hcap ▸ decide_eq_true hlt), fun hcap hle => if_neg (by simp [hcap, hle]),
      fun hcap => if_neg (by simp [hcap])⟩
  case inByte =>
    rw [stepWith_writeIn hidle hcmd hhost]
    refine ⟨fun hcap hle => if_neg ?_, fun hcap hlt => if_pos ?_, fun hcap => if_pos ?_⟩
    · simp only [inAddressOk_iff, hcap, exceeds, decide_eq_false_iff_not]; omega
    · simp only [inAddressOk_iff, hcap, exceeds, decide_eq_false_iff_not]; omega
    · simp only [inAddressOk_iff, hcap, exceeds_none, and_true]; exact ha

/-! ## What a step outside an operation can change (R31, R210, R230) -/

section
variable {s t : State} (hidle : s.phase ≠ .busy)
include hidle

theorem commandStep_rest (v : Byte) (ht : commandStep Params.default exec v s = .next t) :
    t = s ∨ (v.toNat ≤ 2 ∧ t.phase ≠ .finished ∧ t.inp = s.inp ∧ t.inLen = s.inLen) := by
  rw [commandStep_default] at ht
  split at ht
  · next hv =>
    split at ht
    · cases ht
      exact .inr ⟨by rw [hv]; decide, Phase.noConfusion, rfl, rfl⟩
    · cases ht
      exact .inl rfl
  · split at ht
    · next hv =>
      cases ht
      exact .inr ⟨by rw [hv]; decide, Phase.noConfusion, rfl, rfl⟩
    · split at ht
      · next hv =>
        cases ht
        exact .inr ⟨by rw [hv]; decide, Phase.noConfusion, rfl, rfl⟩
      · cases ht
        exact .inl rfl

/-- A step outside an operation runs a command, or is the reset, or changes at most IN, IN_LEN, CMD and the host's moves; and IN and
IN_LEN only by the host's own write. -/
theorem step_rest (ht : step s = .next t) :
    (∃ v, s.cmd = some v ∧ v.toNat ≤ 2 ∧ t.phase ≠ .finished ∧ t.inp = s.inp ∧ t.inLen = s.inLen) ∨
    (∃ es, s.host = .reset :: es ∧ t.phase = .idle) ∨
    (t = { s with inp := t.inp, inLen := t.inLen, cmd := t.cmd, host := t.host } ∧
      ((t.inp = s.inp ∧ t.inLen = s.inLen) ∨ (∃ a v es, s.host = .writeIn a v :: es) ∨
        ∃ n es, s.host = .writeInLen n :: es)) := by
  rcases step_cases ht with ⟨v, hv, hcmd⟩ | ⟨-, -, hseq⟩ | ⟨e, es, -, hhost, hmove⟩
  · rcases commandStep_rest (s := { s with cmd := none }) hidle v hcmd with rfl | ⟨hle, hphase, hinp, hlen⟩
    · exact .inr (.inr ⟨rfl, .inl ⟨rfl, rfl⟩⟩)
    · exact .inl ⟨v, hv, hle, hphase, hinp, hlen⟩
  · cases (sequencer_idle hidle).symm.trans hseq
    exact .inr (.inr ⟨rfl, .inl ⟨rfl, rfl⟩⟩)
  · rcases hostStep_cases hmove with ⟨rfl, hseq⟩ | ⟨-, hbusy, -⟩ | ⟨-, -, rfl⟩ | ⟨v, -, heq⟩ | ⟨a, v, rfl, -, -, rfl⟩ |
      ⟨n, rfl, -, rfl⟩ | ⟨rfl, rfl⟩
    · cases (sequencer_idle (s := popHost s) hidle).symm.trans hseq
      exact .inr (.inr ⟨rfl, .inl ⟨rfl, rfl⟩⟩)
    · exact absurd hbusy hidle
    · exact .inr (.inr ⟨rfl, .inl ⟨rfl, rfl⟩⟩)
    · rw [if_neg hidle] at heq
      rw [heq]
      exact .inr (.inr ⟨rfl, .inl ⟨rfl, rfl⟩⟩)
    · exact .inr (.inr ⟨rfl, .inr (.inl ⟨a, v, es, hhost⟩)⟩)
    · exact .inr (.inr ⟨rfl, .inr (.inr ⟨n, es, hhost⟩)⟩)
    · exact .inr (.inl ⟨es, hhost, rfl⟩)

end

/-- Settles O56: it holds, by `step_rest`. -/
theorem phaseChangesOnlyByCommandOrReset : Obligations.PhaseChangesOnlyByCommandOrReset := by
  intro s t hidle ht hphase
  rcases step_rest hidle ht with ⟨v, hv, hle, -⟩ | ⟨es, hhost, -⟩ | ⟨hframe, -⟩
  · exact .inl ⟨v, hv, hle⟩
  · exact .inr ⟨es, hhost⟩
  · exact absurd (congrArg State.phase hframe) hphase

/-- Settles O58: it holds, by what is kept while an operation runs and by `step_rest` outside one. -/
theorem blockNeverWritesItsInput : Obligations.BlockNeverWritesItsInput := by
  refine ⟨fun i s t ht => ?exec, fun s t ht hin hlen hreset => ?step⟩
  case exec =>
    by_cases hbusy : s.phase = .busy
    · have hkeeps := exec_keeps hbusy ht
      exact ⟨hkeeps.inp, hkeeps.inLen⟩
    · by_cases hi : i.position = .command
      · exact exec_command_keeps_input hbusy hi ht
      · cases (exec_stored_idle hbusy hi).symm.trans ht
        exact ⟨rfl, rfl⟩
  case step =>
    by_cases hbusy : s.phase = .busy
    · rcases step_busy_cases hbusy ht with h | ⟨-, -, es, hseq⟩ | ⟨es, hhost, -⟩
      · rw [h]
        exact ⟨rfl, rfl⟩
      · have hkeeps := sequencerStep_keeps (s := { s with host := es }) hbusy hseq
        exact ⟨hkeeps.inp, hkeeps.inLen⟩
      · exact absurd hhost (hreset es)
    · rcases step_rest hbusy ht with ⟨-, -, -, -, hsame⟩ | ⟨es, hhost, -⟩ | ⟨-, hsame | ⟨a, v, es, hhost⟩ | ⟨n, es, hhost⟩⟩
      · exact hsame
      · exact absurd hhost (hreset es)
      · exact hsame
      · exact absurd hhost (hin a v es)
      · exact absurd hhost (hlen n es)

/-! ## What the host reads (R25, R31, R32) -/

theorem toNat_append_eq {m n : Nat} (x : BitVec m) (y : BitVec n) : (x ++ y).toNat = 2 ^ n * x.toNat + y.toNat := by
  rw [BitVec.toNat_append, ← Nat.shiftLeft_add_eq_or_of_lt y.isLt, Nat.shiftLeft_eq, Nat.mul_comm]

theorem statusByte_toNat (s : State) :
    (statusByte s).toNat = 16 * s.code.bits.toNat + 4 * s.op.bit.toNat + s.phase.bits.toNat := by
  rw [statusByte, toNat_append_eq, toNat_append_eq, toNat_append_eq, BitVec.toNat_ofNat]
  omega

theorem statusByte_phase (s : State) : (statusByte s).toNat % 4 = s.phase.bits.toNat := by
  have hphase := s.phase.bits.isLt
  rw [statusByte_toNat]
  omega

theorem statusByte_code (s : State) : (statusByte s).toNat / 16 = s.code.bits.toNat := by
  have hop := s.op.bit.isLt
  have hphase := s.phase.bits.isLt
  rw [statusByte_toNat]
  omega

theorem statusByte_op (s : State) : (statusByte s).getLsbD 2 = s.op.bit.getLsbD 0 := by
  rw [statusByte, BitVec.getLsbD_append, if_neg (by decide), BitVec.getLsbD_append, if_pos (by decide)]

theorem statusByte_reserved (s : State) : (statusByte s).getLsbD 3 = false := by
  rw [statusByte, BitVec.getLsbD_append, if_neg (by decide), BitVec.getLsbD_append, if_neg (by decide),
    BitVec.getLsbD_append, if_pos (by decide)]
  rfl

/-- While FINISHED the results the host reads stay until a command or the reset (R25, R31). -/
theorem step_finished_keeps {s t : State} (hs : s.phase = .finished) (ht : step s = .next t) (hfinished : t.phase = .finished) :
    t = { s with inp := t.inp, inLen := t.inLen, cmd := t.cmd, host := t.host } := by
  rcases step_rest (by rw [hs]; exact Phase.noConfusion) ht with ⟨-, -, -, hne, -⟩ | ⟨es, -, hidle⟩ | ⟨hframe, -⟩
  · exact absurd hfinished hne
  · rw [hidle] at hfinished
    cases hfinished
  · exact hframe

/-- Settles O21: it holds. STATUS is read off field by field; what the host reads is one test of PHASE a register. -/
theorem statusRegisterFields : Obligations.StatusRegisterFields := by
  refine ⟨fun s a => ⟨rfl, rfl, fun hidle => ?idle, fun hbusy => ?busy, fun hfinished ha => if_pos ⟨hfinished, ha⟩,
    fun h => if_neg fun ⟨hfinished, ha⟩ => ?noByte, fun hinv hidle => ?idleValues⟩, fun s t a hs ht hfinished => ?stays,
    fun s => ⟨?phase, ?op, statusByte_reserved s, ?code⟩⟩
  case idle => exact ⟨if_neg hidle, if_neg hidle, if_neg hidle⟩
  case busy => exact ⟨if_pos hbusy, if_pos hbusy, if_pos hbusy⟩
  case noByte => exact h.elim (fun hne => hne hfinished) (Nat.not_le.mpr ha)
  case idleValues =>
    obtain ⟨-, -, -, -, -, hvalues, -⟩ := hinv
    obtain ⟨hout, hulen⟩ := hvalues hidle
    have hidle' : s.phase ≠ .busy := by rw [hidle]; exact Phase.noConfusion
    exact ⟨(if_neg hidle').trans (by rw [hout]), (if_neg hidle').trans (by rw [hulen]; rfl)⟩
  case stays =>
    rw [step_finished_keeps hs ht hfinished]
    exact ⟨rfl, rfl, rfl, rfl⟩
  case phase =>
    rw [statusByte_phase]
    cases s.phase <;> rfl
  case op =>
    rw [statusByte_op]
    cases s.op <;> rfl
  case code =>
    rw [statusByte_code]
    cases s.code <;> rfl

end Sys2Proof.Machine
end

section
/-! PROOF. The steps of DECOMPRESS, place by place and for any parameters: what the header, the bytes of the payload and their
absence lead to (R171 to R178, R202), the substitution at the end (R181), and the placing of one instruction (R93). -/

namespace Sys2Proof.Machine

/-- A run of writes is read back where it was written. -/
theorem Memory.slice_writeSeq_same {m : Memory} (hm : m.wf) (a : Nat) (bs : List Byte) :
    (m.writeSeq a bs).slice a bs.length = bs := by
  refine List.ext_getElem (Memory.slice_length ..) fun j hj hj' => ?_
  simp only [Memory.slice, List.getElem_map, List.getElem_range, Memory.read_writeSeq hm]
  rw [if_pos (by omega), Nat.add_sub_cancel_left, ← List.getElem_eq_getD]

section
variable {s : State} {p : Params} {ex : Instr → State → Host.Outcome State Fault Refusal}

/-! ## The header (R88, R171) -/

/-- The three magics of R88 stand in the container. -/
def State.magicsOk (s : State) : Prop :=
  be32 (s.inAt 0) (s.inAt 1) (s.inAt 2) (s.inAt 3) = 1 ∧ be32 (s.inAt 4) (s.inAt 5) (s.inAt 6) (s.inAt 7) = 8 ∧
    be32 (s.inAt 12) (s.inAt 13) (s.inAt 14) (s.inAt 15) = 1

/-- The length a header states: bytes 8 to 11 of the container. -/
def State.statedLength (s : State) : Word32 := be32 (s.inAt 8) (s.inAt 9) (s.inAt 10) (s.inAt 11)

theorem headerField_inBytes (hlong : 16 ≤ s.inCount) {k : Nat} (hk : k < 4) :
    headerField (inBytes s 0 16) k =
      be32 (s.inAt (4 * k)) (s.inAt (4 * k + 1)) (s.inAt (4 * k + 2)) (s.inAt (4 * k + 3)) := by
  have hread {j : Nat} (hj : j < 16) : (inBytes s 0 16).getD j 0 = s.inAt j := by
    rw [inBytes, Nat.min_eq_left (by omega), Memory.slice_getD _ _ _ _ hj, Nat.zero_add, State.inAt]
  rw [headerField, hread (by omega), hread (by omega), hread (by omega), hread (by omega)]

theorem fetch_eq_ok_iff {pos : Position} {i : Instr} :
    fetch p pos s = .ok i ↔ ∃ rest, decode p pos (fetchBytes pos s) = .ok (i, rest) := by
  rw [fetch]
  cases decode p pos (fetchBytes pos s) with
  | error e => simp
  | ok r => simp [Prod.ext_iff]

/-- A header is fetched exactly from 16 bytes with, under STRICT_MAGIC, the right magics (R88, R202). -/
theorem fetch_header_eq_ok_iff {i : Instr} :
    fetch p .header s = .ok i ↔
      16 ≤ s.inCount ∧ i = .header s.statedLength ∧ (p.strictMagic = true → s.magicsOk) := by
  have hlength : (inBytes s 0 16).length = min 16 s.inCount := inBytes_length s 0 16
  rw [fetch_eq_ok_iff, fetchBytes, Position.maxBytes, decode]
  simp only [decodeHeader_eq_ok_iff, exists_and_left, exists_and_right, exists_eq, true_and]
  by_cases hlong : 16 ≤ s.inCount
  · have hfield {k : Nat} (hk : k < 4) := headerField_inBytes hlong hk
    rw [MagicsOk, hfield (by decide), hfield (by decide), hfield (by decide), hfield (by decide)]
    simp only [hlength, Nat.min_eq_left hlong, hlong, Nat.le_refl]
    rfl
  · simp only [hlength, hlong, false_and, iff_false, not_and]
    intro h
    omega

section
variable (hstage : s.stage = .header)
include hstage

theorem decompressStep_accepts (hdec : s.decoding) (hlong : 16 ≤ s.inCount) (hmagics : p.strictMagic = true → s.magicsOk)
    (hcap : p.outCap = none) : decompressStep p (execWith p) s = .next (fieldTaken s.statedLength s) := by
  rw [decompressStep_header hstage, fetchRun_ok (fetch_header_eq_ok_iff.mpr ⟨hlong, rfl, hmagics⟩),
    execWith_header_decoding hdec hlong, hcap]
  rfl

theorem decompressStep_rejects (hbad : s.inCount < 16 ∨ (p.strictMagic = true ∧ ¬ s.magicsOk)) :
    decompressStep p ex s = .next (finish .errHeader s) := by
  rw [decompressStep_header hstage]
  cases hfetch : fetch p .header s with
  | ok i =>
    obtain ⟨hlong, -, hmagics⟩ := fetch_header_eq_ok_iff.mp hfetch
    rcases hbad with hshort | ⟨hstrict, hwrong⟩
    · exact absurd hlong (Nat.not_le.mpr hshort)
    · exact absurd (hmagics hstrict) hwrong
  | error e => rw [fetchRun_error hfetch, fetch_header_error hfetch]

end

theorem not_magicsOk_iff : ¬ s.magicsOk ↔
    be32 (s.inAt 0) (s.inAt 1) (s.inAt 2) (s.inAt 3) ≠ 1 ∨ be32 (s.inAt 4) (s.inAt 5) (s.inAt 6) (s.inAt 7) ≠ 8 ∨
      be32 (s.inAt 12) (s.inAt 13) (s.inAt 14) (s.inAt 15) ≠ 1 := by
  rw [State.magicsOk, Classical.not_and_iff_not_or_not, Classical.not_and_iff_not_or_not]

/-! ## The payload (R172 to R178) -/

section
variable (hmore : s.olen < s.ulen.toNat)
include hmore

/-- A missing flag or Literal byte (R178). -/
theorem decompressStep_exhausted (hplace : s.stage = .chunk ∨ (s.stage = .token ∧ s.flags.getLsbD s.t = true))
    (hend : s.inCount ≤ s.pp) : decompressStep p ex s = .next (endEarly p .errExhausted s) := by
  rcases hplace with hchunk | ⟨htoken, hbit⟩
  · rw [decompressStep_flag hchunk hmore]
    exact fetchRun_error ((fetch_flag p s).trans (if_neg (Nat.not_lt.mpr hend)))
  · rw [decompressStep_token htoken hmore, flagBit, hbit]
    exact fetchRun_error ((fetch_literal p s).trans (if_neg (Nat.not_lt.mpr hend)))

/-- A Match with fewer than two bytes left (R177). -/
theorem decompressStep_truncated (htoken : s.stage = .token) (hbit : s.flags.getLsbD s.t = false)
    (hend : s.inCount < s.pp + 2) : decompressStep p ex s = .next (endEarly p .truncated s) := by
  rw [decompressStep_token htoken hmore, flagBit, hbit]
  exact fetchRun_error ((fetch_match p s).trans (if_neg (Nat.not_le.mpr hend)))

end

theorem complete_eq (s : State) : complete s = { s with phase := .finished, code := .ok, out := (subst s).out } := by
  simp only [complete, finish, subst]

end

/-! ## The obligations on one step of DECOMPRESS -/

/-- Settles O24: it holds, with the unbounded capacity of the default parameters. -/
theorem headerFieldIsTaken : Obligations.HeaderFieldIsTaken := fun s n hdec hlong => by
  rw [exec_eq, execWith_header_decoding hdec hlong]
  rfl

/-- Settles O25: it holds, a header being fetched exactly from 16 bytes with the right magics. -/
theorem headerParseAcceptsOrRaises : Obligations.HeaderParseAcceptsOrRaises := by
  intro s halone hdec hstage
  have hstep : step s = decompressStep Params.default exec s := stepBy_decoding halone hdec
  rw [hstep, exec_eq]
  refine ⟨fun hbad => ?rejected, fun hlong hA hB hC => ?accepted⟩
  case rejected =>
    exact decompressStep_rejects hstage (hbad.imp id fun hwrong => ⟨rfl, not_magicsOk_iff.mpr hwrong⟩)
  case accepted => exact decompressStep_accepts hstage hdec hlong (fun _ => ⟨hA, hB, hC⟩) rfl

/-- Settles O26: it holds, by the two cases of FlagFetch. -/
theorem flagFetchTakesTheByte : Obligations.FlagFetchTakesTheByte := fun s f hdec => by
  rw [exec_eq]
  exact ⟨fun hmore => execWith_flag_decoding hdec hmore,
    fun hend => (execWith_flag_exhausted hdec hend).trans (by rw [endEarly_default]; rfl)⟩

/-- Settles O28: it holds, by the two places at which a single byte is fetched. -/
theorem exhaustedPayloadRaises : Obligations.ExhaustedPayloadRaises := by
  intro s halone hdec hmore hend hplace
  have hstep : step s = decompressStep Params.default exec s := stepBy_decoding halone hdec
  rw [hstep, decompressStep_exhausted hmore hplace hend, endEarly_default]
  refine ⟨rfl, fun b => ?_⟩
  rw [exec_eq, execWith_lit_exhausted hdec hend, endEarly_default]
  rfl

/-- Settles O31: it holds, by the place at which a Match is fetched. -/
theorem truncatedMatchKeepsPartialOutput : Obligations.TruncatedMatchKeepsPartialOutput := by
  intro s halone hdec htoken hmore hbit hend
  have hstep : step s = decompressStep Params.default exec s := stepBy_decoding halone hdec
  rw [hstep, decompressStep_truncated hmore htoken hbit hend, endEarly_default]
  refine ⟨rfl, fun off len => ?_⟩
  rw [exec_eq, execWith_matchTok_truncated hdec hend, endEarly_default]
  rfl

/-- Settles O32: it holds, the test of the output coming before every fetch. -/
theorem completeOutputEndsTheOperation : Obligations.CompleteOutputEndsTheOperation := by
  intro s halone hdec hstage hdone
  have hstep : step s = decompressStep Params.default exec s := stepBy_decoding halone hdec
  rw [hstep, decompressStep_complete hstage hdone, complete_eq]

/-- Settles O34: it holds, by what Subst leaves at a marker's byte 11 and at every other address. -/
theorem substReplacesEveryMarker : Obligations.SubstReplacesEveryMarker := by
  intro s hout
  refine ⟨by rw [subst], fun a q hq ha hmark => ?_, fun a ha => subst_read_other hout ha⟩
  rw [ha]
  exact subst_read_marker hout hq hmark

/-- Settles O27: it holds, by the read laws of OUT and of the window. -/
theorem literalIsAppendedAndWritten : Obligations.LiteralIsAppendedAndWritten := by
  intro s b hdec hwin hout hpp
  have hexec : exec (.lit b) s = .next (litTaken b s) := by rw [exec_eq, execWith_lit_decoding hdec hpp]
  exact ⟨litTaken b s, hexec, rfl, rfl, rfl, Memory.read_write_same hout _ _, Memory.read_write_same hwin _ _,
    BitVec.toNat_add .., rfl, fun a ha => Memory.read_write_other _ ha _, fun a ha => Memory.read_write_other _ ha _,
    litTaken_frame b s⟩

/-! ## The instruction that stands at the next step's place (R93) -/

section
variable {s : State} {i : Instr}

theorem step_header_fetched (halone : s.alone = true) (hdec : s.decoding) (hstage : s.stage = .header)
    (hfetch : fetch Params.default .header s = .ok i) : step s = exec i s :=
  (stepBy_decoding halone hdec).trans ((decompressStep_header hstage).trans (fetchRun_ok hfetch))

theorem step_flag_fetched (halone : s.alone = true) (hdec : s.decoding) (hstage : s.stage = .chunk)
    (hmore : s.olen < s.ulen.toNat) (hfetch : fetch Params.default .flag s = .ok i) : step s = exec i s :=
  (stepBy_decoding halone hdec).trans ((decompressStep_flag hstage hmore).trans (fetchRun_ok hfetch))

theorem step_token_fetched {pos : Position} (halone : s.alone = true) (hdec : s.decoding) (hstage : s.stage = .token)
    (hmore : s.olen < s.ulen.toNat) (hpos : tokenPosition (flagBit s.flags s.t) = pos)
    (hfetch : fetch Params.default pos s = .ok i) : step s = exec i s := by
  subst hpos
  exact (stepBy_decoding halone hdec).trans ((decompressStep_token hstage hmore).trans (fetchRun_ok hfetch))

theorem step_command_decoded {v : Byte} (hcmd : s.cmd = some v) (hdecode : decode Params.default .command [v] = .ok (i, [])) :
    step s = exec i { s with cmd := none } := by
  rw [step_command hcmd, commandStep, hdecode]

/-- Settles O9: it holds, place by place. -/
theorem stepRunsTheDecodedInstruction : Obligations.StepRunsTheDecodedInstruction :=
  ⟨fun _ _ => step_header_fetched, fun _ _ => step_flag_fetched, fun _ _ halone hdec hstage hmore =>
    step_token_fetched halone hdec hstage hmore rfl, fun _ _ _ => step_command_decoded⟩

/-! ## The placing of one instruction (log entry 3) -/

/-- IN_LEN covers the bytes placed, and they are read back. -/
theorem inBytes_placeIn (hinp : s.inp.wf) {a : Nat} {bs : List Byte} (hfits : a + bs.length < 2 ^ 32) :
    inBytes (placeIn a bs s) a bs.length = bs := by
  have hcount : a + bs.length ≤ (placeIn a bs s).inCount := by
    rw [State.inCount, placeIn]
    by_cases hshort : s.inCount < a + bs.length
    · have hnew : (BitVec.ofNat 32 (a + bs.length)).toNat = a + bs.length := Nat.mod_eq_of_lt hfits
      rw [if_pos hshort]
      exact Nat.le_of_eq hnew.symm
    · rw [if_neg hshort]
      exact Nat.le_of_not_lt hshort
  rw [inBytes, Nat.min_eq_left (by omega)]
  exact Memory.slice_writeSeq_same hinp a bs

/-- DECOMPRESS inside the payload differs from DECOMPRESS at a stage in `pp` and in the two lengths, and wants more output. -/
theorem payloadAt_eq (st : Stage) (s : State) :
    ∃ (o : Nat) (u : Word32), o < u.toNat ∧ payloadAt st s = { runningAt st s with pp := 16, olen := o, ulen := u } := by
  rw [payloadAt]
  split
  · next hmore => exact ⟨_, _, hmore, rfl⟩
  · exact ⟨0, 1, by decide, rfl⟩

theorem fetch_of_decode {pos : Position} {bs : List Byte} (hdecode : decode Params.default pos bs = .ok (i, []))
    (hbytes : fetchBytes pos s = bs) : fetch Params.default pos s = .ok i :=
  fetch_eq_ok_iff.mpr ⟨[], hbytes ▸ hdecode⟩

/-- The instruction placed is the one the next step runs. -/
theorem step_placeInstr (hinp : s.inp.wf) {pos : Position} {bs : List Byte}
    (hdecode : decode Params.default pos bs = .ok (i, [])) :
    step (placeInstr pos bs s) = exec i { placeInstr pos bs s with cmd := none } := by
  obtain ⟨-, hpos, hencode⟩ := decodedBytesEncodeBack pos bs i [] hdecode
  have hlength : bs.length = Position.maxBytes pos := by rw [← hencode, List.append_nil, length_encode, hpos]
  have hread {u : State} (hu : u.inp = s.inp) {a : Nat} (ha : a ≤ 16) :
      inBytes (placeIn a bs u) a (Position.maxBytes pos) = bs := by
    have hshort : Position.maxBytes pos ≤ 16 := by cases pos <;> decide
    rw [← hlength]
    exact inBytes_placeIn (hu ▸ hinp) (by omega)
  cases pos with
  | command =>
    obtain ⟨v, rfl⟩ := List.length_eq_one_iff.mp hlength
    exact step_command_decoded (s := placeInstr .command [v] s) rfl hdecode
  | header =>
    exact step_header_fetched rfl ⟨rfl, rfl⟩ rfl
      (fetch_of_decode hdecode (hread (u := runningAt .header s) rfl (Nat.zero_le 16)))
  | flag =>
    obtain ⟨o, u, hmore, hplace⟩ := payloadAt_eq .chunk s
    rw [placeInstr, hplace]
    exact step_flag_fetched rfl ⟨rfl, rfl⟩ rfl hmore (fetch_of_decode hdecode (hread rfl (Nat.le_refl 16)))
  | literal =>
    obtain ⟨o, u, hmore, hplace⟩ := payloadAt_eq .token s
    rw [placeInstr, hplace]
    exact step_token_fetched rfl ⟨rfl, rfl⟩ rfl hmore (by decide : tokenPosition (flagBit 0x01 0) = .literal)
      (fetch_of_decode hdecode (hread rfl (Nat.le_refl 16)))
  | matchTok =>
    obtain ⟨o, u, hmore, hplace⟩ := payloadAt_eq .token s
    rw [placeInstr, hplace]
    exact step_token_fetched rfl ⟨rfl, rfl⟩ rfl hmore (by decide : tokenPosition (flagBit 0x00 0) = .matchTok)
      (fetch_of_decode hdecode (hread rfl (Nat.le_refl 16)))

end

theorem decodeTableWord_eq_some {nbits w : Nat} {i : Instr} (h : decodeTableWord nbits w = some i) :
    ∃ pos, tablePosition nbits w = some pos ∧ decode Params.default pos (tableBytes nbits w) = .ok (i, []) := by
  rw [decodeTableWord] at h
  split at h
  · cases h
  · next pos hpos =>
    refine ⟨pos, hpos, ?_⟩
    split at h
    · next hdecode =>
      cases h
      exact hdecode
    · cases h

/-- Settles O11: it holds, at every position of the table. -/
theorem placedTableWordIsRun : Obligations.PlacedTableWordIsRun := by
  intro s nbits w i hinp hword
  obtain ⟨pos, hpos, hdecode⟩ := decodeTableWord_eq_some hword
  have hplaced : s.withFetchWord nbits w = placeInstr pos (tableBytes nbits w) s := by rw [State.withFetchWord, hpos]
  rw [hplaced]
  exact step_placeInstr hinp hdecode

end Sys2Proof.Machine
end

section
/-! PROOF. The stored objects while COMPRESS runs (R141, R142, R150, R152), the object a step emits (R140, R143), and the places at
which the parameters of R8 act. -/

namespace Sys2Proof.Machine

section
variable {s : State} {p : Params}

/-! ## The header (R141) -/

theorem headerBytes_eq (n : Word32) :
    headerBytes n = [0x00, 0x00, 0x00, 0x01, 0x00, 0x00, 0x00, 0x08, n.extractLsb' 24 8, n.extractLsb' 16 8,
      n.extractLsb' 8 8, n.extractLsb' 0 8, 0x00, 0x00, 0x00, 0x01] := by
  have hone : bytesBE32 0x00000001 = [0x00, 0x00, 0x00, 0x01] := by decide
  have height : bytesBE32 0x00000008 = [0x00, 0x00, 0x00, 0x08] := by decide
  rw [headerBytes, Config.magicA, Config.magicB, Config.magicC, hone, height]
  rfl

theorem headerPut_out (n : Word32) (s : State) :
    (headerPut n s).out = s.out.writeSeq s.outLen (headerBytes n) := by rw [headerPut_eq]

theorem headerPut_frame (n : Word32) (s : State) :
    headerPut n s = { s with
      out := (headerPut n s).out, outLen := (headerPut n s).outLen, ulenReg := (headerPut n s).ulenReg,
      stage := (headerPut n s).stage } := by
  rw [headerPut_eq]

/-! ## A chunk is flushed (R152) -/

theorem chunkPut_read (f : Byte) (hout : s.out.wf) (a : Nat) :
    (chunkPut f s).out.read a = if s.outLen ≤ a ∧ a < s.outLen + (s.tblen + 1) then
      (f :: s.tokbuf.slice 0 s.tblen).getD (a - s.outLen) 0 else s.out.read a := by
  rw [chunkPut_eq, Memory.read_writeSeq hout, List.length_cons, Memory.slice_length]

theorem chunkPut_read_flag (f : Byte) (hout : s.out.wf) : (chunkPut f s).out.read s.outLen = f := by
  rw [chunkPut_read f hout, if_pos (by omega), Nat.sub_self, List.getD_cons_zero]

theorem chunkPut_read_token (f : Byte) (hout : s.out.wf) {j : Nat} (hj : j < s.tblen) :
    (chunkPut f s).out.read (s.outLen + 1 + j) = s.tokbuf.read j := by
  have hindex : s.outLen + 1 + j - s.outLen = j + 1 := by omega
  rw [chunkPut_read f hout, if_pos (by omega), hindex, List.getD_cons_succ, Memory.slice_getD _ _ _ _ hj, Nat.zero_add]

theorem chunkPut_outLen (f : Byte) : (chunkPut f s).outLen = s.outLen + (1 + s.tblen) := by
  rw [chunkPut_eq, Nat.add_comm 1]

theorem chunkPut_frame (f : Byte) (s : State) :
    chunkPut f s = { s with out := (chunkPut f s).out, outLen := (chunkPut f s).outLen, stage := .chunk } := by
  rw [chunkPut_eq]

/-- PAD_FLAG_BITS fills the bits above the last token and no other (R83). -/
theorem paddedFlags_getLsbD (f : Byte) (m : Nat) {j : Nat} (hj : j < 8) :
    (paddedFlags p f m).getLsbD j = (f.getLsbD j || (p.padFlagBits && decide (m ≤ j))) := by
  have hmask : (padMask m).getLsbD j = decide (m ≤ j) := by
    have hones : (0xFF#8) = BitVec.allOnes 8 := by decide
    rw [padMask, hones, Bool.eq_iff_iff]
    simp only [BitVec.getLsbD_shiftLeft, BitVec.getLsbD_allOnes, Bool.and_eq_true, Bool.not_eq_true', decide_eq_true_eq,
      decide_eq_false_iff_not]
    omega
  rw [paddedFlags]
  cases p.padFlagBits with
  | false => simp
  | true => rw [if_pos rfl, BitVec.getLsbD_or, hmask, Bool.true_and]

end

/-! ## The obligations on COMPRESS -/

/-- Settles O5: it holds, the range of a Match being EncMatch's own test. -/
theorem outOfRangeTokenRaisesAssert : Obligations.OutOfRangeTokenRaisesAssert := by
  refine ⟨fun off len => ?none, fun s off len henc hrange => ?raises⟩
  case none =>
    rw [← wf_matchTok]
    refine ⟨fun hnone hwf => ?_, fun hwf => if_neg hwf⟩
    rw [encMatch_of_wf hwf] at hnone
    cases hnone
  case raises =>
    have hwf : (Instr.matchTok off len).wf = false := Bool.eq_false_iff.mpr (mt (wf_matchTok off len).mp hrange)
    exact ⟨_, exec_matchTok_assert henc hwf, rfl, rfl⟩

/-- Settles O10: it holds, place by place. -/
theorem stepRunsTheChosenInstruction : Obligations.StepRunsTheChosenInstruction := by
  intro s halone henc
  have hstep : step s = compressStep Params.default exec s := stepBy_encoding halone henc
  have htoken (hst : s.stage = .token) : step s = chunkStep Params.default exec s :=
    hstep.trans (compressStep_token hst)
  have hopen (hmore : s.di < s.inCount) (htcnt : s.tcnt < 8) : chunkOver s = false :=
    chunkOver_eq_false_iff.mpr ⟨hmore, htcnt⟩
  exact ⟨fun hst => hstep.trans (compressStep_header hst), fun hst hend => hstep.trans (compressStep_finish hst hend),
    fun hst hmore => hstep.trans (compressStep_open hst hmore),
    fun hst hover => (htoken hst).trans (chunkStep_flush ((chunkOver_iff s).mpr hover)),
    fun hst hmore htcnt hsearch htail => (htoken hst).trans (chunkStep_tail (hopen hmore htcnt) hsearch htail),
    fun q hst hmore htcnt hsearch hext => (htoken hst).trans (chunkStep_found (hopen hmore htcnt) hsearch hext)⟩

/-- Settles O39: it holds, by the read laws of a run of writes. -/
theorem headerEmitAppendsSixteenBytes : Obligations.HeaderEmitAppendsSixteenBytes := by
  intro s n henc hout
  have hexec : exec (.header n) s = .next (headerPut n s) := by rw [exec_eq, execWith_header_encoding henc]
  have hbytes := Memory.slice_writeSeq_same hout s.outLen (headerBytes n)
  rw [length_headerBytes] at hbytes
  refine ⟨_, hexec, ?outLen, ?ulen, ?bytes, fun a ha => ?kept, headerPut_frame n s⟩
  case outLen => rw [headerPut_eq]
  case ulen => rw [headerPut_eq]
  case bytes => rw [headerPut_out, hbytes, headerBytes_eq]
  case kept => rw [headerPut_out, Memory.read_writeSeq hout, length_headerBytes, if_neg (by omega)]

/-- Settles O42: it holds, by the read laws of a run of writes. -/
theorem chunkFlushEmitsFlagThenTokens : Obligations.ChunkFlushEmitsFlagThenTokens := by
  intro s f henc hout htblen
  have hexec : exec (.flag f) s = .next (chunkPut f s) := by rw [exec_eq, execWith_flag_encoding henc f htblen]
  refine ⟨_, hexec, chunkPut_outLen f, chunkPut_read_flag f hout, fun j hj => chunkPut_read_token f hout hj,
    fun a ha => ?_, ?_⟩
  · rw [chunkPut_read f hout, if_neg (by omega)]
  · rw [chunkPut_eq]

/-- Settles O40: it holds, by the fields of staging and committing one byte. -/
theorem literalIsStagedAndCommitted : Obligations.LiteralIsStagedAndCommitted := by
  intro s b henc hwin htok htcnt htblen hinput
  have hflags (j : Nat) := flagBit_stageToken (s := s) true [b] htcnt j
  exact ⟨_, exec_lit_room henc htcnt htblen hinput, hflags, Memory.read_write_same htok _ _, rfl, rfl, rfl,
    Memory.read_write_same hwin _ _, BitVec.toNat_add .., fun a ha => Memory.read_write_other _ ha _,
    fun a ha => Memory.read_write_other _ ha _, rfl⟩

/-! ## Where the parameters act (R8) -/

/-- Settles O38: it holds, each clause by the place of the sequencer at which its parameter is read. -/
theorem parametersActWhereTheyAreNamed : Obligations.ParametersActWhereTheyAreNamed := by
  intro p s halone
  have hdecode (hdec : s.decoding) : stepWith p s = decompressStep p (execWith p) s := stepBy_decoding halone hdec
  refine ⟨fun henc hst hover htblen hout => ?flush, fun hdec hst => ⟨fun hshort => ?short, fun hstrict hbad => ?magics,
    fun hcap hlong hmagics => ?accepted⟩, fun hdec hmore => ⟨fun hst hbit hend => ?truncated, fun hplace hend => ?exhausted⟩,
    fun hdec hst hdone => ?complete⟩
  case flush =>
    have hstep : stepWith p s = .next (chunkPut (paddedFlags p s.flags s.tcnt) s) := by
      rw [stepWith, stepBy_encoding halone henc, compressStep_token hst, chunkStep_flush ((chunkOver_iff s).mpr hover),
        execWith_flag_encoding henc _ htblen]
    exact ⟨_, hstep, chunkPut_outLen _, fun j hj => by rw [chunkPut_read_flag _ hout, paddedFlags_getLsbD _ _ hj],
      fun j hj => chunkPut_read_token _ hout hj, chunkPut_frame _ s⟩
  case short => exact (hdecode hdec).trans (decompressStep_rejects hst (.inl hshort))
  case magics =>
    exact (hdecode hdec).trans (decompressStep_rejects hst (.inr ⟨hstrict, not_magicsOk_iff.mpr hbad⟩))
  case accepted =>
    refine (hdecode hdec).trans (decompressStep_accepts hst hdec hlong (fun hstrict => ?_) hcap)
    exact hmagics.resolve_left (by rw [hstrict]; decide)
  case truncated => rw [hdecode hdec, decompressStep_truncated hmore hst hbit hend, endEarly_eq]
  case exhausted => rw [hdecode hdec, decompressStep_exhausted hmore hplace hend, endEarly_eq]
  case complete => rw [hdecode hdec, decompressStep_complete hst hdone, complete_eq]

end Sys2Proof.Machine
end
